-- ==== Sys2Proof/Word.lean ====
section
/-! DEFINITION. The word types of PFC-SEQ (00_scope.md rule R11: every value is unsigned). -/

namespace Sys2Proof

/-- A byte: 0..255 (R11). -/
abbrev Byte := BitVec 8

/-- A 16-bit value: TP, ERRINFO.LOC, a DELAY operand (R11, R22, R94). -/
abbrev Half := BitVec 16

/-- A 32-bit host register word (R25). -/
abbrev Word := BitVec 32

end Sys2Proof
end

