-- ==== Sys2Proof/Syntax.lean ====
section
/-! DEFINITION. The instructions: one constructor per row of spec/opcode_table.json (30_encoding.md
rule R106). The rows are of three formats: entries of the command table (R90), commands the host writes
to CTRL (R99) and wire transactions the framer sends (R100). -/

namespace Sys2Proof

/-- Every instruction of PFC-SEQ. -/
inductive Instr where
  /-- CMD: send opcode `op` with payload `pl` (R93, R162). -/
  | cmd (op : Byte) (pl : List Byte)
  /-- DELAY: wait `ms` milliseconds (R94, R163). -/
  | delay (ms : Half)
  /-- RST_LOW: assert the panel reset (R95, R164). -/
  | rstLow
  /-- RST_HIGH: release the panel reset (R95, R165). -/
  | rstHigh
  /-- END: finish initialisation (R96, R166). -/
  | endEntry
  /-- RESERVED_ENTRY_41_7F: a reserved header byte 0x41..0x7F (R97). -/
  | reservedEntryLow (h : Byte)
  /-- RESERVED_ENTRY_82_FE: a reserved header byte 0x82..0xFE (R97). -/
  | reservedEntryHigh (h : Byte)
  /-- NOP, CTRL[2:0] = 0; `ign` is CTRL[31:3], which the command ignores (R210). -/
  | nop (ign : BitVec 29)
  /-- INIT, CTRL[2:0] = 1 (R211). -/
  | init (ign : BitVec 29)
  /-- REFRESH, CTRL[2:0] = 2 (R214). -/
  | refresh (ign : BitVec 29)
  /-- CONVERT, CTRL[2:0] = 3 (R217). -/
  | convert (ign : BitVec 29)
  /-- RESERVED_CTRL, CTRL[2:0] = 4..7; `low` is CTRL[1:0] (R219). -/
  | reservedCtrl (ign : BitVec 29) (low : BitVec 2)
  /-- SLEEP_OUT, wire opcode 0x11 (R100). -/
  | sleepOut (pl : List Byte)
  /-- DISPLAY_ON, wire opcode 0x29 (R100). -/
  | displayOn (pl : List Byte)
  /-- COL_ADDR_SET, wire opcode 0x2A (R100). -/
  | colAddrSet (pl : List Byte)
  /-- ROW_ADDR_SET, wire opcode 0x2B (R100). -/
  | rowAddrSet (pl : List Byte)
  /-- MEM_WRITE, wire opcode 0x2C (R100). -/
  | memWrite (pl : List Byte)
  /-- MEM_ACCESS_CTRL, wire opcode 0x36 (R100). -/
  | memAccessCtrl (pl : List Byte)
  /-- PIXEL_FORMAT, wire opcode 0x3A (R100). -/
  | pixelFormat (pl : List Byte)
  /-- OPAQUE: every other wire opcode, sent as given (R100, R200). -/
  | opaqueOp (op : Byte) (pl : List Byte)
  deriving DecidableEq, Repr

end Sys2Proof
end

