-- ==== Sys2Proof/WellFormed.lean ====
section
/-! DEFINITION. Which terms of Instr are instructions: the operand ranges that the encodings of
30_encoding.md admit. -/

namespace Sys2Proof

/-- The seven wire opcodes that R100 names. -/
def namedOpcodes : List Byte := [0x11, 0x29, 0x2A, 0x2B, 0x2C, 0x36, 0x3A]

/-- A CMD payload has at most 63 bytes (R93); a reserved header lies in its row's range (R97); OPAQUE is
an opcode that R100 does not name. Every other operand is admitted at every value its type has. A wire
payload has any length (R199). -/
def wellFormed : Instr → Bool
  | .cmd _ pl => pl.length ≤ 63
  | .reservedEntryLow h => 0x41 ≤ h.toNat && h.toNat ≤ 0x7F
  | .reservedEntryHigh h => 0x82 ≤ h.toNat && h.toNat ≤ 0xFE
  | .opaqueOp op _ => !namedOpcodes.contains op
  | .delay _ => true
  | .rstLow => true
  | .rstHigh => true
  | .endEntry => true
  | .nop _ => true
  | .init _ => true
  | .refresh _ => true
  | .convert _ => true
  | .reservedCtrl _ _ => true
  | .sleepOut _ => true
  | .displayOn _ => true
  | .colAddrSet _ => true
  | .rowAddrSet _ => true
  | .memWrite _ => true
  | .memAccessCtrl _ => true
  | .pixelFormat _ => true

end Sys2Proof
end

