-- ==== Sys2Proof/Decode.lean ====
section
/-! DEFINITION. Decoding and encoding of the three formats of 30_encoding.md: table entries (R91, R92),
the CTRL word (R99) and the wire transaction (R100, R101). -/

namespace Sys2Proof

/-- Why the bytes at TP are no entry (R92). -/
inductive DecodeError where
  /-- TP has reached TL: the table ran out with no END (R243 cause a). -/
  | ranOff
  /-- The entry extends past TL; its header is `h` (R243 cause b). -/
  | truncated (h : Byte)
  deriving DecidableEq, Repr

/-- `decode(a)` of R92 on the bytes from a to the table's end: the entry and its length. A reserved
header (R97), where R92 returns Err, decodes here to the row that the opcode table gives it, with length 1;
that row's meaning raises TBL_ERR (DESIGN CHOICE, log entry 29). -/
def decodeEntry : List Byte → Except DecodeError (Instr × Nat)
  | [] => .error .ranOff
  | h :: rest =>
    if h.toNat / 64 = 0 then
      match rest with
      | [] => .error (.truncated h)
      | op :: tail =>
        if tail.length < h.toNat % 64 then .error (.truncated h)
        else .ok (.cmd op (tail.take (h.toNat % 64)), 2 + h.toNat % 64)
    else if h = 0x40 then
      match rest with
      | hi :: lo :: _ => .ok (.delay (hi ++ lo), 3)
      | _ => .error (.truncated h)
    else if h = 0x80 then .ok (.rstLow, 1)
    else if h = 0x81 then .ok (.rstHigh, 1)
    else if h = 0xFF then .ok (.endEntry, 1)
    else if h.toNat < 0x80 then .ok (.reservedEntryLow h, 1)
    else .ok (.reservedEntryHigh h, 1)

/-- The host command of a value written to CTRL (R99). -/
def decodeCtrl (v : Word) : Instr :=
  if v.extractLsb' 0 3 = 0 then .nop (v.extractLsb' 3 29)
  else if v.extractLsb' 0 3 = 1 then .init (v.extractLsb' 3 29)
  else if v.extractLsb' 0 3 = 2 then .refresh (v.extractLsb' 3 29)
  else if v.extractLsb' 0 3 = 3 then .convert (v.extractLsb' 3 29)
  else .reservedCtrl (v.extractLsb' 3 29) (v.extractLsb' 0 2)

/-- The wire row of an opcode byte, with the transaction's payload (R100; every byte has a row). -/
def decodeWire (op : Byte) (pl : List Byte) : Instr :=
  if op = 0x11 then .sleepOut pl
  else if op = 0x29 then .displayOn pl
  else if op = 0x2A then .colAddrSet pl
  else if op = 0x2B then .rowAddrSet pl
  else if op = 0x2C then .memWrite pl
  else if op = 0x36 then .memAccessCtrl pl
  else if op = 0x3A then .pixelFormat pl
  else .opaqueOp op pl

/-- An encoded instruction, in the format of its row. -/
inductive Code where
  /-- The bytes of a table entry (R91). -/
  | entry (bytes : List Byte)
  /-- The word written to CTRL (R99). -/
  | ctrl (v : Word)
  /-- The opcode byte and the payload bytes of a transaction (R101). -/
  | wire (op : Byte) (pl : List Byte)
  deriving DecidableEq, Repr

/-- Decoding, total on every code; the table format rejects by name. -/
def decode : Code → Except DecodeError Instr
  | .entry bytes =>
    match decodeEntry bytes with
    | .ok (i, _) => .ok i
    | .error e => .error e
  | .ctrl v => .ok (decodeCtrl v)
  | .wire op pl => .ok (decodeWire op pl)

/-- The encoding of an instruction (R91, R99, R101). -/
def encode : Instr → Code
  | .cmd op pl => .entry (BitVec.ofNat 8 pl.length :: op :: pl)
  | .delay ms => .entry [0x40, ms.extractLsb' 8 8, ms.extractLsb' 0 8]
  | .rstLow => .entry [0x80]
  | .rstHigh => .entry [0x81]
  | .endEntry => .entry [0xFF]
  | .reservedEntryLow h => .entry [h]
  | .reservedEntryHigh h => .entry [h]
  | .nop ign => .ctrl (ign ++ 0#3)
  | .init ign => .ctrl (ign ++ 1#3)
  | .refresh ign => .ctrl (ign ++ 2#3)
  | .convert ign => .ctrl (ign ++ 3#3)
  | .reservedCtrl ign low => .ctrl (ign ++ (1#1 ++ low))
  | .sleepOut pl => .wire 0x11 pl
  | .displayOn pl => .wire 0x29 pl
  | .colAddrSet pl => .wire 0x2A pl
  | .rowAddrSet pl => .wire 0x2B pl
  | .memWrite pl => .wire 0x2C pl
  | .memAccessCtrl pl => .wire 0x36 pl
  | .pixelFormat pl => .wire 0x3A pl
  | .opaqueOp op pl => .wire op pl

/-- The bytes an instruction puts into the command table; only table entries have any (R90). -/
def entryBytes (i : Instr) : List Byte :=
  match encode i with
  | .entry bytes => bytes
  | .ctrl _ => []
  | .wire _ _ => []

/-- The encoding of a list of entries, back to back (R90). -/
def encodeTable (es : List Instr) : List Byte := es.flatMap entryBytes

/-- The value written to CTRL by a host command; 0 for the rows of other formats (R99). -/
def ctrlWord (i : Instr) : Word :=
  match encode i with
  | .ctrl v => v
  | .entry _ => 0
  | .wire _ _ => 0

/-- The longest instruction of the command table: CMD with 63 payload bytes (R93). -/
def longestEntry : Nat := 65

/-- The bytes of an instruction whose bits are `w`, numbered as spec/opcode_table.json numbers them,
`nbits` of them given and the rest zero, up to the longest entry. -/
def bytesOfWord (nbits w : Nat) : List Byte :=
  (List.range longestEntry).map fun k => BitVec.ofNat 8 ((w % 2 ^ nbits) / 2 ^ (8 * k))

/-- Which of the three formats a bare word of the opcode table is read in. -/
inductive WordFormat where
  | entry | ctrl | wire
  deriving DecidableEq, Repr

/-- DESIGN CHOICE (log entry 14): the rows of spec/opcode_table.json share the numbers 0..255 among three
formats, and a bare word does not say its format. A row with no fixed bits (OPAQUE) and the seven opcodes
of R100 are read as wire opcodes, the bytes 1..7 as CTRL words, every other byte as a table entry (and 0,
which the first row in file order, CMD, matches). -/
def wordFormat (nbits w : Nat) : WordFormat :=
  if nbits = 0 then .wire
  else if 8 < nbits then .entry
  else if namedOpcodes.contains (BitVec.ofNat 8 w) then .wire
  else if 1 ≤ w % 256 && w % 256 ≤ 7 then .ctrl
  else .entry

/-- What the decoder reads from a bare word of the opcode table. -/
def decodeTableWord (nbits w : Nat) : Option Instr :=
  match wordFormat nbits w with
  | .wire => some (decodeWire (BitVec.ofNat 8 (w % 2 ^ nbits)) [])
  | .ctrl => some (decodeCtrl (BitVec.ofNat 32 (w % 2 ^ nbits)))
  | .entry =>
    match decodeEntry (bytesOfWord nbits w) with
    | .ok (i, _) => some i
    | .error _ => none

end Sys2Proof
end

