-- ==== Sys2Proof/Config.lean ====
section
/-! DEFINITION. The configuration record of 00_scope.md rule R8, the parameters no source gives (opaque
constants, 92_eei_decisions.md "Parameters left OPEN"), and the free values. -/

namespace Sys2Proof

/-- One entry of CONFIG_ENTRIES as a configuration may hold it before the checks of R10: any entry kind
and any numbers, so that CFG-CONFIG, CFG-BYTES and CFG-DELAY say something. -/
inductive CfgEntry where
  | cmd (op : Nat) (pl : List Nat)
  | delay (ms : Nat)
  | rstLow
  | rstHigh
  | endEntry
  deriving DecidableEq, Repr, Inhabited

/-- The configuration record `cfg` (R8). TBL_MAX is the constant `tblMax`. -/
structure Cfg where
  /-- Bitmap width W in columns. -/
  w : Nat
  /-- Bitmap height H in rows. -/
  h : Nat
  /-- T_RST_LOW, ms. -/
  tRstLow : Nat
  /-- T_RST_SETTLE, ms. -/
  tRstSettle : Nat
  /-- CONFIG_ENTRIES. -/
  configEntries : List CfgEntry
  /-- T_SLEEPOUT, ms. -/
  tSleepout : Nat
  /-- MADCTL_PL, payload of 0x36. -/
  madctlPl : List Nat
  /-- COLMOD_PL, payload of 0x3A. -/
  colmodPl : List Nat
  /-- WIN, column start. -/
  winCs0 : Nat
  /-- WIN, column end. -/
  winCe0 : Nat
  /-- WIN, row start. -/
  winRs0 : Nat
  /-- WIN, row end. -/
  winRe0 : Nat
  /-- PM_OPCODE. -/
  pmOpcode : Nat
  /-- PM_PL. Its default is SMALL's alone (R8), see `OpenSmall.pmPl`. -/
  pmPl : List Nat
  /-- FR_OPTIONS: (low-power-opcode, high-power-payload) pairs. -/
  frOptions : List (Nat × List Nat)
  /-- FR_SEL. -/
  frSel : Option Nat
  /-- FR_INDEX. -/
  frIndex : Option Nat
  /-- T_DISPON, ms. -/
  tDispon : Nat
  /-- HAS_TE: whether the tearing-enable input is wired (no rule reads the line, R39). -/
  hasTe : Bool
  /-- TICKS_PER_MS. -/
  ticksPerMs : Nat
  /-- SPI_MODE: clock polarity and phase, default 0 in both variants (R8, D17; R197; the model works at byte
  level, R6). -/
  spiMode : Nat := 0
  deriving DecidableEq, Repr, Inhabited

/-- TBL_MAX, the size limit of the command-table ROM in bytes (R8: 65536 for both variants). -/
def tblMax : Nat := 65536

/-- The checks of R10, by name. -/
inductive CfgCheck where
  | bytes | delay | plLen | config | fr | tbl | dim
  deriving DecidableEq, Repr

/-- A CMD or DELAY entry of CONFIG_ENTRIES (CFG-CONFIG) with operands in range (CFG-BYTES, CFG-DELAY). -/
inductive OpenEntry where
  | cmd (op : Byte) (pl : List Byte)
  | delay (ms : Half)
  deriving DecidableEq, Repr, Inhabited

/-- The parameters of the SMALL variant that R8 leaves OPEN, each of a type that holds the numbers R10
admits. A value that is not named takes the default the spec decides: PM_PL empty, SPI_MODE 0 (R8, D17, log
entry 30). -/
structure OpenSmall where
  tRstLow : Half
  tRstSettle : Half
  configEntries : List OpenEntry
  tSleepout : Half
  madctlPl : List Byte
  colmodPl : List Byte
  winCs0 : Byte
  winCe0 : Byte
  winRs0 : Byte
  winRe0 : Byte
  pmOpcode : Byte
  /-- PM_PL, "decided default empty" (R8). -/
  pmPl : List Byte := []
  tDispon : Half
  hasTe : Bool
  ticksPerMs : Nat
  /-- SPI_MODE, default 0 (R8, D17). -/
  spiMode : Fin 4 := 0
  deriving DecidableEq, Repr, Inhabited

/-- The OPEN values of the SMALL variant: no source gives them (R8, N3, N4, N19, N21, N22). PM_PL and SPI_MODE
are opaque too: a default is the value of a record that names none, and OPEN means that no proof may assume
one (R8, log entry 30). -/
opaque Config.openSmall : OpenSmall

/-- The LARGE variant's whole record: OPEN in every field (R8, D6, N20). Whether it is admitted (R10)
is open too; building a block from it goes through the checks. -/
opaque Config.large : Cfg

/-- What byte i of the bitmap buffer holds after the block reset number `epoch` until it is written
(R40: drawn freely, then kept). A FREE VALUE. -/
opaque Config.drawnBitmap : Nat → Nat → Byte

/-- The same for byte k of the packed buffer (R40). A FREE VALUE. -/
opaque Config.drawnPacked : Nat → Nat → Byte

/-- What the 16-bit register TP reads after the sequencer has passed byte 65535 of a 65536-byte table
without END: R22 says that TP does not wrap and gives no 16-bit value. A FREE VALUE. -/
opaque Config.tpBeyond : Nat → Half

/-- How many ticks longer than TICKS_PER_MS × ms a DELAY holds: R163 says "or more" and R285 gives no upper
bound. A FREE VALUE (log entry 10). -/
opaque Config.delayExtra : Nat → Nat

end Sys2Proof
end

