-- ==== Sys2Proof/Machine/Geometry.lean ====
section
/-! DEFINITION. The derived geometry of 00_scope.md rule R7 and the geometry check of 43_host_ops.md
rule R218. -/

namespace Sys2Proof

/-- NB = H / 8, the bands (R7). -/
def Cfg.nb (c : Cfg) : Nat := c.h / 8

/-- NCP = W / 2, the column pairs (R7). -/
def Cfg.ncp (c : Cfg) : Nat := c.w / 2

/-- NG = H / 24, the groups of three bands (R7). -/
def Cfg.ng (c : Cfg) : Nat := c.h / 24

/-- N = W * H / 8, the size of B and of P in bytes (R7). DESIGN CHOICE (log entry 26): where W * H is no
multiple of 8 (an admitted geometry that `geomOk` refuses; L2-G2 has N = 3812.5) the spec gives no whole N, and
the model takes the floor, also as the bound of both windows (R65, R66). -/
def Cfg.n (c : Cfg) : Nat := c.w * c.h / 8

/-- `geom_ok(W, H)` (R218). -/
def Cfg.geomOk (c : Cfg) : Bool :=
  2 ≤ c.w && c.w % 2 = 0 && 24 ≤ c.h && c.h % 24 = 0 && c.n ≤ 65536

end Sys2Proof
end

