-- ==== Sys2Proof/Machine/InitTable.lean ====
section
/-! DEFINITION. INIT_TABLE(cfg) of 41_sequencer.md rule R160 with the frame-rate substitution of R172, the
pseudo-instructions of 30_encoding.md rule R104, the configuration checks of 00_scope.md rule R10 and the
SMALL variant's configuration (R8, R9). -/

namespace Sys2Proof

/-- A number of the configuration as a byte (in 0..255 once CFG-BYTES holds). -/
def byteOf (n : Nat) : Byte := BitVec.ofNat 8 n

/-- A payload of the configuration as bytes. -/
def bytesOf (ns : List Nat) : List Byte := ns.map byteOf

/-- A configuration entry as a table entry (R160). -/
def CfgEntry.instr : CfgEntry → Instr
  | .cmd op pl => .cmd (byteOf op) (bytesOf pl)
  | .delay ms => .delay (BitVec.ofNat 16 ms)
  | .rstLow => .rstLow
  | .rstHigh => .rstHigh
  | .endEntry => .endEntry

/-- `reset_pulse T1, T2` (R104). -/
def resetPulse (t1 t2 : Nat) : List Instr :=
  [.rstLow, .delay (BitVec.ofNat 16 t1), .rstHigh, .delay (BitVec.ofNat 16 t2)]

/-- `cmd_only OP` (R104). -/
def cmdOnly (op : Byte) : List Instr := [.cmd op []]

/-- `sleep_out T` (R104). -/
def sleepOutThen (t : Nat) : List Instr := [.cmd 0x11 [], .delay (BitVec.ofNat 16 t)]

/-- `display_on T` (R104). -/
def displayOnThen (t : Nat) : List Instr := [.cmd 0x29 [], .delay (BitVec.ofNat 16 t)]

/-- `window CS0, CE0, RS0, RE0` (R104). -/
def windowEntries (cs0 ce0 rs0 re0 : Byte) : List Instr :=
  [.cmd 0x2A [cs0, ce0], .cmd 0x2B [rs0, re0]]

/-- The pair that FR_SEL selects from FR_OPTIONS (R172). -/
def Cfg.frPair (c : Cfg) : Option (Nat × List Nat) :=
  match c.frSel with
  | none => none
  | some k => c.frOptions[k]?

/-- PM_OPCODE' (R172). -/
def Cfg.pmOpcode' (c : Cfg) : Nat :=
  match c.frPair with
  | none => c.pmOpcode
  | some (lp, _) => lp

/-- A CMD entry with another payload; no other entry has one (R172). -/
def CfgEntry.withPayload (pl : List Nat) : CfgEntry → CfgEntry
  | .cmd op _ => .cmd op pl
  | .delay ms => .delay ms
  | .rstLow => .rstLow
  | .rstHigh => .rstHigh
  | .endEntry => .endEntry

/-- CONFIG_ENTRIES' (R172): the entry at FR_INDEX carries the selected pair's payload. DESIGN CHOICE (log entry 33):
where FR_SEL selects no pair or FR_INDEX no CMD entry, for which R172 defines no substitution, it is CONFIG_ENTRIES;
CFG-FR refuses such a configuration, but CFG-PLLEN is checked before it and on these payloads. -/
def Cfg.configEntries' (c : Cfg) : List CfgEntry :=
  match c.frPair, c.frIndex with
  | some (_, hp), some k => c.configEntries.modify k (CfgEntry.withPayload hp)
  | _, _ => c.configEntries

/-- INIT_TABLE(cfg) (R160). -/
def initTable (c : Cfg) : List Instr :=
  resetPulse c.tRstLow c.tRstSettle
    ++ c.configEntries'.map CfgEntry.instr
    ++ sleepOutThen c.tSleepout
    ++ [.cmd 0x36 (bytesOf c.madctlPl), .cmd 0x3A (bytesOf c.colmodPl)]
    ++ windowEntries (byteOf c.winCs0) (byteOf c.winCe0) (byteOf c.winRs0) (byteOf c.winRe0)
    ++ [.cmd (byteOf c.pmOpcode') (bytesOf c.pmPl)]
    ++ displayOnThen c.tDispon
    ++ [.endEntry]

/-- The contents of the ROM T for a configuration (R37, R160). -/
def tableRom (c : Cfg) : List Byte := encodeTable (initTable c)

/-- Every number of the list is in 0..255. -/
def allBytes (ns : List Nat) : Bool := ns.all (· < 256)

/-- CFG-BYTES for one entry. -/
def CfgEntry.bytesOk : CfgEntry → Bool
  | .cmd op pl => op < 256 && allBytes pl
  | .delay _ => true
  | .rstLow => true
  | .rstHigh => true
  | .endEntry => true

/-- CFG-DELAY for one entry. -/
def CfgEntry.delayOk : CfgEntry → Bool
  | .delay ms => ms < 65536
  | .cmd _ _ => true
  | .rstLow => true
  | .rstHigh => true
  | .endEntry => true

/-- CFG-PLLEN for one entry. -/
def CfgEntry.plLenOk : CfgEntry → Bool
  | .cmd _ pl => pl.length ≤ 63
  | .delay _ => true
  | .rstLow => true
  | .rstHigh => true
  | .endEntry => true

/-- CFG-CONFIG for one entry. -/
def CfgEntry.isCmdOrDelay : CfgEntry → Bool
  | .cmd _ _ => true
  | .delay _ => true
  | .rstLow => false
  | .rstHigh => false
  | .endEntry => false

/-- Whether an entry is a CMD (CFG-FR). -/
def CfgEntry.isCmd : CfgEntry → Bool
  | .cmd _ _ => true
  | .delay _ => false
  | .rstLow => false
  | .rstHigh => false
  | .endEntry => false

/-- CFG-FR: FR_SEL is absent exactly when FR_OPTIONS is empty; when present it selects a pair and
FR_INDEX names a CMD entry of CONFIG_ENTRIES. -/
def Cfg.frOk (c : Cfg) : Bool :=
  match c.frSel with
  | none => c.frOptions.isEmpty
  | some k =>
    k < c.frOptions.length &&
      match c.frIndex with
      | none => false
      | some j =>
        match c.configEntries[j]? with
        | none => false
        | some e => e.isCmd

/-- Whether the configuration passes a check of R10. -/
def Cfg.passes (c : Cfg) : CfgCheck → Bool
  | .bytes =>
    c.configEntries.all CfgEntry.bytesOk && allBytes c.madctlPl && allBytes c.colmodPl
      && allBytes [c.winCs0, c.winCe0, c.winRs0, c.winRe0, c.pmOpcode] && allBytes c.pmPl
      && c.frOptions.all fun p => p.1 < 256 && allBytes p.2
  | .delay =>
    [c.tRstLow, c.tRstSettle, c.tSleepout, c.tDispon].all (· < 65536)
      && c.configEntries.all CfgEntry.delayOk
  | .plLen =>
    c.configEntries'.all CfgEntry.plLenOk && c.madctlPl.length ≤ 63 && c.colmodPl.length ≤ 63
      && c.pmPl.length ≤ 63
  | .config => c.configEntries.all CfgEntry.isCmdOrDelay
  | .fr => c.frOk
  | .tbl => (tableRom c).length ≤ tblMax
  | .dim => c.w < 65536 && c.h < 65536

/-- The checks of R10 in its order. -/
def cfgChecks : List CfgCheck := [.bytes, .delay, .plLen, .config, .fr, .tbl, .dim]

/-- The check by which a configuration is refused: the first one it fails, in the order of R10's list. DESIGN
CHOICE (log entry 31): R10 and D42 say that the refusal names the check, not which one where several fail. -/
def Cfg.failure (c : Cfg) : Option CfgCheck := cfgChecks.find? fun k => !c.passes k

/-- The configuration passes every check of R10. -/
def Cfg.admitted (c : Cfg) : Bool := cfgChecks.all c.passes

/-- A free entry of CONFIG_ENTRIES with its payload held to 63 bytes (CFG-PLLEN). -/
def OpenEntry.cfgEntry : OpenEntry → CfgEntry
  | .cmd op pl => .cmd op.toNat ((pl.take 63).map BitVec.toNat)
  | .delay ms => .delay ms.toNat

/-- The table bytes an entry takes (R91). -/
def OpenEntry.size : OpenEntry → Nat
  | .cmd _ pl => 2 + (pl.take 63).length
  | .delay _ => 3

/-- The longest prefix of the free entries whose encoding has at most `room` bytes (CFG-TBL). -/
def fitEntries (room : Nat) : List OpenEntry → List CfgEntry
  | [] => []
  | e :: es => if e.size ≤ room then e.cfgEntry :: fitEntries (room - e.size) es else []

/-- A free payload held to 63 bytes (CFG-PLLEN). -/
def openPayload (pl : List Byte) : List Nat := (pl.take 63).map BitVec.toNat

/-- The SMALL configuration for given OPEN values: W = 250, H = 120 (R8, R9), no frame-rate pairs, and
every OPEN value held to what R10 admits. -/
def smallOf (o : OpenSmall) : Cfg where
  w := 250
  h := 120
  tRstLow := o.tRstLow.toNat
  tRstSettle := o.tRstSettle.toNat
  configEntries :=
    fitEntries (tblMax - (33 + (openPayload o.madctlPl).length + (openPayload o.colmodPl).length
      + (openPayload o.pmPl).length)) o.configEntries
  tSleepout := o.tSleepout.toNat
  madctlPl := openPayload o.madctlPl
  colmodPl := openPayload o.colmodPl
  winCs0 := o.winCs0.toNat
  winCe0 := o.winCe0.toNat
  winRs0 := o.winRs0.toNat
  winRe0 := o.winRe0.toNat
  pmOpcode := o.pmOpcode.toNat
  pmPl := openPayload o.pmPl
  frOptions := []
  frSel := none
  frIndex := none
  tDispon := o.tDispon.toNat
  hasTe := o.hasTe
  ticksPerMs := o.ticksPerMs
  spiMode := o.spiMode.val

/-- The SMALL variant (R8, R9); its OPEN values are the opaque `Config.openSmall`. -/
def Config.small : Cfg := smallOf Config.openSmall

end Sys2Proof
end

