-- ==== Sys2Proof/Machine/State.lean ====
section
/-! DEFINITION. The machine's state as plain data (10_state.md, 70_reset_and_hazards.md rule R270), the
reasons a step can stop, and the state after block reset. -/

namespace Sys2Proof.Machine

/-- STATUS.OP (R27): the running op, 0 none, 1 INIT, 2 REFRESH, 3 CONVERT. -/
inductive OpKind where
  | none | init | refresh | convert
  deriving DecidableEq, Repr

/-- The fields of STATUS (R27). Reserved bits read 0 and are not stored. -/
structure Status where
  busy : Bool
  ready : Bool
  done : Bool
  op : OpKind
  geomErr : Bool
  busErr : Bool
  tblErr : Bool
  cmdErr : Bool
  deriving DecidableEq, Repr

/-- PHASE (R28); the values 7..15 are never produced. -/
inductive Phase where
  | uninit | reset | configuring | sleepout | displayon | active | fault
  deriving DecidableEq, Repr

/-- The error kinds of R245. -/
inductive ErrKind where
  | geom | bus | tbl | cmd
  deriving DecidableEq, Repr

/-- ERRINFO (R29): CODE (`none`: no error since reset), OPC and LOC. -/
structure ErrInfo where
  code : Option ErrKind
  opc : Byte
  loc : Half
  deriving DecidableEq, Repr

/-- WIN, the cached address window (R30). -/
structure Window where
  cs0 : Byte
  ce0 : Byte
  rs0 : Byte
  re0 : Byte
  deriving DecidableEq, Repr

/-- The panel-interface events (R190); a level is true for 1. -/
inductive Event where
  | cs (v : Bool)
  | dc (v : Bool)
  | rst (v : Bool)
  | tx (b : Byte)
  | wait (ms : Half)
  | fail
  deriving DecidableEq, Repr

/-- The panel lines: the output latches CS, DC and RST with their last driven level, and the level of the
TE input, which exists only when HAS_TE and which no rule reads (R39). -/
structure Lines where
  cs : Bool
  dc : Bool
  rst : Bool
  te : Bool
  deriving DecidableEq, Repr

/-- The converter's working registers (R24 (1)). -/
structure Conv where
  t : Nat
  r : Nat
  h : Bool
  b1 : Byte
  b2 : Byte
  deriving DecidableEq, Repr

/-- Who handed the framer its transaction: a CMD entry, or REFRESH as its transaction 0, 1 or 2 (R242). -/
inductive Caller where
  | entry
  | refresh (k : Fin 3)
  deriving DecidableEq, Repr

/-- The transaction in the Transport framer (R191): opcode, payload, and how many payload bytes it has
sent: the payload byte counter of the sequencer or the refresh payload counter of R24 (2), by caller. -/
structure Framer where
  op : Byte
  pl : List Byte
  sent : Nat
  caller : Caller
  deriving DecidableEq, Repr

/-- The next line of `txn` (R191) after its first, `emit(CS(0))`. -/
inductive TxnStage where
  /-- `emit(DC(0))` -/
  | command
  /-- `emit(TX(op))` -/
  | opcode
  /-- the opcode phase's `draw_bus()` -/
  | opDraw
  /-- `emit(CS(1))` -/
  | opDeselect
  /-- `emit(DC(1))`, then the length check -/
  | dataMode
  /-- `emit(CS(0))` of the data phase -/
  | dataSelect
  /-- `emit(TX(b))` for the next payload byte -/
  | payload
  /-- the payload phase's `draw_bus()` -/
  | plDraw
  /-- `emit(CS(1))` after the payload -/
  | plDeselect
  /-- `emit(CS(1))` after a FAIL -/
  | failDeselect
  deriving DecidableEq, Repr

/-- Where the engine stands in its pseudocode, between two micro-steps (R221). -/
inductive Control where
  /-- no op runs -/
  | idle
  /-- INIT: the top of the loop of `seq_run` (R161), about to decode at TP -/
  | fetch
  /-- INIT: a DELAY entry counts its ticks (R163) -/
  | delay
  /-- INIT: an entry is done, `TP <- TP + len` is next (R161) -/
  | advance (len : Nat)
  /-- the framer holds a transaction that has not begun -/
  | present
  /-- inside a transaction (R191) -/
  | txn (st : TxnStage)
  /-- the transaction has returned `ok` to its caller (R162, R214) -/
  | ret (ok : Bool)
  /-- REFRESH or CONVERT: the converter is writing P (R136) -/
  | convert
  /-- CONVERT: its last line is next (R217) -/
  | finish
  deriving DecidableEq, Repr

/-- An answer of `draw_bus()` (R193). -/
inductive Draw where
  | ok | fail
  deriving DecidableEq, Repr

/-- A host access (R62, R105); addresses are host-space byte addresses. -/
inductive HostAccess where
  /-- `rd ADDR` -/
  | rd (a : Nat)
  /-- `wr ADDR, V` -/
  | wr (a : Nat) (v : Word)
  /-- `rdb ADDR` -/
  | rdb (a : Nat)
  /-- `wrb ADDR, V` -/
  | wrb (a : Nat) (v : Byte)
  /-- `poll ADDR, bit B, V` -/
  | poll (a : Nat) (bit : Nat) (v : Bool)
  deriving DecidableEq, Repr

/-- A host access still to come, with the number of block micro-steps that fall before it (R221). -/
structure HostReq where
  after : Nat
  access : HostAccess
  deriving DecidableEq, Repr

/-- What a host read returned. -/
inductive Answer where
  | word (v : Word)
  | byte (v : Byte)
  deriving DecidableEq, Repr

/-- A buffer's bytes written since block reset: (index, byte) pairs with strictly rising indices. An
index that is not listed has not been written and reads as no written value: the byte drawn at reset
stands there (R40, log entry 6). -/
abbrev Memory := List Host.Cell

/-- The machine's state. -/
structure State where
  /-- The configuration: constant (R21). -/
  cfg : Cfg
  /-- The command-table ROM T: constant (R37). -/
  rom : List Byte
  /-- STATUS (R27). -/
  status : Status
  /-- PHASE (R28). -/
  phase : Phase
  /-- ERRINFO (R29). -/
  errinfo : ErrInfo
  /-- WIN (R30). -/
  win : Window
  /-- TP (R22, R33). -/
  tp : Half
  /-- The model's: TP has been advanced to 65536, past its 16 bits (R22, log entry 9). -/
  tpPast : Bool
  /-- The converter's working registers (R24). -/
  conv : Conv
  /-- The Transport framer's transaction and payload counter (R24, R191). -/
  framer : Framer
  /-- The delay counter, in ticks still to come (R24, R257, log entry 10). -/
  delayCtr : Nat
  /-- The engine's place (R221). -/
  ctl : Control
  /-- The panel lines (R39). -/
  lines : Lines
  /-- The panel-interface trace, oldest event first (R190). -/
  trace : List Event
  /-- The bitmap buffer B (R35). -/
  bitmap : Memory
  /-- The packed buffer P (R36). -/
  packed : Memory
  /-- The model's: which draw of the buffers' reset contents this is (R40, R271). -/
  epoch : Nat
  /-- The model's: how many free values have been drawn for TP (log entry 9) and for delays (log entry 10). -/
  fresh : Nat
  /-- Input: the host's accesses still to come, in issue order (R76). -/
  hostQ : List HostReq
  /-- Input: the assertions of block reset still to come, each with the number of moments before it: block
  micro-steps and host accesses (R271, log entry 3). -/
  resets : List Nat
  /-- Input: the environment's answers to `draw_bus()` not yet taken (R193). -/
  draws : List Draw
  /-- Record: what the host's reads returned, oldest first. -/
  answers : List Answer
  deriving DecidableEq, Repr

/-- Why the machine stops. The spec has no error that stops the block (R240). -/
inductive Fault where
  /-- A host access names a byte address at or above 0x40000, which does not exist in the 18-bit host
  space (R60, R61). Raised by the host port. Safe: the model stops where the spec gives nothing. -/
  | noSuchHostAddress
  deriving DecidableEq, Repr

/-- Why the model gives no next state. -/
inductive Refusal where
  /-- An instruction without a meaning yet; raised by exec's arm alone. Safe. No arm uses it. -/
  | notModelled (mnemonic : String)
  /-- A host access of the wrong width or alignment: R62 says that a model refuses it and takes no step.
  Raised by the host port. Safe. -/
  | hostAccessWidthOrAlignment
  deriving DecidableEq, Repr

/-- STATUS after block reset (R270). -/
def Status.reset : Status :=
  ⟨false, false, false, .none, false, false, false, false⟩

/-- The machine right after block reset, built from a configuration and holding a table (R270, R271):
`epoch` numbers the draw of the buffers' contents. The working registers and the framer, which R24 leaves
unspecified, are zero (DESIGN CHOICE, log entry 7); the inputs are empty. -/
def State.resetWith (c : Cfg) (rom : List Byte) (epoch : Nat) : State where
  cfg := c
  rom := rom
  status := Status.reset
  phase := .uninit
  errinfo := ⟨none, 0, 0⟩
  win := ⟨0, 0, 0, 0⟩
  tp := 0
  tpPast := false
  conv := ⟨0, 0, false, 0, 0⟩
  framer := ⟨0, [], 0, .entry⟩
  delayCtr := 0
  ctl := .idle
  lines := ⟨true, true, true, false⟩
  trace := []
  bitmap := []
  packed := []
  epoch := epoch
  fresh := 0
  hostQ := []
  resets := []
  draws := []
  answers := []

/-- The block of the SMALL variant right after reset (R270; which variant: log entry 1). -/
def State.reset : State := State.resetWith Config.small (tableRom Config.small) 0

end Sys2Proof.Machine
end

