-- ==== Sys2Proof/Machine/Flags.lean ====
section
/-! DEFINITION. The status flags of 10_state.md rule R27: the word the host reads, and every way a flag is
set or cleared. The block has no condition codes (R34). -/

namespace Sys2Proof.Machine

/-- STATUS.OP as read (R27). -/
def OpKind.code : OpKind → BitVec 2
  | .none => 0
  | .init => 1
  | .refresh => 2
  | .convert => 3

/-- STATUS as the host reads it (R27): reserved bits are 0. -/
def Status.word (f : Status) : Word :=
  0#20 ++ BitVec.ofBool f.cmdErr ++ BitVec.ofBool f.tblErr ++ BitVec.ofBool f.busErr
    ++ BitVec.ofBool f.geomErr ++ 0#2 ++ f.op.code ++ 0#1 ++ BitVec.ofBool f.done
    ++ BitVec.ofBool f.ready ++ BitVec.ofBool f.busy

/-- A host write of `v` to STATUS (R222): a 1 clears its W1C bit, every other bit is ignored. -/
def Status.w1c (f : Status) (v : Word) : Status :=
  { f with
    done := f.done && !v.getLsbD 2
    geomErr := f.geomErr && !v.getLsbD 8
    busErr := f.busErr && !v.getLsbD 9
    tblErr := f.tblErr && !v.getLsbD 10
    cmdErr := f.cmdErr && !v.getLsbD 11 }

/-- The flag of an error is set; flags are sticky (R27, R250). -/
def Status.setErr (f : Status) : ErrKind → Status
  | .geom => { f with geomErr := true }
  | .bus => { f with busErr := true }
  | .tbl => { f with tblErr := true }
  | .cmd => { f with cmdErr := true }

/-- Acceptance of an op (R27, R211, R214, R217): DONE cleared, BUSY set, OP set. -/
def Status.accepted (f : Status) (k : OpKind) : Status :=
  { f with done := false, busy := true, op := k }

/-- The successful end of an op (R27): DONE set, BUSY and OP cleared. -/
def Status.completed (f : Status) : Status :=
  { f with done := true, busy := false, op := .none }

/-- The aborted end of an op (R251): BUSY and OP cleared, READY cleared when the op was INIT. -/
def Status.aborted (f : Status) : Status :=
  { f with busy := false, op := .none, ready := if f.op = .init then false else f.ready }

end Sys2Proof.Machine
end

