-- ==== Sys2Proof/Machine/Operands.lean ====
section
/-! DEFINITION. Operand forms: the register words the host reads (10_state.md rules R28 to R33), the host
address map (20_memory.md rule R61), the length of an entry (30_encoding.md rule R92), the phase a command
leads to (41_sequencer.md rule R167) and REFRESH's transactions (43_host_ops.md rule R214). -/

namespace Sys2Proof.Machine

/-- PHASE as read (R28). -/
def Phase.code : Phase → BitVec 4
  | .uninit => 0
  | .reset => 1
  | .configuring => 2
  | .sleepout => 3
  | .displayon => 4
  | .active => 5
  | .fault => 6

/-- The PHASE register word (R28). -/
def Phase.word (p : Phase) : Word := 0#28 ++ p.code

/-- The cause code of an error (R245). -/
def ErrKind.code : ErrKind → BitVec 4
  | .geom => 1
  | .bus => 2
  | .tbl => 3
  | .cmd => 4

/-- ERRINFO.CODE (R29): 0 when no error has occurred since reset. -/
def errCode : Option ErrKind → BitVec 4
  | none => 0
  | some k => k.code

/-- The ERRINFO register word (R29). -/
def ErrInfo.word (e : ErrInfo) : Word := errCode e.code ++ 0#4 ++ e.opc ++ e.loc

/-- The WIN register word (R30). -/
def Window.word (w : Window) : Word := w.re0 ++ w.rs0 ++ w.ce0 ++ w.cs0

/-- The GEOM register word (R32). -/
def geomWord (c : Cfg) : Word := BitVec.ofNat 16 c.h ++ BitVec.ofNat 16 c.w

/-- The TP register word (R33). -/
def tpWord (tp : Half) : Word := 0#16 ++ tp

/-- cfg.WIN, what INIT loads into WIN (R30, R211). -/
def cfgWindow (c : Cfg) : Window :=
  ⟨byteOf c.winCs0, byteOf c.winCe0, byteOf c.winRs0, byteOf c.winRe0⟩

/-- A region of the host address map (R61), with the offset or index in it. -/
inductive Region where
  | register (off : Nat)
  | bitmap (i : Nat)
  | packed (k : Nat)
  | reserved
  deriving DecidableEq, Repr

/-- The region of a host-space byte address; none outside the 18-bit space (R60, R61). -/
def regionOf (a : Nat) : Option Region :=
  if a < 0x20 then some (.register a)
  else if a < 0x10000 then some .reserved
  else if a < 0x20000 then some (.bitmap (a - 0x10000))
  else if a < 0x30000 then some (.packed (a - 0x20000))
  else if a < 0x40000 then some .reserved
  else none

/-- The bytes a table entry takes in T (R92); the rows of other formats take none. A reserved header has the
length 1 that the model gives it (DESIGN CHOICE, log entry 29). -/
def entryLen : Instr → Nat
  | .cmd _ pl => 2 + pl.length
  | .delay _ => 3
  | .rstLow => 1
  | .rstHigh => 1
  | .endEntry => 1
  | .reservedEntryLow _ => 1
  | .reservedEntryHigh _ => 1
  | .nop _ => 0
  | .init _ => 0
  | .refresh _ => 0
  | .convert _ => 0
  | .reservedCtrl _ _ => 0
  | .sleepOut _ => 0
  | .displayOn _ => 0
  | .colAddrSet _ => 0
  | .rowAddrSet _ => 0
  | .memWrite _ => 0
  | .memAccessCtrl _ => 0
  | .pixelFormat _ => 0
  | .opaqueOp _ _ => 0

/-- `next_phase(p, op)` (R167). -/
def nextPhase (p : Phase) (op : Byte) : Phase :=
  if op = 0x11 then .sleepout
  else if p = .reset then .configuring
  else if p = .sleepout then .displayon
  else p

/-- The opcode of REFRESH's transaction k (R214). -/
def refreshOp (k : Fin 3) : Byte :=
  match k with
  | 0 => 0x2A
  | 1 => 0x2B
  | 2 => 0x2C

/-- The header byte an undecodable entry is recorded with (R92, R243). -/
def decodeErrorOpc : DecodeError → Byte
  | .ranOff => 0
  | .truncated h => h

end Sys2Proof.Machine
end

