-- ==== Sys2Proof/Machine/Ops.lean ====
section
/-! DEFINITION. The named operations over the buffers, the trace and the registers, and taking an error:
`raiseError` (60_exceptions.md rules R250, R251). There is no return from an error (R253): the host reads
ERRINFO, clears the flag and writes a new command. -/

namespace Sys2Proof.Machine

/-! Buffers -/

/-- The byte written at index `a` since block reset, if any. -/
def Memory.read : Memory → Nat → Option Byte
  | [], _ => none
  | (k, v) :: m, a => if k = a then some v else Memory.read m a

/-- Write byte `v` at index `a`, keeping the indices strictly rising. -/
def Memory.write : Memory → Nat → Byte → Memory
  | [], a, v => [(a, v)]
  | (k, x) :: m, a, v =>
    if a < k then (a, v) :: (k, x) :: m
    else if a = k then (a, v) :: m
    else (k, x) :: Memory.write m a v

/-- The indices rise strictly from `lo` on. -/
def Memory.risingFrom : Nat → Memory → Bool
  | _, [] => true
  | lo, (k, _) :: m => lo ≤ k && Memory.risingFrom (k + 1) m

/-- The canonical form: indices strictly rising. An unlisted index reads as no written value, so no entry
equals what an unlisted index reads as. -/
def Memory.wf (m : Memory) : Bool := Memory.risingFrom 0 m

/-- `B[i]` (R12, R35): the byte written there, or the one drawn at reset (R40). -/
def State.bitmapByte (s : State) (i : Nat) : Byte :=
  (s.bitmap.read i).getD (Config.drawnBitmap s.epoch i)

/-- `P[k]` (R12, R36). -/
def State.packedByte (s : State) (k : Nat) : Byte :=
  (s.packed.read k).getD (Config.drawnPacked s.epoch k)

/-- `[P[0], …, P[N-1]]`, the memory-write payload (R214). -/
def State.packedBytes (s : State) : List Byte := (List.range s.cfg.n).map s.packedByte

/-! The panel interface -/

/-- A line holds its last driven level (R39). -/
def Lines.drive (l : Lines) (e : Event) : Lines where
  cs := match e with
    | .cs v => v
    | _ => l.cs
  dc := match e with
    | .dc v => v
    | _ => l.dc
  rst := match e with
    | .rst v => v
    | _ => l.rst
  te := l.te

/-- `emit(e)` (R12, R190): the event joins the trace and drives its line. -/
def emit (e : Event) (s : State) : State :=
  { s with trace := s.trace ++ [e], lines := s.lines.drive e }

/-! Micro-steps and the inputs -/

/-- The first pending host access is one micro-step nearer. -/
def tickHost : List HostReq → List HostReq
  | [] => []
  | r :: rs => { r with after := r.after - 1 } :: rs

/-- The first pending block reset is one moment nearer: a micro-step of the block or a host access. -/
def tickResets : List Nat → List Nat
  | [] => []
  | n :: ns => (n - 1) :: ns

/-- One micro-step of the block has been taken (R221): the inputs scheduled after it come nearer. -/
def tick (s : State) : State :=
  { s with hostQ := tickHost s.hostQ, resets := tickResets s.resets }

/-- The host's next access is taken from its queue, which goes on with `rest`: a moment that brings a block
reset nearer, so that a reset can fall between any two accesses, also while no op runs (R271). -/
def takeAccess (rest : List HostReq) (s : State) : State :=
  { s with hostQ := rest, resets := tickResets s.resets }

/-! Errors -/

/-- The record of an error (R250): its sticky flag, and all of ERRINFO. -/
def recordError (k : ErrKind) (loc : Half) (opc : Byte) (s : State) : State :=
  { s with status := s.status.setErr k, errinfo := ⟨some k, opc, loc⟩ }

/-- `abort()` (R251): the running op ends; READY and PHASE change only when it is INIT. -/
def abortOp (s : State) : State :=
  { s with
    status := s.status.aborted
    phase := if s.status.op = .init then .fault else s.phase
    ctl := .idle }

/-- `raise E(loc, opc)` (R250): CMD_ERR leaves a running op alone, every other error aborts. DESIGN CHOICE (log
entry 28): all lines of raise and of abort (R251) are one micro-step, together with the line that raises. -/
def raiseError (k : ErrKind) (loc : Half) (opc : Byte) (s : State) : State :=
  if k = .cmd then recordError k loc opc s else abortOp (recordError k loc opc s)

/-- `cmd_error(v)` (R220): a refused CTRL write of value `v`. -/
def cmdError (v : Word) (s : State) : State := raiseError .cmd 0 (v.extractLsb' 0 8) s

/-! The end of an op, and the table pointer -/

/-- `DONE <- 1 ; BUSY <- 0 ; OP <- 0` (R214, R217). -/
def finishOp (s : State) : State := { s with status := s.status.completed, ctl := .idle }

/-- `TP <- TP + len` (R161). TP does not wrap (R22): past 65535 its 16 bits hold a free value and the
sequencer is past the table (log entry 9). -/
def advanceTp (len : Nat) (s : State) : State :=
  if s.tp.toNat + len < 65536 then
    { s with tp := BitVec.ofNat 16 (s.tp.toNat + len), ctl := .fetch }
  else
    { s with tp := Config.tpBeyond s.fresh, tpPast := true, fresh := s.fresh + 1, ctl := .fetch }

/-- `decode(TP)` (R92, R161) on the table T. -/
def fetchEntry (s : State) : Except DecodeError (Instr × Nat) :=
  if s.tpPast then .error .ranOff else decodeEntry (s.rom.drop s.tp.toNat)

/-- TBL_ERR at the current entry (R161, R243), one micro-step. -/
def tableError (opc : Byte) (s : State) : State := tick (raiseError .tbl s.tp opc s)

/-- A transaction is handed to the Transport framer (R162, R214). -/
def handOver (op : Byte) (pl : List Byte) (c : Caller) (s : State) : State :=
  { s with framer := ⟨op, pl, 0, c⟩, ctl := .present }

/-- The payload of REFRESH's transaction k (R214): the column window, the row window, all of P. -/
def State.refreshPayload (s : State) (k : Fin 3) : List Byte :=
  match k with
  | 0 => [s.win.cs0, s.win.ce0]
  | 1 => [s.win.rs0, s.win.re0]
  | 2 => s.packedBytes

/-- REFRESH hands its transaction k to the framer (R214). -/
def handRefresh (k : Fin 3) (s : State) : State :=
  handOver (refreshOp k) (s.refreshPayload k) (.refresh k) s

end Sys2Proof.Machine
end

