-- ==== Sys2Proof/Machine/Converter.lean ====
section
/-! DEFINITION. The Pixel Converter (40_converter.md): the interleave, the closed form of `conv`, and the
engine's micro-steps, one P byte each. -/

namespace Sys2Proof.Machine

/-- `il(a, c)` (R131): bits 7 down to 0 are a[0], c[0], a[1], c[1], a[2], c[2], a[3], c[3]. -/
def il (a c : BitVec 4) : Byte :=
  BitVec.ofBool (a.getLsbD 0) ++ BitVec.ofBool (c.getLsbD 0)
    ++ BitVec.ofBool (a.getLsbD 1) ++ BitVec.ofBool (c.getLsbD 1)
    ++ BitVec.ofBool (a.getLsbD 2) ++ BitVec.ofBool (c.getLsbD 2)
    ++ BitVec.ofBool (a.getLsbD 3) ++ BitVec.ofBool (c.getLsbD 3)

/-- The low (`h` false) or high output byte of a band's byte pair (R132). -/
def bandByte (h : Bool) (b1 b2 : Byte) : Byte :=
  if h then il (b1.extractLsb' 4 4) (b2.extractLsb' 4 4)
  else il (b1.extractLsb' 0 4) (b2.extractLsb' 0 4)

/-- The index of the left column's byte of column pair t in band r (R134); the right one is next to it. -/
def srcIndex (c : Cfg) (t r : Nat) : Nat := r * c.w + 2 * t

/-- The index in P of the byte of pair t, band r, half h (R135). -/
def dstIndex (c : Cfg) (t r : Nat) (h : Bool) : Nat := t * (c.h / 4) + 2 * r + h.toNat

/-- `conv` (R130, R135, R137): byte k of P as a function of the bitmap's bytes. -/
def convByte (c : Cfg) (b : Nat → Byte) (k : Nat) : Byte :=
  let t := k / (c.h / 4)
  let m := k % (c.h / 4)
  bandByte (m % 2 = 1) (b (srcIndex c t (m / 2))) (b (srcIndex c t (m / 2) + 1))

/-- `pix(x, y)` (R35, R137): the pixel in column x and row y of a bitmap of width W. -/
def pix (c : Cfg) (b : Nat → Byte) (x y : Nat) : Bool := (b (y / 8 * c.w + x)).getLsbD (y % 8)

/-- The pixel that bit `j` of byte `k` of P carries (R137), as (column, row). -/
def pixelOf (c : Cfg) (k j : Nat) : Nat × Nat :=
  let t := k / (c.h / 4)
  let m := k % (c.h / 4)
  (2 * t + (1 - j % 2), 8 * (m / 2) + 4 * (m % 2) + (7 - j) / 2)

/-- The counters after byte (t, r, h) (R136: pairs outermost, then bands, then low before high). -/
def Conv.next (c : Cfg) (v : Conv) : Conv :=
  if v.h then
    if v.r + 1 < c.nb then { v with h := false, r := v.r + 1 }
    else { v with h := false, r := 0, t := v.t + 1 }
  else { v with h := true }

/-- The source latches: b1 and b2 are read with the low byte and kept for the high one (R134, R136). -/
def State.latch (s : State) : Conv :=
  if s.conv.h then s.conv
  else
    { s.conv with
      b1 := s.bitmapByte (srcIndex s.cfg s.conv.t s.conv.r)
      b2 := s.bitmapByte (srcIndex s.cfg s.conv.t s.conv.r + 1) }

/-- `P[k] <- v` for the counters' byte (R135), and the counters move on. -/
def convertByte (s : State) : State :=
  { s with
    packed := s.packed.write (dstIndex s.cfg s.conv.t s.conv.r s.conv.h)
      (bandByte s.latch.h s.latch.b1 s.latch.b2)
    conv := Conv.next s.cfg s.latch }

/-- The counters stand at a byte that is still to be written. -/
def Conv.inRange (c : Cfg) (v : Conv) : Bool := v.t < c.ncp && v.r < c.nb

/-- After the last byte of P: REFRESH hands over its first transaction (R214), CONVERT finishes (R217). -/
def convertDone (s : State) : State :=
  if s.status.op = .refresh then handRefresh 0 s else { s with ctl := .finish }

/-- One micro-step of the converter (R136, R221). -/
def convertStep (s : State) : State :=
  if s.conv.inRange s.cfg then
    if (convertByte s).conv.inRange s.cfg then convertByte s else convertDone (convertByte s)
  else convertDone s

/-- The converter starts at pair 0, band 0, low byte (R136). -/
def startConvert (s : State) : State :=
  { s with conv := { s.conv with t := 0, r := 0, h := false }, ctl := .convert }

end Sys2Proof.Machine
end

