-- ==== Sys2Proof/Machine/Transport.lean ====
section
/-! DEFINITION. The Transport framer (42_transport.md): one transaction as micro-steps, the pseudocode
`txn` of R191 as a function, the wire view of a trace (R196), and the bits of the SPI line (R71). -/

namespace Sys2Proof.Machine

/-- `draw_bus()` (R193), answered by the environment: OK goes on to `next`, FAIL emits FAIL and goes to the
failure branch (R191). With no answer the block waits (R246, I6). -/
def drawBus (next : TxnStage) (s : State) : State :=
  match s.draws with
  | [] => s
  | .ok :: ds => { s with draws := ds, ctl := .txn next }
  | .fail :: ds => { emit .fail s with draws := ds, ctl := .txn .failDeselect }

/-- `emit(TX(b))` for the next payload byte (R191), or on to the draw after the last. -/
def sendByte (s : State) : State :=
  match s.framer.pl[s.framer.sent]? with
  | none => { s with ctl := .txn .plDraw }
  | some b =>
    { emit (.tx b) s with
      framer := { s.framer with sent := s.framer.sent + 1 }
      ctl := .txn (if s.framer.sent + 1 < s.framer.pl.length then .payload else .plDraw) }

/-- One micro-step inside a transaction (R191, R221). -/
def txnStep (st : TxnStage) (s : State) : State :=
  match st with
  | .command => { emit (.dc false) s with ctl := .txn .opcode }
  | .opcode => { emit (.tx s.framer.op) s with ctl := .txn .opDraw }
  | .opDraw => drawBus .opDeselect s
  | .opDeselect => { emit (.cs true) s with ctl := .txn .dataMode }
  | .dataMode =>
    { emit (.dc true) s with
      ctl := if s.framer.pl.length = 0 then .ret true else .txn .dataSelect }
  | .dataSelect => { emit (.cs false) s with ctl := .txn .payload }
  | .payload => sendByte s
  | .plDraw => drawBus .plDeselect s
  | .plDeselect => { emit (.cs true) s with ctl := .ret true }
  | .failDeselect => { emit (.cs true) s with ctl := .ret false }

/-- A transaction begins (R191): its first line, `emit(CS(0))`, with the framer holding it. -/
def beginTxn (op : Byte) (pl : List Byte) (s : State) : State :=
  tick { emit (.cs false) s with framer := ⟨op, pl, 0, s.framer.caller⟩, ctl := .txn .command }

/-- `wait(ms)` (R12, R163): the event, and the delay counter is loaded with TICKS_PER_MS × ms ticks (R24) and a
free number more, for R257 counts "at least" so many and R285 gives no upper bound (log entry 10). -/
def startDelay (ms : Half) (s : State) : State :=
  tick { emit (.wait ms) s with
    delayCtr := s.cfg.ticksPerMs * ms.toNat + Config.delayExtra s.fresh
    fresh := s.fresh + 1
    ctl := .delay }

/-! The transaction as a whole, as R191 writes it. -/

/-- What `txn(op, pl)` emits, what it returns, and how many draws it takes, for given answers to
`draw_bus()`: the pseudocode of R191. -/
def txnSpec (op : Byte) (pl : List Byte) (draws : List Draw) : List Event × Bool × Nat :=
  let opPhase := [Event.cs false, .dc false, .tx op]
  match draws with
  | .ok :: rest =>
    if pl.length = 0 then (opPhase ++ [.cs true, .dc true], true, 1)
    else
      match rest with
      | .ok :: _ =>
        (opPhase ++ [.cs true, .dc true, .cs false] ++ pl.map .tx ++ [.cs true], true, 2)
      | _ =>
        (opPhase ++ [.cs true, .dc true, .cs false] ++ pl.map .tx ++ [.fail, .cs true], false, 2)
  | _ => (opPhase ++ [.fail, .cs true], false, 1)

/-- The draws a transaction can take: one per write phase (R193). -/
def txnPhases (pl : List Byte) : Nat := if pl.length = 0 then 1 else 2

/-! Views of the trace -/

/-- The line levels block reset leaves, from which a trace starts (R270). -/
def resetLines : Lines := ⟨true, true, true, false⟩

/-- The levels of CS, DC and RST after a trace (R39). -/
def levelsAfter (l : Lines) (tr : List Event) : Lines := tr.foldl Lines.drive l

/-- An event that drives a line to the level it already has (R196). -/
def noChange (l : Lines) : Event → Bool
  | .cs v => v == l.cs
  | .dc v => v == l.dc
  | .rst v => v == l.rst
  | .tx _ => false
  | .wait _ => false
  | .fail => false

/-- `wire(trace)` (R196), from given levels: the drives that change nothing are dropped. -/
def wireFrom (l : Lines) : List Event → List Event
  | [] => []
  | e :: tr =>
    if noChange l e then wireFrom (l.drive e) tr else e :: wireFrom (l.drive e) tr

/-- `wire(trace)` (R196). -/
def wire (tr : List Event) : List Event := wireFrom resetLines tr

/-- The bits of a byte on the SPI data line, bit 7 first (R71, R197). -/
def spiBits (b : Byte) : List Bool :=
  [b.getLsbD 7, b.getLsbD 6, b.getLsbD 5, b.getLsbD 4,
    b.getLsbD 3, b.getLsbD 2, b.getLsbD 1, b.getLsbD 0]

/-- The bits an event shifts out on the SPI data line: TX alone shifts any (R190, R197). -/
def eventBits : Event → List Bool
  | .tx b => spiBits b
  | .cs _ => []
  | .dc _ => []
  | .rst _ => []
  | .wait _ => []
  | .fail => []

/-- The SPI data line over a trace (R197). -/
def mosi (tr : List Event) : List Bool := tr.flatMap eventBits

/-- The milliseconds an event promises at least (R285). -/
def eventWait : Event → Nat
  | .wait ms => ms.toNat
  | .cs _ => 0
  | .dc _ => 0
  | .rst _ => 0
  | .tx _ => 0
  | .fail => 0

/-- A trace lasts at least this many milliseconds (R285, R291). -/
def minDuration (tr : List Event) : Nat := (tr.map eventWait).sum

end Sys2Proof.Machine
end

