-- ==== Sys2Proof/Machine/Engine.lean ====
section
/-! DEFINITION. The engine: one micro-step of the block (43_host_ops.md rule R221), when an input is due,
and the run of an instruction's micro-steps up to its end or to the next input. -/

namespace Sys2Proof.Machine

/-- The transaction has returned to its caller. A CMD entry advances TP (R161, R162); REFRESH goes on with
its next transaction or ends (R214); a failed write phase raises BUS_ERR with the entry's address or the
transaction's number (R242), the raise and its abort in this same micro-step (DESIGN CHOICE, log entry 28). -/
def returnStep (ok : Bool) (s : State) : State :=
  match ok, s.framer.caller with
  | true, .entry => advanceTp (2 + s.framer.pl.length) s
  | true, .refresh 0 => handRefresh 1 s
  | true, .refresh 1 => handRefresh 2 s
  | true, .refresh 2 => finishOp s
  | false, .entry => raiseError .bus s.tp s.framer.op s
  | false, .refresh k => raiseError .bus (BitVec.ofNat 16 k.val) s.framer.op s

/-- A tick of the delay counter, and `TP <- TP + 3` when it has run out (R163, R257). -/
def delayStep (s : State) : State :=
  if s.delayCtr = 0 then advanceTp 3 s else { s with delayCtr := s.delayCtr - 1 }

/-- The line of the pseudocode that the engine stands at. The places idle, fetch and present are left by a
command, an entry or a transaction, not by a line. -/
def line (s : State) : State :=
  match s.ctl with
  | .idle => s
  | .fetch => s
  | .present => s
  | .delay => delayStep s
  | .advance len => advanceTp len s
  | .txn st => txnStep st s
  | .ret ok => returnStep ok s
  | .convert => convertStep s
  | .finish => finishOp s

/-- One micro-step of the block (R221). -/
def micro (s : State) : State := tick (line s)

/-- The block waits for an answer to `draw_bus()` that the environment has not given (R246, I6). -/
def waiting (s : State) : Bool :=
  match s.ctl with
  | .txn .opDraw => s.draws.isEmpty
  | .txn .plDraw => s.draws.isEmpty
  | _ => false

/-- The access goes to a buffer window with the window's width (R65, R66). -/
def isBufferAccess : HostAccess → Bool
  | .rdb a =>
    match regionOf a with
    | some (.bitmap _) => true
    | some (.packed _) => true
    | _ => false
  | .wrb a _ =>
    match regionOf a with
    | some (.bitmap _) => true
    | some (.packed _) => true
    | _ => false
  | _ => false

/-- A buffer access is held while an op runs (R70). -/
def held (s : State) (r : HostReq) : Bool := s.status.busy && isBufferAccess r.access

/-- Block reset is asserted now (R271). -/
def resetDue (s : State) : Bool :=
  match s.resets with
  | [] => false
  | n :: _ => n == 0

/-- The host's next access takes effect now: it is not held, and either its micro-steps have passed or the
block has none to take. -/
def hostDue (s : State) : Bool :=
  match s.hostQ with
  | [] => false
  | r :: _ => !held s r && (r.after == 0 || s.ctl == .idle || waiting s)

/-- The engine stands between instructions, or in a delay: the places a run of micro-steps stops at. -/
def atBoundary (s : State) : Bool :=
  match s.ctl with
  | .idle => true
  | .fetch => true
  | .present => true
  | .delay => true
  | _ => false

/-- The block may go on with the instruction: it has not ended, no input is due, no answer is missing. -/
def mayRun (s : State) : Bool := !(atBoundary s || resetDue s || hostDue s || waiting s)

/-- Micro-steps while the block may go on, at most `fuel`. -/
def runLines : Nat → State → State
  | 0, s => s
  | fuel + 1, s => if mayRun s then runLines fuel (micro s) else s

/-- More micro-steps than are left of any instruction: a conversion takes N, a transaction with n payload
bytes 10 + n. Where it does not suffice the next step goes on. -/
def lineBound (s : State) : Nat := s.cfg.n + s.framer.pl.length + 16

/-- The instruction's remaining micro-steps, up to its end or to the next input. -/
def runOn (s : State) : State := runLines (lineBound s) s

end Sys2Proof.Machine
end

