-- ==== Sys2Proof/Machine/Ctrl.lean ====
section
/-! DEFINITION. The meanings of the host commands (43_host_ops.md rules R210 to R220). A command takes
effect with its CTRL write; the op it starts is run on (R221, R223). -/

namespace Sys2Proof.Machine

/-- The acceptance procedure of R220 for a command that is no NOP: refused while an op runs, or when it is
not `allowed`; otherwise started. -/
def acceptCommand (v : Word) (allowed : Bool) (start : State → State) (s : State) : State :=
  if s.status.busy || !allowed then cmdError v s else start s

/-- INIT from acceptance to the first entry (R211): DONE cleared; GEOM_ERR with READY cleared and PHASE
FAULT when the geometry fails; otherwise BUSY, OP, READY, WIN, TP and PHASE. -/
def startInit (s : State) : State :=
  if s.cfg.geomOk then
    { s with
      status := { s.status.accepted .init with ready := false }
      win := cfgWindow s.cfg
      tp := 0
      tpPast := false
      phase := .reset
      ctl := .fetch }
  else
    raiseError .geom 0 0
      { s with status := { s.status with done := false, ready := false }, phase := .fault }

/-- REFRESH from acceptance on (R214). -/
def startRefresh (s : State) : State :=
  runOn (startConvert { s with status := s.status.accepted .refresh })

/-- CONVERT from acceptance on (R217). -/
def startConvertOp (s : State) : State :=
  if s.cfg.geomOk then runOn (startConvert { s with status := s.status.accepted .convert })
  else raiseError .geom 0 0 { s with status := { s.status with done := false } }

/-- NOP (R210): nothing, also while an op runs. -/
def execNop (_ign : BitVec 29) (s : State) : Host.Outcome State Fault Refusal :=
  .next s

/-- INIT (R211). -/
def execInit (ign : BitVec 29) (s : State) : Host.Outcome State Fault Refusal :=
  .next (acceptCommand (ctrlWord (.init ign)) true startInit s)

/-- REFRESH (R214), refused while READY = 0 (R220). -/
def execRefresh (ign : BitVec 29) (s : State) : Host.Outcome State Fault Refusal :=
  .next (acceptCommand (ctrlWord (.refresh ign)) s.status.ready startRefresh s)

/-- CONVERT (R217). -/
def execConvert (ign : BitVec 29) (s : State) : Host.Outcome State Fault Refusal :=
  .next (acceptCommand (ctrlWord (.convert ign)) true startConvertOp s)

/-- A reserved code raises CMD_ERR, also while an op runs, and changes nothing else (R219, R220). -/
def execReservedCtrl (ign : BitVec 29) (low : BitVec 2) (s : State) :
    Host.Outcome State Fault Refusal :=
  .next (acceptCommand (ctrlWord (.reservedCtrl ign low)) false (fun t => t) s)

end Sys2Proof.Machine
end

