-- ==== Sys2Proof/Machine/Table.lean ====
section
/-! DEFINITION. The meanings of the table entries (41_sequencer.md rules R162 to R166, 60_exceptions.md rule
R243). Each does the entry's first line; what follows it (`TP <- TP + len`) is run on (R161). -/

namespace Sys2Proof.Machine

/-- RST(v) and then `TP <- TP + 1` (R164, R165). -/
def driveReset (v : Bool) (s : State) : State :=
  runOn (tick { emit (.rst v) s with ctl := .advance 1 })

/-- CMD (R162): `PHASE <- next_phase(PHASE, op)`, and the transaction is handed to the framer, which
returns to this entry. -/
def execCmd (op : Byte) (pl : List Byte) (s : State) : Host.Outcome State Fault Refusal :=
  .next (tick (handOver op pl .entry { s with phase := nextPhase s.phase op }))

/-- DELAY (R163): `wait(ms)`. -/
def execDelay (ms : Half) (s : State) : Host.Outcome State Fault Refusal :=
  .next (startDelay ms s)

/-- RST_LOW (R164). -/
def execRstLow (s : State) : Host.Outcome State Fault Refusal :=
  .next (driveReset false s)

/-- RST_HIGH (R165). -/
def execRstHigh (s : State) : Host.Outcome State Fault Refusal :=
  .next (driveReset true s)

/-- END (R166): `PHASE <- ACTIVE ; READY <- 1 ; DONE <- 1 ; OP <- 0 ; BUSY <- 0`; TP stays. -/
def execEndEntry (s : State) : Host.Outcome State Fault Refusal :=
  .next (tick { finishOp s with
    phase := .active
    status := { s.status.completed with ready := true } })

/-- A reserved header 0x41..0x7F raises TBL_ERR before any effect (R97, R243). -/
def execReservedEntryLow (h : Byte) (s : State) : Host.Outcome State Fault Refusal :=
  .next (tableError h s)

/-- A reserved header 0x82..0xFE raises TBL_ERR before any effect (R97, R243). -/
def execReservedEntryHigh (h : Byte) (s : State) : Host.Outcome State Fault Refusal :=
  .next (tableError h s)

end Sys2Proof.Machine
end

