-- ==== Sys2Proof/Machine/Wire.lean ====
section
/-! DEFINITION. The meanings of the wire opcodes (30_encoding.md rules R100 to R102, 42_transport.md rules
R191, R200): each sends one transaction. Only SLEEP_OUT touches the block's own state (R102). -/

namespace Sys2Proof.Machine

/-- `txn(op, pl)` (R191): the transaction begins, and its lines and its return to the caller are run on. -/
def sendTxn (op : Byte) (pl : List Byte) (s : State) : State := runOn (beginTxn op pl s)

/-- SLEEP_OUT, 0x11 (R100). It moves PHASE to SLEEPOUT when a CMD entry sends it (R102, R167; the entry's
own first line has done so already, log entry 13). -/
def execSleepOut (pl : List Byte) (s : State) : Host.Outcome State Fault Refusal :=
  .next (sendTxn 0x11 pl
    { s with phase := if s.framer.caller = .entry then .sleepout else s.phase })

/-- DISPLAY_ON, 0x29 (R100). -/
def execDisplayOn (pl : List Byte) (s : State) : Host.Outcome State Fault Refusal :=
  .next (sendTxn 0x29 pl s)

/-- COL_ADDR_SET, 0x2A (R100). -/
def execColAddrSet (pl : List Byte) (s : State) : Host.Outcome State Fault Refusal :=
  .next (sendTxn 0x2A pl s)

/-- ROW_ADDR_SET, 0x2B (R100). -/
def execRowAddrSet (pl : List Byte) (s : State) : Host.Outcome State Fault Refusal :=
  .next (sendTxn 0x2B pl s)

/-- MEM_WRITE, 0x2C (R100). -/
def execMemWrite (pl : List Byte) (s : State) : Host.Outcome State Fault Refusal :=
  .next (sendTxn 0x2C pl s)

/-- MEM_ACCESS_CTRL, 0x36 (R100). -/
def execMemAccessCtrl (pl : List Byte) (s : State) : Host.Outcome State Fault Refusal :=
  .next (sendTxn 0x36 pl s)

/-- PIXEL_FORMAT, 0x3A (R100). -/
def execPixelFormat (pl : List Byte) (s : State) : Host.Outcome State Fault Refusal :=
  .next (sendTxn 0x3A pl s)

/-- OPAQUE: every other opcode byte, sent as given (R100, R200). -/
def execOpaqueOp (op : Byte) (pl : List Byte) (s : State) : Host.Outcome State Fault Refusal :=
  .next (sendTxn op pl s)

end Sys2Proof.Machine
end

