-- ==== Sys2Proof/Machine/Dispatch.lean ====
section
/-! DEFINITION. The meaning of every instruction, one arm per row of spec/opcode_table.json. -/

namespace Sys2Proof.Machine

def exec (i : Instr) (s : State) : Host.Outcome State Fault Refusal :=
  match i with
  -- table entries
  | .cmd op pl => Sys2Proof.Machine.execCmd op pl s
  | .delay ms => Sys2Proof.Machine.execDelay ms s
  | .rstLow => Sys2Proof.Machine.execRstLow s
  | .rstHigh => Sys2Proof.Machine.execRstHigh s
  | .endEntry => Sys2Proof.Machine.execEndEntry s
  | .reservedEntryLow h => Sys2Proof.Machine.execReservedEntryLow h s
  | .reservedEntryHigh h => Sys2Proof.Machine.execReservedEntryHigh h s
  -- host commands
  | .nop ign => Sys2Proof.Machine.execNop ign s
  | .init ign => Sys2Proof.Machine.execInit ign s
  | .refresh ign => Sys2Proof.Machine.execRefresh ign s
  | .convert ign => Sys2Proof.Machine.execConvert ign s
  | .reservedCtrl ign low => Sys2Proof.Machine.execReservedCtrl ign low s
  -- wire opcodes
  | .sleepOut pl => Sys2Proof.Machine.execSleepOut pl s
  | .displayOn pl => Sys2Proof.Machine.execDisplayOn pl s
  | .colAddrSet pl => Sys2Proof.Machine.execColAddrSet pl s
  | .rowAddrSet pl => Sys2Proof.Machine.execRowAddrSet pl s
  | .memWrite pl => Sys2Proof.Machine.execMemWrite pl s
  | .memAccessCtrl pl => Sys2Proof.Machine.execMemAccessCtrl pl s
  | .pixelFormat pl => Sys2Proof.Machine.execPixelFormat pl s
  | .opaqueOp op pl => Sys2Proof.Machine.execOpaqueOp op pl s

end Sys2Proof.Machine
end

