-- ==== Sys2Proof/Machine/HostPort.lean ====
section
/-! DEFINITION. The host port (20_memory.md rules R60 to R67, 10_state.md rule R25) and block reset
(70_reset_and_hazards.md rules R270, R271). -/

namespace Sys2Proof.Machine

/-- A register read (R25 to R33, R64): no side effect; CTRL and the reserved offset read 0. -/
def readRegister (off : Nat) (s : State) : Word :=
  if off = 0x04 then s.status.word
  else if off = 0x08 then s.phase.word
  else if off = 0x0C then s.errinfo.word
  else if off = 0x10 then s.win.word
  else if off = 0x14 then geomWord s.cfg
  else if off = 0x18 then tpWord s.tp
  else 0

/-- A register write other than to CTRL (R25, R64): STATUS clears its W1C bits (R222), every other register
ignores it. -/
def writeRegister (off : Nat) (v : Word) (s : State) : State :=
  if off = 0x04 then { s with status := s.status.w1c v } else s

/-- A 32-bit read of a host address (R62, R64, R67). DESIGN CHOICE (log entry 27): the first byte's address
alone says where the access goes, so one that starts at a reserved address reads 0, although its later bytes
lie in a window (0x0FFFD to 0x0FFFF) or past the host space (0x3FFFD to 0x3FFFF). -/
def readWord (a : Nat) (s : State) : Host.Outcome Word Fault Refusal :=
  match regionOf a with
  | none => .fault .noSuchHostAddress
  | some (.register off) =>
    if off % 4 = 0 then .next (readRegister off s) else .refused .hostAccessWidthOrAlignment
  | some (.bitmap _) => .refused .hostAccessWidthOrAlignment
  | some (.packed _) => .refused .hostAccessWidthOrAlignment
  | some .reserved => .next 0

/-- A 32-bit write of a host address other than CTRL (R62, R64, R67). DESIGN CHOICE (log entry 27): the first
byte's address alone says where it goes, so one that starts at a reserved address is ignored as a whole. -/
def writeWord (a : Nat) (v : Word) (s : State) : Host.Outcome State Fault Refusal :=
  match regionOf a with
  | none => .fault .noSuchHostAddress
  | some (.register off) =>
    if off % 4 = 0 then .next (writeRegister off v s) else .refused .hostAccessWidthOrAlignment
  | some (.bitmap _) => .refused .hostAccessWidthOrAlignment
  | some (.packed _) => .refused .hostAccessWidthOrAlignment
  | some .reserved => .next s

/-- A byte read of a host address (R62, R65, R66, R67); the windows end at `Cfg.n` (log entry 26). -/
def readByte (a : Nat) (s : State) : Host.Outcome Byte Fault Refusal :=
  match regionOf a with
  | none => .fault .noSuchHostAddress
  | some (.register _) => .refused .hostAccessWidthOrAlignment
  | some (.bitmap i) => .next (if i < s.cfg.n then s.bitmapByte i else 0)
  | some (.packed k) => .next (if k < s.cfg.n then s.packedByte k else 0)
  | some .reserved => .next 0

/-- A byte write of a host address (R62, R65, R66, R67); the bitmap window ends at `Cfg.n` (log entry 26). -/
def writeByte (a : Nat) (v : Byte) (s : State) : Host.Outcome State Fault Refusal :=
  match regionOf a with
  | none => .fault .noSuchHostAddress
  | some (.register _) => .refused .hostAccessWidthOrAlignment
  | some (.bitmap i) =>
    .next (if i < s.cfg.n then { s with bitmap := s.bitmap.write i v } else s)
  | some (.packed _) => .next s
  | some .reserved => .next s

/-- A read's value is recorded for the host. -/
def answer (x : Answer) (s : State) : State := { s with answers := s.answers ++ [x] }

/-- The value written, when an access is a 32-bit write of CTRL (R26): the fetch of a host command. -/
def ctrlWrite : HostAccess → Option Word
  | .wr a v => if a = 0 then some v else none
  | .rd _ => none
  | .rdb _ => none
  | .wrb _ _ => none
  | .poll _ _ _ => none

/-- A host access other than a CTRL write, already taken from the queue. A poll that does not see its
value is tried again after a micro-step (R105, log entry 16). -/
def hostAccess (x : HostAccess) (s : State) : Host.Outcome State Fault Refusal :=
  match x with
  | .wr a v => writeWord a v s
  | .wrb a v => writeByte a v s
  | .rd a =>
    match readWord a s with
    | .next v => .next (answer (.word v) s)
    | .fault f => .fault f
    | .refused f => .refused f
  | .rdb a =>
    match readByte a s with
    | .next v => .next (answer (.byte v) s)
    | .fault f => .fault f
    | .refused f => .refused f
  | .poll a bit b =>
    match readWord a s with
    | .next v =>
      if v.getLsbD bit = b then .next (answer (.word v) s)
      else .next (answer (.word v) { s with hostQ := ⟨1, .poll a bit b⟩ :: s.hostQ })
    | .fault f => .fault f
    | .refused f => .refused f

/-- Block reset (R270, R271): every piece of the block's state takes its reset value, the buffers are drawn
afresh, the trace starts again empty. The configuration and T are not reset (R37, R270); the inputs, the TE
line and the host's record are not the block's (log entry 11). -/
def blockReset (s : State) : State :=
  { State.resetWith s.cfg s.rom (s.epoch + 1) with
    lines := { resetLines with te := s.lines.te }
    fresh := s.fresh
    hostQ := s.hostQ
    resets := s.resets.tail
    draws := s.draws
    answers := s.answers }

end Sys2Proof.Machine
end

