-- ==== Sys2Proof/Machine/Fetch.lean ====
section
/-! DEFINITION. What the machine fetches next, and where a bare word of the opcode table is put so that it
is fetched next. -/

namespace Sys2Proof.Machine

/-- What the next step does. -/
inductive Turn where
  /-- block reset is asserted (R271) -/
  | reset
  /-- the host writes CTRL: the command of the value `v` (R26), with the access taken from the queue -/
  | command (v : Word) (rest : List HostReq)
  /-- another host access -/
  | access (x : HostAccess) (rest : List HostReq)
  /-- nothing: no op runs, or the block waits for the environment, and no input is pending -/
  | idle
  /-- the sequencer decodes the entry at TP (R161) -/
  | entry
  /-- the framer takes the transaction it was handed (R191) -/
  | wire
  /-- the block goes on with the instruction it is in (R221) -/
  | block
  deriving DecidableEq, Repr

/-- The turn of the host access at the head of the queue. -/
def hostTurn (s : State) : Turn :=
  match s.hostQ with
  | [] => .idle
  | r :: rest =>
    match ctrlWrite r.access with
    | some v => .command v rest
    | none => .access r.access rest

/-- The block's turn, when no input is due. With no op running, or while it waits for the environment, the
block has no micro-step to take: a block reset still to come then comes at once, once no host access is
left that may come before it. -/
def blockTurn (s : State) : Turn :=
  if s.ctl = .idle || waiting s then
    match s.resets with
    | [] => .idle
    | _ :: _ => .reset
  else if s.ctl = .fetch then .entry
  else if s.ctl = .present then .wire
  else .block

/-- Which agent moves next: block reset first, then a due host access, then the block (log entry 3). -/
def turn (s : State) : Turn :=
  if resetDue s then .reset else if hostDue s then hostTurn s else blockTurn s

/-- The state in which the sequencer is about to decode the entry at address 0 of the table `rom`: right
after INIT is accepted (R211), on a test build's ROM (R37), with no input pending. -/
def State.atEntry (s : State) (rom : List Byte) : State :=
  { s with
    rom := rom
    status := { s.status.accepted .init with ready := false }
    phase := .reset
    tp := 0
    tpPast := false
    ctl := .fetch
    hostQ := []
    resets := [] }

/-- The instruction whose bits are `w` (log entries 14 and 15) put where the machine fetches next: a table
entry at TP, a host command as the host's next CTRL write, a wire opcode (with no payload) in the framer,
handed over by a CMD entry. -/
def State.placeWord (s : State) (nbits w : Nat) : State :=
  match wordFormat nbits w with
  | .entry => s.atEntry (bytesOfWord nbits w)
  | .ctrl => { s with hostQ := [⟨0, .wr 0 (BitVec.ofNat 32 (w % 2 ^ nbits))⟩], resets := [] }
  | .wire =>
    handOver (BitVec.ofNat 8 (w % 2 ^ nbits)) [] .entry
      (s.atEntry (entryBytes (.cmd (BitVec.ofNat 8 (w % 2 ^ nbits)) [])))

end Sys2Proof.Machine
end

