-- ==== Sys2Proof/Machine/Step.lean ====
section
/-! DEFINITION. One step of the machine. -/

namespace Sys2Proof.Machine

/-- One step: block reset, one host access, or one instruction of the block (or the rest of one that an
input has cut). A host access is taken from the queue first (`takeAccess`). One that is a CTRL write, the entry
at TP and the transaction in the framer are decoded and run by `exec`; an entry that does not decode raises
TBL_ERR (R243). -/
def step (s : State) : Host.Outcome State Fault Refusal :=
  match turn s with
  | .reset => .next (blockReset s)
  | .command v rest => exec (decodeCtrl v) (takeAccess rest s)
  | .access x rest => hostAccess x (takeAccess rest s)
  | .idle => .next s
  | .entry =>
    match fetchEntry s with
    | .ok (i, _) => exec i s
    | .error e => .next (tableError (decodeErrorOpc e) s)
  | .wire => exec (decodeWire s.framer.op s.framer.pl) s
  | .block => .next (runOn (micro s))

/-- The instruction whose bits are `w` stored where `step` fetches its next instruction. -/
def State.withFetchWord (s : State) (nbits w : Nat) : State := s.placeWord nbits w

end Sys2Proof.Machine
end

