-- ==== Sys2Proof/Machine/Assembly.lean ====
section
/-! DEFINITION. The table assembly syntax of 30_encoding.md rules R103 and R104: one statement a line,
numbers decimal or hex with 0x, `;` starting a comment. -/

namespace Sys2Proof

/-- The statements of R103 and the pseudo-instructions of R104, operands as written. -/
inductive AsmStmt where
  | cmd (op : Nat) (pl : List Nat)
  | delay (ms : Nat)
  | rstLow
  | rstHigh
  | endStmt
  | resetPulse (t1 t2 : Nat)
  | cmdOnly (op : Nat)
  | sleepOut (t : Nat)
  | displayOn (t : Nat)
  | window (cs0 ce0 rs0 re0 : Nat)
  deriving DecidableEq, Repr

/-- The entries a statement stands for (R103, R104); none where an operand is out of range. -/
def AsmStmt.expand : AsmStmt → Option (List Instr)
  | .cmd op pl =>
    if op < 256 && allBytes pl && pl.length ≤ 63 then some [.cmd (byteOf op) (bytesOf pl)] else none
  | .delay ms => if ms < 65536 then some [.delay (BitVec.ofNat 16 ms)] else none
  | .rstLow => some [.rstLow]
  | .rstHigh => some [.rstHigh]
  | .endStmt => some [.endEntry]
  | .resetPulse t1 t2 => if t1 < 65536 && t2 < 65536 then some (Sys2Proof.resetPulse t1 t2) else none
  | .cmdOnly op => if op < 256 then some (Sys2Proof.cmdOnly (byteOf op)) else none
  | .sleepOut t => if t < 65536 then some (sleepOutThen t) else none
  | .displayOn t => if t < 65536 then some (displayOnThen t) else none
  | .window cs0 ce0 rs0 re0 =>
    if allBytes [cs0, ce0, rs0, re0] then
      some (windowEntries (byteOf cs0) (byteOf ce0) (byteOf rs0) (byteOf re0))
    else none

/-- The value of a digit. -/
def digitValue (ch : Char) : Option Nat :=
  if '0' ≤ ch && ch ≤ '9' then some (ch.toNat - 48)
  else if 'a' ≤ ch && ch ≤ 'f' then some (ch.toNat - 87)
  else if 'A' ≤ ch && ch ≤ 'F' then some (ch.toNat - 55)
  else none

/-- Digits in a base, most significant first, after the value read so far. -/
def digitsValue (base : Nat) : Nat → List Char → Option Nat
  | acc, [] => some acc
  | acc, ch :: rest =>
    match digitValue ch with
    | none => none
    | some d => if d < base then digitsValue base (acc * base + d) rest else none

/-- A number: decimal, or hex with 0x (R103). -/
def numberValue : List Char → Option Nat
  | [] => none
  | ['0', 'x'] => none
  | '0' :: 'x' :: ds => digitsValue 16 0 ds
  | ds => digitsValue 10 0 ds

/-- The words of a line: spaces and commas separate, a semicolon ends it (R103). `cur` is the word being
read, backwards. -/
def lineWords (cur : List Char) : List Char → List (List Char)
  | [] => if cur.isEmpty then [] else [cur.reverse]
  | ch :: rest =>
    if ch = ';' then (if cur.isEmpty then [] else [cur.reverse])
    else if ch = ' ' || ch = '\t' || ch = '\r' || ch = ',' then
      if cur.isEmpty then lineWords [] rest else cur.reverse :: lineWords [] rest
    else lineWords (ch :: cur) rest

/-- The numbers of an operand list, all of them numbers or none. -/
def numberValues : List (List Char) → Option (List Nat)
  | [] => some []
  | x :: xs =>
    match numberValue x, numberValues xs with
    | some n, some ns => some (n :: ns)
    | _, _ => none

/-- The statement of a mnemonic and its operands (R103, R104). -/
def statementOf (mnemonic : List Char) (operands : List Nat) : Option AsmStmt :=
  match operands with
  | [] =>
    if mnemonic = ['r', 's', 't', '_', 'l', 'o', 'w'] then some .rstLow
    else if mnemonic = ['r', 's', 't', '_', 'h', 'i', 'g', 'h'] then some .rstHigh
    else if mnemonic = ['e', 'n', 'd'] then some .endStmt
    else none
  | [x] =>
    if mnemonic = ['c', 'm', 'd'] then some (.cmd x [])
    else if mnemonic = ['d', 'e', 'l', 'a', 'y'] then some (.delay x)
    else if mnemonic = ['c', 'm', 'd', '_', 'o', 'n', 'l', 'y'] then some (.cmdOnly x)
    else if mnemonic = ['s', 'l', 'e', 'e', 'p', '_', 'o', 'u', 't'] then some (.sleepOut x)
    else if mnemonic = ['d', 'i', 's', 'p', 'l', 'a', 'y', '_', 'o', 'n'] then some (.displayOn x)
    else none
  | x :: rest =>
    if mnemonic = ['c', 'm', 'd'] then some (.cmd x rest)
    else if mnemonic = ['r', 'e', 's', 'e', 't', '_', 'p', 'u', 'l', 's', 'e'] then
      match rest with
      | [y] => some (.resetPulse x y)
      | _ => none
    else if mnemonic = ['w', 'i', 'n', 'd', 'o', 'w'] then
      match rest with
      | [y, z, u] => some (.window x y z u)
      | _ => none
    else none

/-- A line of assembly: its statement, if it has one; none where the line is wrong. -/
def parseLine (l : List Char) : Option (Option AsmStmt) :=
  match lineWords [] l with
  | [] => some none
  | m :: ops =>
    match numberValues ops with
    | none => none
    | some ns =>
      match statementOf m ns with
      | none => none
      | some st => some (some st)

/-- The entries of a program of assembly lines, in order. -/
def assembleLines : List (List Char) → Option (List Instr)
  | [] => some []
  | l :: ls =>
    match parseLine l, assembleLines ls with
    | some none, some es => some es
    | some (some st), some es =>
      match st.expand with
      | some head => some (head ++ es)
      | none => none
    | _, _ => none

/-- The lines of a text. -/
def textLines (cur : List Char) : List Char → List (List Char)
  | [] => [cur.reverse]
  | ch :: rest => if ch = '\n' then cur.reverse :: textLines [] rest else textLines (ch :: cur) rest

/-- The table bytes of an assembly text (R103, R90). -/
def assemble (text : List Char) : Option (List Byte) :=
  match assembleLines (textLines [] text) with
  | some es => some (encodeTable es)
  | none => none

end Sys2Proof
end

