-- ==== Sys2Proof/Machine/Build.lean ====
section
/-! DEFINITION. Building a block from a configuration (00_scope.md rule R10, 70_reset_and_hazards.md rule
R273 step 1) and the test build of 10_state.md rule R37. -/

namespace Sys2Proof.Machine

/-- A block is built only from an admitted configuration; a failing one is refused by the check's name
(R10). -/
def build (c : Cfg) : Except CfgCheck State :=
  match c.failure with
  | some k => .error k
  | none => .ok (State.resetWith c (tableRom c) 0)

/-- A test build may load any byte sequence of length 1 to TBL_MAX into T (R37). DESIGN CHOICE (log entry 32): a
sequence of another length is refused under the name CFG-TBL, which R10 gives the encoded INIT_TABLE(cfg) alone;
the spec names no check for it. -/
def buildTest (c : Cfg) (rom : List Byte) : Except CfgCheck State :=
  match c.failure with
  | some k => .error k
  | none =>
    if 1 ≤ rom.length && rom.length ≤ tblMax then .ok (State.resetWith c rom 0) else .error .tbl

end Sys2Proof.Machine
end

