-- ==== Sys2Proof/Safety.lean ====
section
/-! DEFINITION. The terms that claims about the machine use: runs, quiet inputs, the events the rules give
an entry or a transaction, and the invariant of every state the machine can reach. -/

namespace Sys2Proof.Machine

/-- No input is scheduled: no host access and no block reset. -/
abbrev Quiet (s : State) : Prop := s.hostQ = [] ∧ s.resets = []

/-- It is the turn of the host access `x`: no block reset is asserted now, and the access heads the queue
and is due; `rest` is the queue after it. -/
def HostTurn (s : State) (x : HostAccess) (rest : List HostReq) : Prop :=
  resetDue s = false ∧ hostDue s = true ∧ ∃ n, s.hostQ = ⟨n, x⟩ :: rest

/-- The byte address of a host access. -/
def HostAccess.addr : HostAccess → Nat
  | .rd a => a
  | .wr a _ => a
  | .rdb a => a
  | .wrb a _ => a
  | .poll a _ _ => a

/-- Whether a host access moves one byte; the others move a 32-bit word. -/
def HostAccess.isByte : HostAccess → Bool
  | .rd _ => false
  | .wr _ _ => false
  | .rdb _ => true
  | .wrb _ _ => true
  | .poll _ _ _ => false

/-- The width and alignment that R62 admits at an address of the host space: aligned words at registers,
bytes at windows, anything at reserved addresses (R61, R67). -/
def admittedAccess (byte : Bool) (a : Nat) : Bool :=
  if a < 0x20 then !byte && a % 4 == 0
  else if 0x10000 ≤ a && a < 0x30000 then byte
  else true

/-- Some number of steps leads from `s` to `t`. -/
def Reaches (s t : State) : Prop := ∃ k : Nat, Sys2Proof.core.run k s = .next t

/-- The events of a transaction whose write phases succeed (R191, R192). -/
def okFrame (op : Byte) (pl : List Byte) : List Event :=
  [.cs false, .dc false, .tx op, .cs true, .dc true]
    ++ (if pl.length = 0 then [] else [.cs false] ++ pl.map .tx ++ [.cs true])

/-- The events of a table entry that succeeds (R162 to R166); the other rows have none of their own. -/
def entryEvents : Instr → List Event
  | .cmd op pl => okFrame op pl
  | .delay ms => [.wait ms]
  | .rstLow => [.rst false]
  | .rstHigh => [.rst true]
  | .endEntry => []
  | .reservedEntryLow _ => []
  | .reservedEntryHigh _ => []
  | .nop _ => []
  | .init _ => []
  | .refresh _ => []
  | .convert _ => []
  | .reservedCtrl _ _ => []
  | .sleepOut _ => []
  | .displayOn _ => []
  | .colAddrSet _ => []
  | .rowAddrSet _ => []
  | .memWrite _ => []
  | .memAccessCtrl _ => []
  | .pixelFormat _ => []
  | .opaqueOp _ _ => []

/-- The write phases, hence draws, of a table entry (R193). -/
def entryPhases : Instr → Nat
  | .cmd _ pl => txnPhases pl
  | .delay _ => 0
  | .rstLow => 0
  | .rstHigh => 0
  | .endEntry => 0
  | .reservedEntryLow _ => 0
  | .reservedEntryHigh _ => 0
  | .nop _ => 0
  | .init _ => 0
  | .refresh _ => 0
  | .convert _ => 0
  | .reservedCtrl _ _ => 0
  | .sleepOut _ => 0
  | .displayOn _ => 0
  | .colAddrSet _ => 0
  | .rowAddrSet _ => 0
  | .memWrite _ => 0
  | .memAccessCtrl _ => 0
  | .pixelFormat _ => 0
  | .opaqueOp _ _ => 0

/-- The opcode and payload a wire row sends (R100); none for the rows of the other formats. -/
def wireSends : Instr → Option (Byte × List Byte)
  | .sleepOut pl => some (0x11, pl)
  | .displayOn pl => some (0x29, pl)
  | .colAddrSet pl => some (0x2A, pl)
  | .rowAddrSet pl => some (0x2B, pl)
  | .memWrite pl => some (0x2C, pl)
  | .memAccessCtrl pl => some (0x36, pl)
  | .pixelFormat pl => some (0x3A, pl)
  | .opaqueOp op pl => some (op, pl)
  | .cmd _ _ => none
  | .delay _ => none
  | .rstLow => none
  | .rstHigh => none
  | .endEntry => none
  | .reservedEntryLow _ => none
  | .reservedEntryHigh _ => none
  | .nop _ => none
  | .init _ => none
  | .refresh _ => none
  | .convert _ => none
  | .reservedCtrl _ _ => none

/-- Every TX event of the trace occurs while CS is 0, from given line levels (R197). -/
def txSelected (l : Lines) : List Event → Bool
  | [] => true
  | .tx _ :: tr => !l.cs && txSelected l tr
  | .cs v :: tr => txSelected (l.drive (.cs v)) tr
  | .dc v :: tr => txSelected (l.drive (.dc v)) tr
  | .rst v :: tr => txSelected (l.drive (.rst v)) tr
  | .wait _ :: tr => txSelected l tr
  | .fail :: tr => txSelected l tr

/-- The places of a transaction at which CS is driven to 0 (R191). -/
def TxnStage.selected : TxnStage → Bool
  | .command => true
  | .opcode => true
  | .opDraw => true
  | .opDeselect => true
  | .dataMode => false
  | .dataSelect => false
  | .payload => true
  | .plDraw => true
  | .plDeselect => true
  | .failDeselect => true

/-- CS is 0 exactly here (R191, R195). -/
def Control.selected : Control → Bool
  | .txn st => st.selected
  | .idle => false
  | .fetch => false
  | .delay => false
  | .advance _ => false
  | .present => false
  | .ret _ => false
  | .convert => false
  | .finish => false

/-- The op that may run at a place of the engine, for the framer's caller (R161, R162, R214, R217). -/
def Control.runs (caller : Caller) (k : OpKind) : Control → Bool
  | .idle => k == .none
  | .fetch => k == .init
  | .delay => k == .init
  | .advance _ => k == .init
  | .present => if caller = .entry then k == .init else k == .refresh
  | .txn _ => if caller = .entry then k == .init else k == .refresh
  | .ret _ => if caller = .entry then k == .init else k == .refresh
  | .convert => k == .refresh || k == .convert
  | .finish => k == .convert

/-- The phases of a running INIT (R28, R167). -/
def Phase.ofInit : Phase → Bool
  | .reset => true
  | .configuring => true
  | .sleepout => true
  | .displayon => true
  | .uninit => false
  | .active => false
  | .fault => false

/-! The transaction in the framer, as far as it has gone -/

/-- The engine has a transaction in the framer (R191). -/
def Control.inTxn : Control → Bool
  | .present => true
  | .txn _ => true
  | .ret _ => true
  | .idle => false
  | .fetch => false
  | .delay => false
  | .advance _ => false
  | .convert => false
  | .finish => false

/-- The payload counter at each place of a transaction: 0 before the payload phase, below the payload's length
inside it, and at the length after it (R191, R198). -/
def Framer.counts (f : Framer) : Control → Prop
  | .present => f.sent = 0
  | .txn .command => f.sent = 0
  | .txn .opcode => f.sent = 0
  | .txn .opDraw => f.sent = 0
  | .txn .opDeselect => f.sent = 0
  | .txn .dataMode => f.sent = 0
  | .txn .dataSelect => f.sent = 0 ∧ f.pl ≠ []
  | .txn .payload => f.sent < f.pl.length
  | .txn .plDraw => f.sent = f.pl.length ∧ f.pl ≠ []
  | .txn .plDeselect => f.sent = f.pl.length ∧ f.pl ≠ []
  | .txn .failDeselect => f.sent = 0 ∨ f.sent = f.pl.length
  | .ret true => f.sent = f.pl.length
  | .ret false => f.sent = 0 ∨ f.sent = f.pl.length
  | .idle => True
  | .fetch => True
  | .delay => True
  | .advance _ => True
  | .convert => True
  | .finish => True

/-- The events of the opcode phase (R191). -/
def opcodePhase (op : Byte) : List Event := [.cs false, .dc false, .tx op]

/-- The events from there to the end of the payload phase, with the bytes `pl` sent (R191, R198). -/
def payloadPhase (pl : List Byte) : List Event := [.cs true, .dc true, .cs false] ++ pl.map .tx

/-- The events of a transaction up to its FAIL: the opcode phase's when no payload byte was sent, the payload
phase's otherwise (R191). -/
def Framer.failed (f : Framer) : List Event :=
  opcodePhase f.op ++ (if f.sent = 0 then [] else payloadPhase f.pl) ++ [.fail]

/-- What the transaction in the framer has emitted when its next line is the given one (R191). -/
def Framer.emitted (f : Framer) : TxnStage → List Event
  | .command => [.cs false]
  | .opcode => [.cs false, .dc false]
  | .opDraw => opcodePhase f.op
  | .opDeselect => opcodePhase f.op
  | .dataMode => opcodePhase f.op ++ [.cs true]
  | .dataSelect => opcodePhase f.op ++ [.cs true, .dc true]
  | .payload => opcodePhase f.op ++ payloadPhase (f.pl.take f.sent)
  | .plDraw => opcodePhase f.op ++ payloadPhase f.pl
  | .plDeselect => opcodePhase f.op ++ payloadPhase f.pl
  | .failDeselect => f.failed

/-- The events of the table entry at TP. -/
def State.entryHere (s : State) : List Event :=
  match fetchEntry s with
  | .ok (i, _) => entryEvents i
  | .error _ => []

/-- What the entry or transaction under way has emitted so far. -/
def State.openEvents (s : State) : List Event :=
  match s.ctl with
  | .txn st => s.framer.emitted st
  | .ret true => okFrame s.framer.op s.framer.pl
  | .ret false => s.framer.failed ++ [.cs true]
  | .delay => s.entryHere
  | .advance _ => s.entryHere
  | .idle => []
  | .fetch => []
  | .present => []
  | .convert => []
  | .finish => []

/-! Whole traces -/

/-- A byte on the SPI data line with the levels of CS and DC it goes out at (R197). -/
structure SentByte where
  byte : Byte
  cs : Bool
  dc : Bool
  deriving DecidableEq, Repr

/-- The bytes of a trace with their levels, from given line levels. -/
def sentBytes (l : Lines) : List Event → List SentByte
  | [] => []
  | .tx b :: tr => ⟨b, l.cs, l.dc⟩ :: sentBytes l tr
  | .cs v :: tr => sentBytes (l.drive (.cs v)) tr
  | .dc v :: tr => sentBytes (l.drive (.dc v)) tr
  | .rst v :: tr => sentBytes (l.drive (.rst v)) tr
  | .wait _ :: tr => sentBytes l tr
  | .fail :: tr => sentBytes l tr

/-- The bytes of a transaction (R197): the opcode at DC = 0, the payload at DC = 1, all at CS = 0. -/
def txnBytes (op : Byte) (pl : List Byte) : List SentByte :=
  ⟨op, false, false⟩ :: pl.map fun b => ⟨b, false, true⟩

/-- The bytes that the transaction under way has sent so far. -/
def State.openBytes (s : State) : List SentByte :=
  match s.ctl with
  | .txn .command => []
  | .txn .opcode => []
  | .txn _ => txnBytes s.framer.op (s.framer.pl.take s.framer.sent)
  | .ret _ => txnBytes s.framer.op (s.framer.pl.take s.framer.sent)
  | _ => []

/-- What a trace is made of, whole transactions among it (R190, R191, R194). -/
inductive TraceItem where
  /-- a transaction that succeeded -/
  | sent (op : Byte) (pl : List Byte)
  /-- one whose opcode phase failed -/
  | opcodeFailed (op : Byte)
  /-- one whose payload phase failed; its payload is not empty -/
  | payloadFailed (op b : Byte) (pl : List Byte)
  | wait (ms : Half)
  | rst (v : Bool)
  deriving DecidableEq, Repr

/-- The events of an item (R191, R163 to R165). -/
def TraceItem.events : TraceItem → List Event
  | .sent op pl => okFrame op pl
  | .opcodeFailed op => opcodePhase op ++ [.fail, .cs true]
  | .payloadFailed op b pl => opcodePhase op ++ payloadPhase (b :: pl) ++ [.fail, .cs true]
  | .wait ms => [.wait ms]
  | .rst v => [.rst v]

/-- The bytes of an item, with the levels of R197. -/
def TraceItem.bytes : TraceItem → List SentByte
  | .sent op pl => txnBytes op pl
  | .opcodeFailed op => txnBytes op []
  | .payloadFailed op b pl => txnBytes op (b :: pl)
  | .wait _ => []
  | .rst _ => []

/-- The rows whose entry TP moves past when its execution succeeds (R161); END keeps TP (R166), a reserved header
raises TBL_ERR (R97). -/
def passedEntry : Instr → Bool
  | .cmd _ _ => true
  | .delay _ => true
  | .rstLow => true
  | .rstHigh => true
  | .endEntry => false
  | .reservedEntryLow _ => false
  | .reservedEntryHigh _ => false
  | .nop _ => false
  | .init _ => false
  | .refresh _ => false
  | .convert _ => false
  | .reservedCtrl _ _ => false
  | .sleepOut _ => false
  | .displayOn _ => false
  | .colAddrSet _ => false
  | .rowAddrSet _ => false
  | .memWrite _ => false
  | .memAccessCtrl _ => false
  | .pixelFormat _ => false
  | .opaqueOp _ _ => false

/-- The address after the entries `es`, if they are what the table's bytes decode to, one after the other, from
address `a` on, and each is passed (R92, R161). -/
def entriesEnd (rom : List Byte) : Nat → List Instr → Option Nat
  | a, [] => some a
  | a, i :: es =>
    match decodeEntry (rom.drop a) with
    | .error _ => none
    | .ok (j, len) =>
      if a < 65536 ∧ i = j ∧ passedEntry i = true then entriesEnd rom (a + len) es else none

/-- The table's entries from address 0 on that decode, one after the other, up to where TP stands, or past 65535
(R22, R161), are `es`. No other list meets this (`ranEntries_unique`). -/
def State.ranEntries (s : State) (es : List Instr) : Prop :=
  ∃ a, entriesEnd s.rom 0 es = some a ∧ if s.tpPast then 65536 ≤ a else a = s.tp.toNat

/-- After `before` the trace holds the events of the table's entries up to TP, in order, and then what the entry
at TP has emitted so far, and nothing else (R161, R170). -/
def State.initFrom (s : State) (before : List Event) : Prop :=
  ∃ es, s.trace = before ++ es.flatMap entryEvents ++ s.openEvents ∧ s.ranEntries es

/-- The transactions of REFRESH before its transaction k (R214). -/
def State.framesBefore (s : State) (k : Fin 3) : List Event :=
  match k with
  | 0 => []
  | 1 => okFrame 0x2A (s.refreshPayload 0)
  | 2 => okFrame 0x2A (s.refreshPayload 0) ++ okFrame 0x2B (s.refreshPayload 1)

/-- The latches hold the source bytes of the band whose low byte has been written (R134). -/
def Latched (s : State) : Prop :=
  s.conv.h = true →
    s.conv.b1 = s.bitmapByte (srcIndex s.cfg s.conv.t s.conv.r)
      ∧ s.conv.b2 = s.bitmapByte (srcIndex s.cfg s.conv.t s.conv.r + 1)

/-! The invariant -/

/-- The block's registers, lines and buffers. -/
structure BlockInv (s : State) : Prop where
  /-- Both buffers keep their canonical form. -/
  bitmapWf : s.bitmap.wf = true
  packedWf : s.packed.wf = true
  /-- Nothing is written outside B or P (R65, R141). -/
  bitmapIn : ∀ i, s.cfg.n ≤ i → s.bitmap.read i = none
  packedIn : ∀ k, s.cfg.n ≤ k → s.packed.read k = none
  /-- BUSY is 1 exactly while an op runs, and OP names it (R27). -/
  busyOp : s.status.busy = true ↔ s.status.op ≠ .none
  /-- The engine's place belongs to the running op (R20). -/
  place : s.ctl.runs s.framer.caller s.status.op = true
  /-- DONE is 0 while an op runs (R27). -/
  doneLate : s.status.busy = true → s.status.done = false
  /-- READY is 1 exactly when PHASE is ACTIVE (R166, R168). -/
  readyActive : s.status.ready = true ↔ s.phase = .active
  /-- READY implies that the geometry check has passed (R214). -/
  readyGeom : s.status.ready = true → s.cfg.geomOk = true
  /-- While INIT runs PHASE is one of its four phases (R167). -/
  initPhase : s.status.op = .init → s.phase.ofInit = true
  /-- Only INIT has an INIT phase (R28). -/
  phaseInit : s.phase.ofInit = true → s.status.op = .init
  /-- REFRESH runs only while READY (R214, R220). -/
  refreshReady : s.status.op = .refresh → s.status.ready = true
  /-- A running op's geometry is good (R211, R217, R241). -/
  opGeom : s.status.busy = true → s.cfg.geomOk = true
  /-- The lines hold the levels the trace last drove (R39). -/
  lines : s.lines = { levelsAfter resetLines s.trace with te := s.lines.te }
  /-- Every byte was sent while the device was selected (R197). -/
  selectedTx : txSelected resetLines s.trace = true
  /-- The device is selected exactly inside a write phase (R191, R195). -/
  csPlace : s.lines.cs = !s.ctl.selected

/-- What an op under way has done to P and WIN, and what it is about to do. -/
structure OpInv (s : State) : Prop where
  /-- WIN is cfg.WIN while INIT runs and while READY (R30, R174, R215). -/
  window : s.status.ready = true ∨ s.status.op = .init → s.win = cfgWindow s.cfg
  /-- While the converter runs its latches hold the current band's bytes, and P holds conv(B) up to its place
  (R134 to R136). -/
  converting : s.ctl = .convert →
    s.conv.inRange s.cfg = true ∧ Latched s
      ∧ ∀ k, k < dstIndex s.cfg s.conv.t s.conv.r s.conv.h →
          s.packedByte k = convByte s.cfg s.bitmapByte k
  /-- After it, and until the op ends, P holds all of conv(B) (R214, R217). -/
  converted : s.status.op = .refresh ∨ s.status.op = .convert → s.ctl ≠ .convert →
    ∀ k, k < s.cfg.n → s.packedByte k = convByte s.cfg s.bitmapByte k
  /-- INIT's transaction is that of the CMD entry at TP (R162). -/
  entryTxn : s.ctl.inTxn = true → s.framer.caller = .entry →
    fetchEntry s = .ok (.cmd s.framer.op s.framer.pl, 2 + s.framer.pl.length)
  /-- REFRESH's transaction k has its opcode, and the window's bytes or all of P (R214). -/
  refreshTxn : ∀ k, s.ctl.inTxn = true → s.framer.caller = .refresh k →
    s.framer.op = refreshOp k ∧ s.framer.pl = s.refreshPayload k
  /-- The payload counter agrees with the place in the transaction (R191). -/
  counts : s.framer.counts s.ctl
  /-- A delay is that of the DELAY entry at TP (R163), with no more ticks left than were loaded (log entry 10). -/
  delaying : s.ctl = .delay →
    ∃ ms, fetchEntry s = .ok (.delay ms, 3)
      ∧ s.delayCtr ≤ s.cfg.ticksPerMs * ms.toNat + Config.delayExtra (s.fresh - 1)
  /-- TP is about to move past the entry at TP, an RST_LOW or an RST_HIGH (R161, R164, R165). -/
  advancing : ∀ len, s.ctl = .advance len →
    fetchEntry s = .ok (.rstLow, len) ∨ fetchEntry s = .ok (.rstHigh, len)

/-- What the trace holds. -/
structure TraceInv (s : State) : Prop where
  /-- The trace is whole transactions, waits and reset drives, and then the part of the one under way (R191,
  R194, R198); each opcode byte went out at CS = 0 and DC = 0, each payload byte at CS = 0 and DC = 1 (R197). -/
  framed : ∃ items : List TraceItem,
    s.trace = items.flatMap TraceItem.events ++ s.openEvents
      ∧ sentBytes resetLines s.trace = items.flatMap TraceItem.bytes ++ s.openBytes
  /-- While INIT runs the trace ends with the events of the table's entries up to TP, in order, and the part of
  the entry under way (R161, R170). -/
  initTrace : s.status.op = .init → ∃ before, s.initFrom before
  /-- While READY the trace holds the events of the whole table, in order, up to the END entry at TP (R166, R168,
  R170). -/
  readyTrace : s.status.ready = true →
    ∃ before es after, s.trace = before ++ es.flatMap entryEvents ++ after ∧ s.ranEntries es
      ∧ fetchEntry s = .ok (.endEntry, 1)
  /-- While REFRESH sends, the trace ends with its transactions before the one under way, and the part of that
  one (R214, R224). -/
  refreshTrace : ∀ k, s.ctl.inTxn = true → s.framer.caller = .refresh k →
    ∃ before, s.trace = before ++ s.framesBefore k ++ s.openEvents

/-- What holds in every state the machine can reach, also while the host's accesses fall into an op. -/
structure Inv (s : State) : Prop extends BlockInv s, OpInv s, TraceInv s

end Sys2Proof.Machine
end

