-- ==== Sys2Proof/Certificates/Slice0/Obligations.lean ====
section
/-! DEFINITION. The statements about the machine. -/

open Sys2Proof Sys2Proof.Machine

/-! ## Encoding -/

/-- Decoding the encoding of a well-formed instruction of any of the three formats gives it back, with
every operand at every value (30_encoding.md R91, R92, R99 to R101). For the two reserved rows that is the
model's choice (log entry 29): decode answers .ok with a row of the header's own, where R92 returns
Err(TBL_ERR); that row's meaning raises the TBL_ERR (statement ReservedHeaderRaisesTblErr). -/
def Obligations.DecodeInvertsEncode : Prop :=
  ∀ i : Instr, wellFormed i = true → decode (encode i) = .ok i

/-- Words written out from the spec's encodings decode to their instructions (the examples of R162, R163,
R164 to R166 and the codes of R99, R100). The two clauses on a reserved header of R97, [0x41] and [0xFE], are the
model's choice (log entry 29): decodeEntry answers a row of the header's own with length 1, where R92 and the
vectors L2-D10 and L2-D13 return Err and R91 gives no length. -/
def Obligations.WrittenWordsDecode : Prop :=
  decodeEntry [0x01, 0x36, 0x48] = .ok (.cmd 0x36 [0x48], 3)
    ∧ decodeEntry [0x40, 0x00, 0x78] = .ok (.delay 120, 3)
    ∧ decodeEntry [0x80] = .ok (.rstLow, 1)
    ∧ decodeEntry [0x81] = .ok (.rstHigh, 1)
    ∧ decodeEntry [0xFF] = .ok (.endEntry, 1)
    ∧ decodeEntry [0x41] = .ok (.reservedEntryLow 0x41, 1)
    ∧ decodeEntry [0xFE] = .ok (.reservedEntryHigh 0xFE, 1)
    ∧ decodeCtrl 9 = .init 1
    ∧ decodeWire 0x2A [0x00, 0x01] = .colAddrSet [0x00, 0x01]
    ∧ decodeWire 0xC0 [0x12] = .opaqueOp 0xC0 [0x12]

/-- An entry that decodes is well formed, has the length of R92, lies inside the table, and its bytes are
the encoding of R91. A reserved header decodes to a row of its own with length 1 by the model's choice, where
R92 returns Err and R91 gives no length (log entry 29). -/
def Obligations.DecodedEntryIsItsBytes : Prop :=
  ∀ (bs : List Byte) (i : Instr) (len : Nat), decodeEntry bs = .ok (i, len) →
    wellFormed i = true ∧ len = entryLen i ∧ len ≤ bs.length ∧ bs.take len = entryBytes i

/-- The model's decoder rejects exactly causes a and b of R243: the table has ended there, or a CMD or DELAY
entry extends past its end. On a reserved header, cause c, R92 returns Err too; there the model's decoder gives
the header's own row, which is the model's choice (log entry 29), and that row's meaning raises the TBL_ERR
(statement ReservedHeaderRaisesTblErr). -/
def Obligations.UndecodableExactlyWhenCutOff : Prop :=
  ∀ bs : List Byte,
    (decodeEntry bs = .error .ranOff ↔ bs = [])
      ∧ ∀ h : Byte, decodeEntry bs = .error (.truncated h) ↔
          bs.head? = some h ∧ ((h.toNat < 64 ∧ bs.length < 2 + h.toNat) ∨ (h = 0x40 ∧ bs.length < 3))

/-- The table of an admitted configuration decodes entry by entry, in order, to INIT_TABLE(cfg): so it
raises no TBL_ERR (R243, R160, R10). -/
def Obligations.AdmittedTableDecodesEntryByEntry : Prop :=
  ∀ (c : Cfg) (before after : List Instr) (e : Instr), c.admitted = true →
    initTable c = before ++ e :: after →
    decodeEntry ((tableRom c).drop (encodeTable before).length) = .ok (e, entryLen e)

/-- The seven checks of R10, each spelled out. A configuration that passes all of them is built into the reset
state with its table in T; any other is refused, and the refusal names a check it fails. -/
def Obligations.OnlyAdmittedConfigurationsAreBuilt : Prop :=
  ∀ c : Cfg,
    (c.passes .bytes = true ↔
        (∀ op pl, CfgEntry.cmd op pl ∈ c.configEntries → op < 256 ∧ ∀ b ∈ pl, b < 256)
          ∧ (∀ b ∈ c.madctlPl ++ c.colmodPl ++ c.pmPl, b < 256)
          ∧ (c.winCs0 < 256 ∧ c.winCe0 < 256 ∧ c.winRs0 < 256 ∧ c.winRe0 < 256 ∧ c.pmOpcode < 256)
          ∧ ∀ p ∈ c.frOptions, p.1 < 256 ∧ ∀ b ∈ p.2, b < 256)
      ∧ (c.passes .delay = true ↔
        (c.tRstLow < 65536 ∧ c.tRstSettle < 65536 ∧ c.tSleepout < 65536 ∧ c.tDispon < 65536)
          ∧ ∀ ms, CfgEntry.delay ms ∈ c.configEntries → ms < 65536)
      ∧ (c.passes .plLen = true ↔ ∀ op pl, Instr.cmd op pl ∈ initTable c → pl.length ≤ 63)
      ∧ (c.passes .config = true ↔
        ∀ e ∈ c.configEntries, (∃ op pl, e = .cmd op pl) ∨ ∃ ms, e = .delay ms)
      ∧ (c.passes .fr = true ↔
        (c.frSel = none ↔ c.frOptions = [])
          ∧ ∀ k, c.frSel = some k → k < c.frOptions.length
            ∧ ∃ j op pl, c.frIndex = some j ∧ c.configEntries[j]? = some (.cmd op pl))
      ∧ (c.passes .tbl = true ↔ (encodeTable (initTable c)).length ≤ 65536)
      ∧ (c.passes .dim = true ↔ c.w < 65536 ∧ c.h < 65536)
      ∧ ((∀ k, c.passes k = true) → build c = .ok (State.resetWith c (tableRom c) 0))
      ∧ ∀ k, c.passes k = false → ∃ k', build c = .error k' ∧ c.passes k' = false

/-- Frame-rate substitution: with FR_SEL = k and FR_INDEX = j the table is that of the configuration whose
PM_OPCODE is the selected pair's opcode and whose CMD entry j carries its payload; with no selection both
stay (R172). -/
def Obligations.FrameRateSubstitution : Prop :=
  ∀ c : Cfg,
    (c.frSel = none → c.pmOpcode' = c.pmOpcode ∧ c.configEntries' = c.configEntries)
      ∧ ∀ (k lpOp op : Nat) (hpPl pl : List Nat) (before after : List CfgEntry),
          c.frSel = some k → c.frOptions[k]? = some (lpOp, hpPl) →
          c.configEntries = before ++ .cmd op pl :: after → c.frIndex = some before.length →
          initTable c = initTable { c with
            configEntries := before ++ .cmd op hpPl :: after
            pmOpcode := lpOp
            frOptions := []
            frSel := none
            frIndex := none }

/-! ## The converter -/

/-- The bits of the interleave (R131). -/
def Obligations.InterleavePlacesEveryBit : Prop :=
  ∀ (a c : BitVec 4) (n : Nat), n < 4 →
    (il a c).getLsbD (7 - 2 * n) = a.getLsbD n ∧ (il a c).getLsbD (6 - 2 * n) = c.getLsbD n

/-- The source's two examples (R142). -/
def Obligations.InterleaveWorkedExamples : Prop :=
  bandByte false 0x01 0x00 = 0x80 ∧ bandByte true 0x10 0x00 = 0x80

/-- CONVERT, accepted: P becomes conv(B) byte for byte, and nothing else changes but DONE and the working
registers; no event is emitted (R217). -/
def Obligations.ConvertFillsThePackedBuffer : Prop :=
  ∀ (ign : BitVec 29) (s : State), Quiet s → s.status.busy = false → s.cfg.geomOk = true →
    ∃ t : State, exec (.convert ign) s = .next t
      ∧ (∀ k, k < s.cfg.n → t.packedByte k = convByte s.cfg s.bitmapByte k)
      ∧ (∀ k, s.cfg.n ≤ k → t.packed.read k = s.packed.read k)
      ∧ t = { s with
          packed := t.packed
          conv := t.conv
          status := { s.status with done := true, busy := false, op := .none }
          ctl := .idle }

/-- CONVERT is pixel exact: the closed form of R137 for every bit of P. -/
def Obligations.ConversionIsPixelExact : Prop :=
  ∀ (ign : BitVec 29) (s : State), Quiet s → s.status.busy = false → s.cfg.geomOk = true →
    ∃ t : State, exec (.convert ign) s = .next t
      ∧ ∀ k n : Nat, k < s.cfg.n → n < 4 →
          (t.packedByte k).getLsbD (7 - 2 * n)
              = pix s.cfg s.bitmapByte (2 * (k / (s.cfg.h / 4)))
                  (8 * (k % (s.cfg.h / 4) / 2) + 4 * (k % (s.cfg.h / 4) % 2) + n)
            ∧ (t.packedByte k).getLsbD (6 - 2 * n)
              = pix s.cfg s.bitmapByte (2 * (k / (s.cfg.h / 4)) + 1)
                  (8 * (k % (s.cfg.h / 4) / 2) + 4 * (k % (s.cfg.h / 4) % 2) + n)

/-- Every bit of P carries one pixel, and every pixel of the bitmap stands in exactly one bit of P
(R138). -/
def Obligations.PixelMapIsABijection : Prop :=
  ∀ c : Cfg, c.geomOk = true →
    (∀ (b : Nat → Byte) (k j : Nat), k < c.n → j < 8 →
      (pixelOf c k j).1 < c.w ∧ (pixelOf c k j).2 < c.h
        ∧ (convByte c b k).getLsbD j = pix c b (pixelOf c k j).1 (pixelOf c k j).2)
      ∧ ∀ x y : Nat, x < c.w → y < c.h →
          ∃ k j : Nat, (k < c.n ∧ j < 8 ∧ pixelOf c k j = (x, y))
            ∧ ∀ k' j' : Nat, k' < c.n → j' < 8 → pixelOf c k' j' = (x, y) → k' = k ∧ j' = j

/-- CONVERT with a geometry that fails the check: GEOM_ERR with LOC 0 and OPC 0, DONE cleared, and nothing
else changes: not P, READY or PHASE, and no event (R217, R241, R250). -/
def Obligations.ConvertGeometryErrorChangesNothingElse : Prop :=
  ∀ (ign : BitVec 29) (s : State), s.status.busy = false → s.status.op = .none →
    s.cfg.geomOk = false →
    exec (.convert ign) s = .next { s with
      status := { s.status with done := false, geomErr := true }
      errinfo := ⟨some .geom, 0, 0⟩
      ctl := .idle }

/-! ## Host commands -/

/-- NOP, any CTRL value whose bits 2..0 are 0, does nothing, in every state (R210). -/
def Obligations.NopChangesNothing : Prop :=
  ∀ s : State, (∀ ign : BitVec 29, exec (.nop ign) s = .next s)
    ∧ ∀ v : Word, v.extractLsb' 0 3 = 0 → exec (decodeCtrl v) s = .next s

/-- The acceptance procedure for every value written to CTRL; a refused command changes CMD_ERR and ERRINFO
and nothing else (R220). -/
def Obligations.AcceptanceProcedure : Prop :=
  ∀ (v : Word) (s : State),
    exec (decodeCtrl v) s =
      if v.extractLsb' 0 3 = 0 then .next s
      else if s.status.busy = true ∨ 4 ≤ (v.extractLsb' 0 3).toNat
          ∨ (v.extractLsb' 0 3 = 2 ∧ s.status.ready = false) then
        .next { s with
          status := { s.status with cmdErr := true }
          errinfo := ⟨some .cmd, v.extractLsb' 0 8, 0⟩ }
      else if v.extractLsb' 0 3 = 1 then .next (startInit s)
      else if v.extractLsb' 0 3 = 2 then .next (startRefresh s)
      else .next (startConvertOp s)

/-- A reserved command, any CTRL value whose bits 2..0 are 4 to 7, is refused whether or not an op runs:
CMD_ERR, ERRINFO with OPC the written value's bits 7..0, and nothing else (R219). -/
def Obligations.ReservedCommandIsRefused : Prop :=
  ∀ s : State,
    (∀ (ign : BitVec 29) (low : BitVec 2),
      exec (.reservedCtrl ign low) s = .next { s with
        status := { s.status with cmdErr := true }
        errinfo := ⟨some .cmd, (ctrlWord (.reservedCtrl ign low)).extractLsb' 0 8, 0⟩ })
      ∧ ∀ v : Word, 4 ≤ (v.extractLsb' 0 3).toNat →
        exec (decodeCtrl v) s = .next { s with
          status := { s.status with cmdErr := true }
          errinfo := ⟨some .cmd, v.extractLsb' 0 8, 0⟩ }

/-- INIT, accepted with a good geometry: DONE and READY cleared, BUSY and OP set, WIN loaded, TP 0, PHASE
RESET, and the sequencer at the table's first entry (R211, R22, R28, R30). That all of it takes effect with
the CTRL write is the model's (log entry 8). -/
def Obligations.InitIsAccepted : Prop :=
  ∀ (ign : BitVec 29) (s : State), s.status.busy = false → s.cfg.geomOk = true →
    exec (.init ign) s = .next { s with
      status := { s.status with done := false, ready := false, busy := true, op := .init }
      win := ⟨byteOf s.cfg.winCs0, byteOf s.cfg.winCe0, byteOf s.cfg.winRs0, byteOf s.cfg.winRe0⟩
      tp := 0
      tpPast := false
      phase := .reset
      ctl := .fetch }

/-- INIT with a geometry that fails the check: GEOM_ERR, READY and DONE cleared, PHASE FAULT; WIN, TP, the
buffers and the trace keep their values (R211, R212, R241). -/
def Obligations.InitGeometryErrorEmitsNothing : Prop :=
  ∀ (ign : BitVec 29) (s : State), s.status.busy = false → s.status.op = .none →
    s.cfg.geomOk = false →
    exec (.init ign) s = .next { s with
      status := { s.status with done := false, ready := false, geomErr := true }
      errinfo := ⟨some .geom, 0, 0⟩
      phase := .fault
      ctl := .idle }

/-- REFRESH, accepted: P becomes conv(B) before any event, and the column window command stands in the
framer; BUSY, OP and DONE are as R214 says and nothing else changes. That the instruction stops there, with
each transaction a step of its own, is the model's choice (log entry 20). -/
def Obligations.RefreshConvertsFirst : Prop :=
  ∀ (ign : BitVec 29) (s : State), Quiet s → s.status.busy = false → s.status.ready = true →
    s.cfg.geomOk = true →
    ∃ t : State, exec (.refresh ign) s = .next t
      ∧ (∀ k, k < s.cfg.n → t.packedByte k = convByte s.cfg s.bitmapByte k)
      ∧ (∀ k, s.cfg.n ≤ k → t.packed.read k = s.packed.read k)
      ∧ t = { s with
          packed := t.packed
          conv := t.conv
          status := { s.status with done := false, busy := true, op := .refresh }
          framer := ⟨0x2A, [s.win.cs0, s.win.ce0], 0, .refresh 0⟩
          ctl := .present }

/-- A REFRESH whose six write phases succeed sends the column window, the row window and the whole of
conv(B), in that order, and ends with DONE; B, WIN, PHASE and READY stay (R214, R224). -/
def Obligations.RefreshSendsTheWholeFrame : Prop :=
  ∀ (ign : BitVec 29) (s : State) (later : List Draw), Quiet s → s.status.busy = false →
    s.status.ready = true → s.cfg.geomOk = true →
    s.draws = [.ok, .ok, .ok, .ok, .ok, .ok] ++ later →
    ∃ t0 t : State, exec (.refresh ign) s = .next t0 ∧ Reaches t0 t
      ∧ t.trace = s.trace
          ++ okFrame 0x2A [s.win.cs0, s.win.ce0]
          ++ okFrame 0x2B [s.win.rs0, s.win.re0]
          ++ okFrame 0x2C ((List.range s.cfg.n).map (convByte s.cfg s.bitmapByte))
      ∧ (∀ k, k < s.cfg.n → t.packedByte k = convByte s.cfg s.bitmapByte k)
      ∧ t = { s with
          packed := t.packed
          conv := t.conv
          status := { s.status with done := true, busy := false, op := .none }
          framer := t.framer
          lines := { s.lines with cs := true, dc := true }
          trace := t.trace
          draws := later
          ctl := .idle }

/-! ## Wire transactions -/

/-- SLEEP_OUT, DISPLAY_ON, COL_ADDR_SET, ROW_ADDR_SET, MEM_WRITE, MEM_ACCESS_CTRL, PIXEL_FORMAT and OPAQUE,
sent by a CMD entry, with every write phase answered OK: exactly the events of R191, TP moves past the
entry, SLEEP_OUT leaves PHASE at SLEEPOUT (log entry 13), and nothing else changes (R191, R161, R167). -/
def Obligations.WireRowSendsItsTransaction : Prop :=
  ∀ (i : Instr) (op : Byte) (pl : List Byte) (s : State) (later : List Draw),
    wireSends i = some (op, pl) → Quiet s → s.framer.caller = .entry →
    s.draws = List.replicate (txnPhases pl) .ok ++ later →
    s.tp.toNat + (2 + pl.length) < 65536 →
    exec i s = .next { s with
      phase := if i = .sleepOut pl then .sleepout else s.phase
      tp := BitVec.ofNat 16 (s.tp.toNat + (2 + pl.length))
      framer := ⟨op, pl, pl.length, .entry⟩
      lines := { s.lines with cs := true, dc := true }
      trace := s.trace ++ okFrame op pl
      draws := later
      ctl := .fetch }

/-- The same rows as transaction k of REFRESH: the events of R191, and then the next transaction, or the
end of the op after the third (R214). -/
def Obligations.WireRowServesRefresh : Prop :=
  ∀ (i : Instr) (op : Byte) (pl : List Byte) (s : State) (later : List Draw) (k : Fin 3),
    wireSends i = some (op, pl) → Quiet s → s.framer.caller = .refresh k →
    s.draws = List.replicate (txnPhases pl) .ok ++ later →
    ∃ t : State, exec i s = .next t
      ∧ t = { s with
          status := if k = 2 then { s.status with done := true, busy := false, op := .none }
            else s.status
          framer := t.framer
          lines := { s.lines with cs := true, dc := true }
          trace := s.trace ++ okFrame op pl
          draws := later
          ctl := if k = 2 then .idle else .present }
      ∧ (k = 0 → t.framer = ⟨0x2B, [s.win.rs0, s.win.re0], 0, .refresh 1⟩)
      ∧ (k = 1 → t.framer = ⟨0x2C, s.packedBytes, 0, .refresh 2⟩)

/-- A write phase that fails ends the transaction with FAIL and CS(1) and raises BUS_ERR with the opcode:
at a CMD entry LOC is TP and, INIT running, READY is cleared and PHASE is FAULT; in REFRESH LOC is the
transaction's number and READY and PHASE stay (R191, R242, R250, R251). The answers are as many as the
transaction draws: one suffices where the first is FAIL (R193). -/
def Obligations.WriteFailureRaisesBusErr : Prop :=
  ∀ (i : Instr) (op : Byte) (pl : List Byte) (s : State),
    wireSends i = some (op, pl) → Quiet s → (txnSpec op pl s.draws).2.2 ≤ s.draws.length →
    (txnSpec op pl s.draws).2.1 = false →
    (s.framer.caller = .entry ↔ s.status.op = .init) →
    ∃ t : State, exec i s = .next t
      ∧ t.trace = s.trace ++ (txnSpec op pl s.draws).1
      ∧ t.draws = s.draws.drop (txnSpec op pl s.draws).2.2
      ∧ t.status = { s.status with
          busErr := true
          busy := false
          op := .none
          ready := if s.framer.caller = .entry then false else s.status.ready }
      ∧ (s.framer.caller = .entry → t.phase = .fault ∧ t.errinfo = ⟨some .bus, op, s.tp⟩)
      ∧ (∀ k, s.framer.caller = .refresh k →
          t.phase = s.phase ∧ t.errinfo = ⟨some .bus, op, BitVec.ofNat 16 k.val⟩)
      ∧ t = { s with
          status := t.status
          phase := t.phase
          errinfo := t.errinfo
          framer := t.framer
          lines := { s.lines with cs := true, dc := s.draws.head? == some .ok }
          trace := t.trace
          draws := t.draws
          ctl := .idle }

/-- A command with an empty payload emits exactly CS(0) DC(0) TX(op) CS(1) DC(1) (R192). -/
def Obligations.CommandOnlyTransaction : Prop :=
  ∀ (i : Instr) (op : Byte) (s : State) (later : List Draw),
    wireSends i = some (op, []) → Quiet s → s.draws = .ok :: later →
    ∃ t : State, exec i s = .next t
      ∧ t.trace = s.trace ++ [.cs false, .dc false, .tx op, .cs true, .dc true]
      ∧ t.draws = later

/-- The line levels a transaction leaves: CS = 1 always, DC = 0 exactly when its opcode phase failed, RST
as before (R195); with an answer for each draw it takes (R193). -/
def Obligations.LineLevelsAfterATransaction : Prop :=
  ∀ (i : Instr) (op : Byte) (pl : List Byte) (s : State),
    wireSends i = some (op, pl) → Quiet s → (txnSpec op pl s.draws).2.2 ≤ s.draws.length →
    ∃ t : State, exec i s = .next t
      ∧ t.lines.cs = true
      ∧ (t.lines.dc = false ↔ s.draws.head? = some .fail)
      ∧ t.lines.rst = s.lines.rst

/-- The wire view (R196): from the reset levels on, a drive that leaves its line at the level it has is dropped
and every other event stays. So a transaction that succeeds stays whole from CS = 1 and DC = 1, and loses its
DC(0) alone where DC is 0, as after a failed opcode phase (vector L2-W2). -/
def Obligations.WireViewKeepsAWholeTransaction : Prop :=
  (∀ (l : Lines) (tr : List Event),
      wire tr = wireFrom ⟨true, true, true, false⟩ tr
        ∧ (∀ v, wireFrom l (.cs v :: tr)
            = if v = l.cs then wireFrom l tr else .cs v :: wireFrom { l with cs := v } tr)
        ∧ (∀ v, wireFrom l (.dc v :: tr)
            = if v = l.dc then wireFrom l tr else .dc v :: wireFrom { l with dc := v } tr)
        ∧ (∀ v, wireFrom l (.rst v :: tr)
            = if v = l.rst then wireFrom l tr else .rst v :: wireFrom { l with rst := v } tr)
        ∧ (∀ b, wireFrom l (.tx b :: tr) = .tx b :: wireFrom l tr)
        ∧ (∀ ms, wireFrom l (.wait ms :: tr) = .wait ms :: wireFrom l tr)
        ∧ wireFrom l (.fail :: tr) = .fail :: wireFrom l tr)
    ∧ ∀ (l : Lines) (op op' : Byte) (pl : List Byte), l.cs = true →
      (l.dc = true → wireFrom l (okFrame op pl) = okFrame op pl)
        ∧ (l.dc = false → wireFrom l (okFrame op pl)
            = [.cs false, .tx op, .cs true, .dc true]
              ++ if pl.length = 0 then [] else [.cs false] ++ pl.map .tx ++ [.cs true])
        ∧ (l.dc = true →
          wireFrom l ([.cs false, .dc false, .tx op', .fail, .cs true] ++ okFrame op pl)
            = [.cs false, .dc false, .tx op', .fail, .cs true]
              ++ [.cs false, .tx op, .cs true, .dc true]
              ++ if pl.length = 0 then [] else [.cs false] ++ pl.map .tx ++ [.cs true])

/-! ## Table entries -/

/-- RST_LOW and RST_HIGH emit RST(0) and RST(1), whatever the line's level, set its latch and move TP on by
one; nothing else changes; their bytes are 0x80 and 0x81 (R164, R165, R161). -/
def Obligations.ResetLineEntries : Prop :=
  (entryBytes .rstLow = [0x80] ∧ entryBytes .rstHigh = [0x81])
    ∧ ∀ s : State, Quiet s → s.tp.toNat + 1 < 65536 →
    exec .rstLow s = .next { s with
        trace := s.trace ++ [.rst false]
        lines := { s.lines with rst := false }
        tp := BitVec.ofNat 16 (s.tp.toNat + 1)
        ctl := .fetch }
      ∧ exec .rstHigh s = .next { s with
        trace := s.trace ++ [.rst true]
        lines := { s.lines with rst := true }
        tp := BitVec.ofNat 16 (s.tp.toNat + 1)
        ctl := .fetch }

/-- DELAY emits WAIT(ms) and loads the delay counter with TICKS_PER_MS × ms ticks or more; nothing else changes
but the model's count of free values (R163, R24, R257). How many more is a free value (log entry 10). -/
def Obligations.DelayEmitsItsWait : Prop :=
  ∀ (ms : Half) (s : State), Quiet s →
    ∃ n, s.cfg.ticksPerMs * ms.toNat ≤ n
      ∧ exec (.delay ms) s = .next { s with
        trace := s.trace ++ [.wait ms]
        delayCtr := n
        fresh := s.fresh + 1
        ctl := .delay }

/-- A DELAY holds the sequencer at its entry for TICKS_PER_MS × ms ticks or more, and then moves it on by three
bytes (R163, R257, R285): it holds for n ticks, n no less than that and otherwise free. So too from any state inside
a delay, for the ticks left there. That a tick is one step is the model's choice (log entry 10). -/
def Obligations.DelayHoldsItsTicks : Prop :=
  (∀ (ms : Half) (s : State), Quiet s → s.tp.toNat + 3 < 65536 →
    ∃ (n : Nat) (t : State), s.cfg.ticksPerMs * ms.toNat ≤ n
      ∧ exec (.delay ms) s = .next t
      ∧ (∀ k, k ≤ n → Sys2Proof.core.run k t = .next { s with
          trace := s.trace ++ [.wait ms]
          delayCtr := n - k
          fresh := s.fresh + 1
          ctl := .delay })
      ∧ Sys2Proof.core.run (n + 1) t = .next { s with
          trace := s.trace ++ [.wait ms]
          delayCtr := 0
          fresh := s.fresh + 1
          tp := BitVec.ofNat 16 (s.tp.toNat + 3)
          ctl := .fetch })
    ∧ ∀ (s : State) (k : Nat), Quiet s → s.ctl = .delay → s.tp.toNat + 3 < 65536 →
      (k ≤ s.delayCtr →
        Sys2Proof.core.run k s = .next { s with delayCtr := s.delayCtr - k })
        ∧ Sys2Proof.core.run (s.delayCtr + 1) s = .next { s with
            delayCtr := 0
            tp := BitVec.ofNat 16 (s.tp.toNat + 3)
            ctl := .fetch }

/-- CMD moves PHASE by next_phase and hands its transaction to the framer; nothing else changes (R162,
R167). That the transaction is the next step is the model's choice (log entry 20). -/
def Obligations.CmdHandsOverItsTransaction : Prop :=
  ∀ (op : Byte) (pl : List Byte) (s : State), Quiet s →
    exec (.cmd op pl) s = .next { s with
      phase := if op = 0x11 then .sleepout
        else if s.phase = .reset then .configuring
        else if s.phase = .sleepout then .displayon
        else s.phase
      framer := ⟨op, pl, 0, .entry⟩
      ctl := .present }

/-- A CMD entry at TP whose write phases succeed: after its two steps the events of R191 are in the trace
and TP is past the entry (R162, R161; two steps: log entry 20). -/
def Obligations.CmdEntryRuns : Prop :=
  ∀ (op : Byte) (pl : List Byte) (len : Nat) (s : State) (later : List Draw), Quiet s →
    s.ctl = .fetch → fetchEntry s = .ok (.cmd op pl, len) →
    s.draws = List.replicate (txnPhases pl) .ok ++ later →
    s.tp.toNat + (2 + pl.length) < 65536 →
    Sys2Proof.core.run 2 s = .next { s with
      phase := nextPhase s.phase op
      tp := BitVec.ofNat 16 (s.tp.toNat + (2 + pl.length))
      framer := ⟨op, pl, pl.length, .entry⟩
      lines := { s.lines with cs := true, dc := true }
      trace := s.trace ++ okFrame op pl
      draws := later
      ctl := .fetch }

/-- END, byte 0xFF: PHASE ACTIVE, READY and DONE set, OP and BUSY cleared, TP and everything else as before,
no event (R166). -/
def Obligations.EndFinishesInitialisation : Prop :=
  entryBytes .endEntry = [0xFF] ∧ ∀ s : State, Quiet s →
    exec .endEntry s = .next { s with
      phase := .active
      status := { s.status with ready := true, done := true, op := .none, busy := false }
      ctl := .idle }

/-- A reserved header raises TBL_ERR with LOC = TP and OPC = the header, before any effect: no event, and
nothing changes but the error's record and the abort of INIT (R97, R243, R250, R251). -/
def Obligations.ReservedHeaderRaisesTblErr : Prop :=
  ∀ (h : Byte) (s : State), Quiet s → s.status.op = .init →
    exec (.reservedEntryLow h) s = .next { s with
        status := { s.status with tblErr := true, busy := false, op := .none, ready := false }
        errinfo := ⟨some .tbl, h, s.tp⟩
        phase := .fault
        ctl := .idle }
      ∧ exec (.reservedEntryHigh h) s = .next { s with
        status := { s.status with tblErr := true, busy := false, op := .none, ready := false }
        errinfo := ⟨some .tbl, h, s.tp⟩
        phase := .fault
        ctl := .idle }

/-- Where the bytes at TP are no entry the step raises TBL_ERR with LOC = TP, and OPC = 0 when the table ran
out or the header of the cut-off entry (R92, R243). -/
def Obligations.UndecodableEntryRaisesTblErr : Prop :=
  ∀ (e : DecodeError) (s : State), Quiet s → s.ctl = .fetch → s.status.op = .init →
    fetchEntry s = .error e →
    step s = .next { s with
      status := { s.status with tblErr := true, busy := false, op := .none, ready := false }
      errinfo := ⟨some .tbl, match e with | .ranOff => 0 | .truncated h => h, s.tp⟩
      phase := .fault
      ctl := .idle }

/-- INIT of an admitted configuration with a good geometry, with no bus failure and no host access on the
way, runs the whole table: the trace is the events of INIT_TABLE(cfg) in table order, PHASE is ACTIVE,
READY and DONE are set, TP stands at END and WIN is cfg.WIN, however long its delays last (R160, R161, R166, R168,
R170; log entry 10). -/
def Obligations.InitRunsTheWholeTable : Prop :=
  ∀ (ign : BitVec 29) (s : State) (later : List Draw), s.cfg.admitted = true →
    s.cfg.geomOk = true → s.rom = tableRom s.cfg → Quiet s → s.status.busy = false →
    s.draws = List.replicate ((initTable s.cfg).map entryPhases).sum .ok ++ later →
    ∃ t0 t : State, exec (.init ign) s = .next t0 ∧ Reaches t0 t
      ∧ t = { s with
          status := { s.status with done := true, ready := true, busy := false, op := .none }
          phase := .active
          win := cfgWindow s.cfg
          tp := BitVec.ofNat 16 ((tableRom s.cfg).length - 1)
          tpPast := false
          framer := t.framer
          delayCtr := 0
          fresh := t.fresh
          lines := { s.lines with cs := true, dc := true, rst := true }
          trace := s.trace ++ (initTable s.cfg).flatMap entryEvents
          draws := later
          ctl := .idle }

/-- The model's choice where R22 leaves TP's 16 bits open (log entry 9): an entry that ends at address 65536, a
CMD whose write phases succeed, a DELAY, an RST_LOW or an RST_HIGH, has its whole effect and leaves the
sequencer past the table, whatever value TP then reads, and the next step raises TBL_ERR with that value as LOC
and OPC 0. -/
def Obligations.FullTableWithoutEndRunsOff : Prop :=
  ∀ (s : State) (i : Instr) (len : Nat) (later : List Draw), Quiet s → s.ctl = .fetch →
    s.status.op = .init → fetchEntry s = .ok (i, len) → s.tp.toNat + len = 65536 →
    i ≠ .endEntry → (∀ h, i ≠ .reservedEntryLow h) → (∀ h, i ≠ .reservedEntryHigh h) →
    s.draws = List.replicate (entryPhases i) .ok ++ later →
    ∃ t u : State, Reaches s t
      ∧ t = { s with
          phase := match i with | .cmd op _ => nextPhase s.phase op | _ => s.phase
          tp := t.tp
          tpPast := true
          fresh := t.fresh
          framer := t.framer
          delayCtr := t.delayCtr
          lines := levelsAfter s.lines (entryEvents i)
          trace := s.trace ++ entryEvents i
          draws := later
          ctl := .fetch }
      ∧ step t = .next u
      ∧ u = { t with
          status := { s.status with tblErr := true, busy := false, op := .none, ready := false }
          errinfo := ⟨some .tbl, 0, t.tp⟩
          phase := .fault
          ctl := .idle }

/-! ## The host port -/

/-- An aligned register read returns the register's word and has no other effect; a write of a register
other than CTRL and STATUS is ignored (R25, R64). What `takeAccess` changes, here and below, is the queue of
the inputs alone (log entry 3). -/
def Obligations.RegisterAccesses : Prop :=
  ∀ (s : State) (a : Nat) (v : Word) (rest : List HostReq), a < 0x20 → a % 4 = 0 →
    (HostTurn s (.rd a) rest →
      step s = .next { takeAccess rest s with
        answers := s.answers ++ [.word (
          if a = 0x04 then s.status.word
          else if a = 0x08 then s.phase.word
          else if a = 0x0C then s.errinfo.word
          else if a = 0x10 then s.win.word
          else if a = 0x14 then geomWord s.cfg
          else if a = 0x18 then tpWord s.tp
          else 0)] })
      ∧ (HostTurn s (.wr a v) rest → a ≠ 0 → a ≠ 4 → step s = .next (takeAccess rest s))

/-- Where the fields stand in the register words, W and H in GEOM among them (R27 to R30, R32, R33), and the
values of the coded fields OP, PHASE and CODE (R27, R28, R245). -/
def Obligations.RegisterFields : Prop :=
  (∀ (f : Status) (e : ErrInfo) (w : Window) (p : Phase) (tp : Half) (c : Cfg),
    (f.word.getLsbD 0 = f.busy ∧ f.word.getLsbD 1 = f.ready ∧ f.word.getLsbD 2 = f.done
        ∧ f.word.getLsbD 3 = false ∧ f.word.extractLsb' 4 2 = f.op.code
        ∧ f.word.extractLsb' 6 2 = 0 ∧ f.word.getLsbD 8 = f.geomErr ∧ f.word.getLsbD 9 = f.busErr
        ∧ f.word.getLsbD 10 = f.tblErr ∧ f.word.getLsbD 11 = f.cmdErr
        ∧ f.word.extractLsb' 12 20 = 0)
      ∧ (e.word.extractLsb' 0 16 = e.loc ∧ e.word.extractLsb' 16 8 = e.opc
        ∧ e.word.extractLsb' 24 4 = 0 ∧ e.word.extractLsb' 28 4 = errCode e.code)
      ∧ (w.word.extractLsb' 0 8 = w.cs0 ∧ w.word.extractLsb' 8 8 = w.ce0
        ∧ w.word.extractLsb' 16 8 = w.rs0 ∧ w.word.extractLsb' 24 8 = w.re0)
      ∧ (p.word.extractLsb' 0 4 = p.code ∧ p.word.extractLsb' 4 28 = 0)
      ∧ ((tpWord tp).extractLsb' 0 16 = tp ∧ (tpWord tp).extractLsb' 16 16 = 0)
      ∧ (c.w < 65536 → ((geomWord c).extractLsb' 0 16).toNat = c.w)
      ∧ (c.h < 65536 → ((geomWord c).extractLsb' 16 16).toNat = c.h))
    ∧ (OpKind.code .none = 0 ∧ OpKind.code .init = 1 ∧ OpKind.code .refresh = 2
      ∧ OpKind.code .convert = 3)
    ∧ (Phase.code .uninit = 0 ∧ Phase.code .reset = 1 ∧ Phase.code .configuring = 2
      ∧ Phase.code .sleepout = 3 ∧ Phase.code .displayon = 4 ∧ Phase.code .active = 5
      ∧ Phase.code .fault = 6)
    ∧ (errCode none = 0 ∧ errCode (some .geom) = 1 ∧ errCode (some .bus) = 2
      ∧ errCode (some .tbl) = 3 ∧ errCode (some .cmd) = 4)

/-- A write of v to STATUS clears DONE and the error flags whose bit of v is 1 and changes nothing else,
also while an op runs (R222). -/
def Obligations.StatusWriteClearsItsBits : Prop :=
  ∀ (s : State) (v : Word) (rest : List HostReq), HostTurn s (.wr 4 v) rest →
    step s = .next { takeAccess rest s with
      status := { s.status with
        done := s.status.done && !v.getLsbD 2
        geomErr := s.status.geomErr && !v.getLsbD 8
        busErr := s.status.busErr && !v.getLsbD 9
        tblErr := s.status.tblErr && !v.getLsbD 10
        cmdErr := s.status.cmdErr && !v.getLsbD 11 } }

/-- The bitmap window: a byte write at index i below N performs B[i] <- v and leaves every other byte; a
read returns B[i]; at and above N a read gives 0 and a write is ignored; no other effect (R65). Where W * H is no
multiple of 8, that N is the floor is the model's choice (log entry 26). -/
def Obligations.BitmapWindowAccesses : Prop :=
  ∀ (s : State) (i : Nat) (v : Byte) (rest : List HostReq), i < 65536 →
    (HostTurn s (.wrb (0x10000 + i) v) rest →
      ∃ t : State, step s = .next t
        ∧ (∀ j, t.bitmapByte j = if j = i ∧ i < s.cfg.n then v else s.bitmapByte j)
        ∧ t = { takeAccess rest s with bitmap := t.bitmap })
      ∧ (HostTurn s (.rdb (0x10000 + i)) rest →
        step s = .next { takeAccess rest s with
          answers := s.answers ++ [.byte (if i < s.cfg.n then s.bitmapByte i else 0)] })

/-- The packed window: a byte read at index k returns P[k] below N and 0 above; every write is ignored
(R66). Where W * H is no multiple of 8, that N is the floor is the model's choice (log entry 26). -/
def Obligations.PackedWindowAccesses : Prop :=
  ∀ (s : State) (k : Nat) (v : Byte) (rest : List HostReq), k < 65536 →
    (HostTurn s (.rdb (0x20000 + k)) rest →
      step s = .next { takeAccess rest s with
        answers := s.answers ++ [.byte (if k < s.cfg.n then s.packedByte k else 0)] })
      ∧ (HostTurn s (.wrb (0x20000 + k) v) rest → step s = .next (takeAccess rest s))

/-- Reserved host addresses read 0 and ignore writes, at either width (R67). That a 32-bit access belongs to the
region of its first byte is the model's choice where its later bytes lie in another (log entry 27). -/
def Obligations.ReservedAddressesReadZero : Prop :=
  ∀ (s : State) (a : Nat) (v : Word) (b : Byte) (rest : List HostReq),
    (0x20 ≤ a ∧ a < 0x10000) ∨ (0x30000 ≤ a ∧ a < 0x40000) →
    (HostTurn s (.rd a) rest →
      step s = .next { takeAccess rest s with answers := s.answers ++ [.word 0] })
      ∧ (HostTurn s (.rdb a) rest →
        step s = .next { takeAccess rest s with answers := s.answers ++ [.byte 0] })
      ∧ (HostTurn s (.wr a v) rest → step s = .next (takeAccess rest s))
      ∧ (HostTurn s (.wrb a b) rest → step s = .next (takeAccess rest s))

/-- The model takes no step for a host access of another width or alignment than R62 admits; every other
access to the host space is performed (R61, R62, R67). That a 32-bit access at 0x0FFFD to 0x0FFFF or at 0x3FFFD to
0x3FFFF, which starts at a reserved address and ends in a window or past the host space, is performed too is the
model's choice (log entry 27). -/
def Obligations.OtherWidthsTakeNoStep : Prop :=
  ∀ (s : State) (x : HostAccess) (rest : List HostReq), HostTurn s x rest →
    (x.addr < 0x40000 → admittedAccess x.isByte x.addr = false →
      step s = .refused .hostAccessWidthOrAlignment)
      ∧ (x.addr < 0x40000 → admittedAccess x.isByte x.addr = true → ∃ t, step s = .next t)

/-- A poll of a register reads it like `rd`; it ends when the bit has the value asked for, and is otherwise
tried again, in the model's choice after one micro-step of the block (R105, R64; log entry 16). -/
def Obligations.PollRepeatsUntilItsBit : Prop :=
  ∀ (s : State) (a bit : Nat) (b : Bool) (rest : List HostReq), a < 0x20 → a % 4 = 0 →
    HostTurn s (.poll a bit b) rest →
    step s = .next { takeAccess rest s with
      hostQ := if (readRegister a s).getLsbD bit = b then rest else ⟨1, .poll a bit b⟩ :: rest
      answers := s.answers ++ [.word (readRegister a s)] }

/-- While an op runs an access to a window is neither performed nor answered (R70), and stays first in the
queue; that the accesses behind it wait too follows from their issue order (R76) and is the model's reading (log
entry 19). Every step but a block reset keeps it so. -/
def Obligations.BufferAccessIsHeld : Prop :=
  ∀ (s t : State) (r : HostReq) (rest : List HostReq), s.hostQ = r :: rest →
    isBufferAccess r.access = true → s.status.busy = true → turn s ≠ .reset → step s = .next t →
    t.bitmap = s.bitmap ∧ t.answers = s.answers ∧ ∃ n, t.hostQ = ⟨n, r.access⟩ :: rest

/-! ## Reset -/

/-- Block reset, asserted at any time, gives every register, line and the trace its reset value, empties the
buffers for a new draw and keeps the configuration and T (R270, R271); that the inputs still to come survive it
is the model's choice (log entry 11). At any time (log entry 3): a reset with no moment left before it is the
next step, whatever the engine does; one still to come is the next step of a block that is idle or waits, once
no host access is due; and a host access brings it one moment nearer, so that it may fall between any two. -/
def Obligations.BlockResetAtAnyTime : Prop :=
  ∀ s : State,
    (turn s = .reset →
      ∃ t : State, step s = .next t
        ∧ t.status.word = 0 ∧ t.phase = .uninit ∧ t.errinfo.word = 0 ∧ t.win.word = 0 ∧ t.tp = 0
        ∧ t.ctl = .idle ∧ t.lines.cs = true ∧ t.lines.dc = true ∧ t.lines.rst = true
        ∧ t.trace = []
        ∧ (∀ i, t.bitmapByte i = Config.drawnBitmap (s.epoch + 1) i)
        ∧ (∀ k, t.packedByte k = Config.drawnPacked (s.epoch + 1) k)
        ∧ t.cfg = s.cfg ∧ t.rom = s.rom ∧ t.hostQ = s.hostQ ∧ t.resets = s.resets.tail)
      ∧ ∀ (n : Nat) (later : List Nat),
        (s.resets = 0 :: later → turn s = .reset)
          ∧ (s.resets = n :: later → hostDue s = false → s.ctl = .idle ∨ waiting s = true →
            turn s = .reset)
          ∧ ∀ (t : State) (x : HostAccess) (rest : List HostReq),
            s.resets = (n + 1) :: later → HostTurn s x rest → ctrlWrite x = none →
            step s = .next t → t.resets = n :: later

/-- The state after reset holds the values of R270, with SMALL's W and H and the encoding of its
INIT_TABLE. -/
def Obligations.ResetStateValues : Prop :=
  State.reset.status.word = 0 ∧ State.reset.phase = .uninit ∧ State.reset.errinfo.word = 0
    ∧ State.reset.win.word = 0 ∧ State.reset.tp = 0 ∧ State.reset.ctl = .idle
    ∧ State.reset.lines.cs = true ∧ State.reset.lines.dc = true ∧ State.reset.lines.rst = true
    ∧ State.reset.trace = [] ∧ State.reset.cfg.w = 250 ∧ State.reset.cfg.h = 120
    ∧ State.reset.rom = tableRom State.reset.cfg

/-! ## The machine as a whole -/

/-- A step runs the decoded instruction: the entry at TP, the transaction in the framer, the command of the
CTRL write whose turn it is (R161, R191, R26, R220). -/
def Obligations.StepRunsTheDecodedInstruction : Prop :=
  (∀ (s : State) (i : Instr) (len : Nat), resetDue s = false → hostDue s = false → s.ctl = .fetch →
      fetchEntry s = .ok (i, len) → step s = exec i s)
    ∧ (∀ s : State, resetDue s = false → hostDue s = false → s.ctl = .present →
      step s = exec (decodeWire s.framer.op s.framer.pl) s)
    ∧ ∀ (s : State) (v : Word) (rest : List HostReq), HostTurn s (.wr 0 v) rest →
      step s = exec (decodeCtrl v) (takeAccess rest s)

/-- Every step keeps the invariant `Inv`, whatever host accesses and block resets come, a poll of STATUS inside an
op among them (R105, R221, R223). Of every state:
the buffers are canonical and inside N, BUSY, OP, PHASE, READY and DONE agree with the engine's place, the lines hold
what the trace drove last (R27, R28, R39, R141, R167, R168);
WIN is cfg.WIN while INIT runs and while READY (R30, R174, R215); while the converter runs its latches hold the current
band's bytes and P is conv(B) below its place, and from there to the end of REFRESH or CONVERT all of P is conv(B)
(R134 to R136, R214, R217); the framer's transaction is the CMD entry's at TP or REFRESH's and its counter agrees with
its place (R162, R191, R214); a delay is that of the entry at TP (R163);
the trace is whole transactions, waits and reset drives and then what the one under way has emitted, each opcode byte
sent at CS = 0 and DC = 0, each payload byte at CS = 0 and DC = 1 (R191, R194, R197); while INIT runs it ends with the
events of the entries the table's bytes decode to, one after the other, from address 0 to TP, and of the entry at TP
so far, and while READY it holds in one piece those of all entries before the END at TP (R161, R166, R170); in REFRESH
it ends with the transactions before the one under way (R214, R224).
The model's choices in it: no state has OP = INIT with the old PHASE, WIN or TP (initPhase, phaseInit, window,
initTrace: log entry 8, unsafe) or with PHASE = FAULT (initPhase: log entry 28, unsafe); past address 65535 TP is a
free value (ranEntries' branch for tpPast: log entry 9); a delay's ticks left are bounded by those loaded, a free
number beyond the spec's least (delaying: log entry 10). -/
def Obligations.StepKeepsInvariant : Prop :=
  ∀ s t : State, Inv s → step s = .next t → Inv t

/-- The invariant holds after reset. -/
def Obligations.ResetHasInvariant : Prop := Inv State.reset

/-- No step changes the configuration or the table ROM (R21, R37, R79). -/
def Obligations.StepKeepsConfigurationAndTable : Prop :=
  ∀ s t : State, step s = .next t → t.cfg = s.cfg ∧ t.rom = s.rom

/-- No rule reads the TE line: the machine does the same at either level of it (R39). -/
def Obligations.TearingEnableIsNeverRead : Prop :=
  ∀ (s : State) (b : Bool),
    step { s with lines := { s.lines with te := b } } =
      match step s with
      | .next t => .next { t with lines := { t.lines with te := b } }
      | .fault f => .fault f
      | .refused r => .refused r

/-- While an op runs and the table has not been passed, TP never goes down (R169, R22). The premise t.tpPast = false
leaves out a step that passes address 65535 and any state after it: there TP's 16 bits are a free value, which may
read lower (log entry 9). -/
def Obligations.TablePointerOnlyGrows : Prop :=
  ∀ s t : State, s.status.busy = true → step s = .next t → t.status.busy = true →
    t.tpPast = false → s.tp.toNat ≤ t.tp.toNat

/-- READY is set only by the END entry at TP (R168, R166). -/
def Obligations.OnlyEndSetsReady : Prop :=
  ∀ s t : State, step s = .next t → s.status.ready = false → t.status.ready = true →
    s.ctl = .fetch ∧ ∃ len, fetchEntry s = .ok (.endEntry, len)

/-- Only the host's byte writes inside the bitmap window, made while no op runs, and block reset change B
(R35, R70). -/
def Obligations.OnlyTheHostWritesTheBitmap : Prop :=
  ∀ s t : State, step s = .next t → t.bitmap ≠ s.bitmap →
    turn s = .reset
      ∨ ∃ i v rest, turn s = .access (.wrb (0x10000 + i) v) rest ∧ i < 65536 ∧ i < s.cfg.n
          ∧ s.status.busy = false

/-- Only a conversion of REFRESH or CONVERT and block reset change P (R36): the conversion goes on, or the host
writes a REFRESH or a CONVERT that is accepted. And whatever host accesses have come while a REFRESH or a CONVERT
ran, the step that ends it with DONE, a CONVERT's own CTRL write where nothing cuts it, leaves P = conv(B)
(R214, R217, R221). -/
def Obligations.OnlyTheConverterWritesThePackedBuffer : Prop :=
  ∀ s t : State, step s = .next t →
    (t.packed ≠ s.packed →
      turn s = .reset ∨ (turn s = .block ∧ s.ctl = .convert)
        ∨ ∃ v rest, turn s = .command v rest ∧ s.status.busy = false
            ∧ ((v.extractLsb' 0 3 = 2 ∧ s.status.ready = true)
              ∨ (v.extractLsb' 0 3 = 3 ∧ s.cfg.geomOk = true)))
      ∧ (Inv s →
        (s.status.op = .refresh ∨ s.status.op = .convert
          ∨ ∃ v rest, turn s = .command v rest ∧ s.status.busy = false ∧ v.extractLsb' 0 3 = 3) →
        t.status.done = true → ∀ k, k < t.cfg.n → t.packedByte k = convByte t.cfg t.bitmapByte k)

/-- No event is ever taken back: in every step but a block reset the trace only grows at its end (R75,
R252). Whatever host accesses come while it runs, CONVERT adds nothing to it (R217), and the step that ends a
REFRESH with DONE leaves it ending with the column window, the row window and all of conv(B), with nothing in
between (R214, R221, R224). INIT adds to the trace of its acceptance the events of the table's entries from address 0
on, each once and in order, with nothing in between, and those of the entry at TP as far as it has gone; when it ends
with READY they are those of all entries before END, and when it ends without, those of all entries before the failing
one and, at BUS_ERR, of that one's failed transaction (R161, R170, R191, R251). The model's choices in that: INIT's
lines up to its first entry take effect at once (log entry 8), so do raise and abort (log entry 28), and past address
65535 TP is a free value (log entry 9). -/
def Obligations.TraceOnlyGrows : Prop :=
  ∀ s t : State, turn s ≠ .reset → step s = .next t →
    (∃ more, t.trace = s.trace ++ more)
      ∧ (Inv s →
        (s.status.op = .convert
          ∨ ∃ v rest, turn s = .command v rest ∧ s.status.busy = false ∧ v.extractLsb' 0 3 = 3) →
        t.trace = s.trace)
      ∧ (Inv s → s.status.op = .refresh → t.status.done = true →
        ∃ before, t.trace = before
          ++ okFrame 0x2A [t.win.cs0, t.win.ce0]
          ++ okFrame 0x2B [t.win.rs0, t.win.re0]
          ++ okFrame 0x2C ((List.range t.cfg.n).map (convByte t.cfg t.bitmapByte)))
      ∧ (Inv s → s.status.busy = false → t.status.op = .init → t.initFrom s.trace)
      ∧ (Inv s → s.status.op = .init → ∀ before, s.initFrom before →
        (t.status.op = .init → t.initFrom before)
          ∧ (t.status.op ≠ .init → ∃ es last,
            t.trace = before ++ es.flatMap entryEvents ++ last ∧ t.ranEntries es
              ∧ if t.status.ready = true then last = [] ∧ fetchEntry t = .ok (.endEntry, 1)
                else if t.errinfo.code = some .bus then
                  last = t.framer.failed ++ [.cs true]
                    ∧ fetchEntry t
                      = .ok (.cmd t.framer.op t.framer.pl, 2 + t.framer.pl.length)
                else last = []))

/-- With no answer to draw_bus() and no input the block is stuck: nothing changes, and no error is raised
(R246, R292). That its step answers the same state is the model's choice (log entry 5). -/
def Obligations.BlockWaitsForTheEnvironment : Prop :=
  ∀ s : State, Quiet s → s.draws = [] → (s.ctl = .txn .opDraw ∨ s.ctl = .txn .plDraw) →
    step s = .next s

/-- The model's choice (log entry 17): with no op running and no input the machine stays as it is (R261,
R272). -/
def Obligations.IdleBlockHoldsItsState : Prop :=
  ∀ s : State, Quiet s → s.ctl = .idle → step s = .next s

/-- No error stops the block (R240): a step has a next state, but for a host access that R62 does not admit or
an address outside the 18-bit host space, which faults in the model (log entry 12). The model's choices among those
next states: a block that waits for an answer of the environment, which by R246 has no step, steps to the same state
(log entry 5); so does an idle block with no input (log entry 17); and a word access that starts at a reserved
address and covers a window or runs past the host space is performed (log entry 27). -/
def Obligations.OnlyHostAccessesStopTheMachine : Prop :=
  ∀ s : State,
    ((∃ t, step s = .next t)
      ∨ ∃ x rest, HostTurn s x rest ∧ (0x40000 ≤ x.addr ∨ admittedAccess x.isByte x.addr = false))
      ∧ ∀ x rest, HostTurn s x rest → 0x40000 ≤ x.addr → step s = .fault .noSuchHostAddress
end

