-- ==== Sys2Proof/Laws/Memory.lean ====
section
/-! SUPPORT. The buffers' memory: what a read sees after a write, and that a write keeps the canonical
form. -/

namespace Sys2Proof.Machine

@[simp] theorem Memory.read_nil (a : Nat) : Memory.read [] a = none := rfl

/-- What a write does: the byte is there, every other index reads as before. -/
theorem Memory.read_write (m : Memory) (a b : Nat) (v : Byte) :
    (m.write a v).read b = if b = a then some v else m.read b := by
  induction m with
  | nil =>
    by_cases hb : b = a
    · subst hb; simp [Memory.write, Memory.read]
    · simp [Memory.write, Memory.read, hb, Ne.symm hb]
  | cons c m ih =>
    obtain ⟨k, x⟩ := c
    by_cases h1 : a < k
    · by_cases hb : b = a
      · subst hb; simp [Memory.write, Memory.read, h1]
      · simp [Memory.write, Memory.read, h1, hb, Ne.symm hb]
    · by_cases h2 : a = k
      · subst h2
        by_cases hb : b = a
        · subst hb; simp [Memory.write, Memory.read]
        · simp [Memory.write, Memory.read, hb, Ne.symm hb]
      · by_cases hk : k = b
        · subst hk
          have hne : ¬ k = a := fun e => h2 e.symm
          simp [Memory.write, Memory.read, h1, h2, hne]
        · simp [Memory.write, Memory.read, h1, h2, hk, ih]

theorem Memory.risingFrom_write (a : Nat) (v : Byte) :
    ∀ (m : Memory) (lo : Nat), lo ≤ a → Memory.risingFrom lo m = true →
      Memory.risingFrom lo (m.write a v) = true := by
  intro m
  induction m with
  | nil => intro lo ha _; simp [Memory.write, Memory.risingFrom, ha]
  | cons c m ih =>
    obtain ⟨k, x⟩ := c
    intro lo ha hm
    simp only [Memory.risingFrom, Bool.and_eq_true, decide_eq_true_eq] at hm
    unfold Memory.write
    split_ifs with h1 h2
    · simp only [Memory.risingFrom, Bool.and_eq_true, decide_eq_true_eq]
      exact ⟨ha, by omega, hm.2⟩
    · subst h2
      simp only [Memory.risingFrom, Bool.and_eq_true, decide_eq_true_eq]
      exact ⟨ha, hm.2⟩
    · simp only [Memory.risingFrom, Bool.and_eq_true, decide_eq_true_eq]
      exact ⟨hm.1, ih (k + 1) (by omega) hm.2⟩

/-- Every write keeps the canonical form. -/
theorem Memory.wf_write (m : Memory) (a : Nat) (v : Byte) (h : m.wf = true) :
    (m.write a v).wf = true :=
  Memory.risingFrom_write a v m 0 (Nat.zero_le a) h

theorem Memory.read_none_of_lt : ∀ (m : Memory) (lo b : Nat), Memory.risingFrom lo m = true →
    b < lo → m.read b = none := by
  intro m
  induction m with
  | nil => intros; rfl
  | cons c m ih =>
    obtain ⟨k, x⟩ := c
    intro lo b hm hb
    simp only [Memory.risingFrom, Bool.and_eq_true, decide_eq_true_eq] at hm
    have : k ≠ b := by omega
    simp only [Memory.read, this, if_false]
    exact ih (k + 1) b hm.2 (by omega)

/-- Two memories in canonical form that read the same everywhere are the same data. -/
theorem Memory.ext_read : ∀ (m m' : Memory), m.wf = true → m'.wf = true →
    (∀ a, m.read a = m'.read a) → m = m' := by
  have key : ∀ (m m' : Memory) (lo lo' : Nat), Memory.risingFrom lo m = true →
      Memory.risingFrom lo' m' = true → (∀ a, m.read a = m'.read a) → m = m' := by
    intro m
    induction m with
    | nil =>
      intro m' lo lo' _ _ h
      cases m' with
      | nil => rfl
      | cons c m' =>
        have := h c.1
        simp [Memory.read] at this
    | cons c m ih =>
      obtain ⟨k, x⟩ := c
      intro m' lo lo' hm hm' h
      cases m' with
      | nil =>
        have := h k
        simp [Memory.read] at this
      | cons c' m' =>
        obtain ⟨k', x'⟩ := c'
        simp only [Memory.risingFrom, Bool.and_eq_true, decide_eq_true_eq] at hm hm'
        have hk : k = k' := by
          by_contra hne
          rcases Nat.lt_or_gt_of_ne hne with hlt | hgt
          · have := h k
            rw [Memory.read, if_pos rfl, Memory.read, if_neg (Ne.symm hne),
              Memory.read_none_of_lt m' (k' + 1) k hm'.2 (by omega)] at this
            exact absurd this (by simp)
          · have := h k'
            rw [Memory.read, if_neg hne, Memory.read_none_of_lt m (k + 1) k' hm.2 (by omega),
              Memory.read, if_pos rfl] at this
            exact absurd this (by simp)
        subst hk
        have hx : x = x' := by
          have := h k
          simpa [Memory.read] using this
        subst hx
        have htail : m = m' := by
          refine ih m' (k + 1) (k + 1) hm.2 hm'.2 fun a => ?_
          by_cases ha : k = a
          · subst ha
            rw [Memory.read_none_of_lt m (k + 1) k hm.2 (by omega),
              Memory.read_none_of_lt m' (k + 1) k hm'.2 (by omega)]
          · have := h a
            simpa [Memory.read, ha] using this
        rw [htail]
  intro m m' hm hm' h
  exact key m m' 0 0 hm hm' h

end Sys2Proof.Machine
end

