-- ==== Sys2Proof/Laws/Config.lean ====
section
/-! SUPPORT. The SMALL configuration is admitted whatever its OPEN values are (R8, R10), and the memories of
a state after reset are in canonical form. -/

namespace Sys2Proof.Machine

theorem encodeTable_append (a b : List Instr) :
    encodeTable (a ++ b) = encodeTable a ++ encodeTable b := by
  simp [encodeTable]

theorem openPayload_length (pl : List Byte) : (openPayload pl).length ≤ 63 := by
  simp [openPayload]

theorem allBytes_toNat (bs : List Byte) : allBytes (bs.map BitVec.toNat) = true := by
  simp only [allBytes, List.all_map, List.all_eq_true, Function.comp_apply, decide_eq_true_eq]
  intro b _
  exact b.isLt

theorem openPayload_bytes (pl : List Byte) : allBytes (openPayload pl) = true :=
  allBytes_toNat _

/-- The entries that fit take at most the room there is. -/
theorem fitEntries_room (es : List OpenEntry) : ∀ room : Nat,
    (encodeTable ((fitEntries room es).map CfgEntry.instr)).length ≤ room := by
  induction es with
  | nil => intro room; simp [fitEntries, encodeTable]
  | cons e es ih =>
    intro room
    unfold fitEntries
    split_ifs with h
    · have hlen : (entryBytes e.cfgEntry.instr).length = e.size := by
        cases e with
        | cmd op pl =>
          simp [OpenEntry.cfgEntry, CfgEntry.instr, OpenEntry.size, entryBytes, encode, bytesOf]
          omega
        | delay ms => rfl
      have := ih (room - e.size)
      simp only [encodeTable, List.map_cons, List.flatMap_cons, List.length_append, hlen] at this ⊢
      omega
    · simp [encodeTable]

/-- What every entry of CONFIG_ENTRIES of SMALL passes (R10). -/
theorem fitEntries_checks (es : List OpenEntry) : ∀ (room : Nat) (e : CfgEntry),
    e ∈ fitEntries room es →
      e.bytesOk = true ∧ e.delayOk = true ∧ e.plLenOk = true ∧ e.isCmdOrDelay = true := by
  induction es with
  | nil => intro room e h; simp [fitEntries] at h
  | cons x es ih =>
    intro room e h
    unfold fitEntries at h
    split_ifs at h
    · rcases List.mem_cons.1 h with rfl | h
      · cases x with
        | cmd op pl =>
          refine ⟨?_, rfl, ?_, rfl⟩
          · simp only [OpenEntry.cfgEntry, CfgEntry.bytesOk, Bool.and_eq_true, decide_eq_true_eq]
            exact ⟨op.isLt, allBytes_toNat _⟩
          · simp [OpenEntry.cfgEntry, CfgEntry.plLenOk]
        | delay ms =>
          refine ⟨rfl, ?_, rfl, rfl⟩
          simp only [OpenEntry.cfgEntry, CfgEntry.delayOk, decide_eq_true_eq]
          exact ms.isLt
      · exact ih _ e h
    · simp at h

/-- SMALL passes every check of R10, for every choice of its OPEN values. -/
theorem smallOf_admitted (o : OpenSmall) : (smallOf o).admitted = true := by
  have hc : ∀ e ∈ (smallOf o).configEntries, e.bytesOk = true ∧ e.delayOk = true
      ∧ e.plLenOk = true ∧ e.isCmdOrDelay = true := fitEntries_checks _ _
  have hsame : (smallOf o).configEntries' = (smallOf o).configEntries := rfl
  have hop : (smallOf o).pmOpcode' = (smallOf o).pmOpcode := rfl
  have hroom := fitEntries_room o.configEntries
    (tblMax - (33 + (openPayload o.madctlPl).length + (openPayload o.colmodPl).length
      + (openPayload o.pmPl).length))
  simp only [Cfg.admitted, cfgChecks, List.all_cons, List.all_nil, Bool.and_true, Bool.and_eq_true]
  refine ⟨?_, ?_, ?_, ?_, rfl, ?_, rfl⟩
  · simp only [Cfg.passes, Bool.and_eq_true, List.all_eq_true]
    refine ⟨⟨⟨⟨⟨fun e he => (hc e he).1, openPayload_bytes _⟩, openPayload_bytes _⟩, ?_⟩,
      openPayload_bytes _⟩, by simp [smallOf]⟩
    exact allBytes_toNat [o.winCs0, o.winCe0, o.winRs0, o.winRe0, o.pmOpcode]
  · simp only [Cfg.passes, Bool.and_eq_true, List.all_eq_true]
    refine ⟨?_, fun e he => (hc e he).2.1⟩
    intro x hx
    simp only [smallOf, List.mem_cons, List.not_mem_nil, or_false] at hx
    rcases hx with rfl | rfl | rfl | rfl <;> simp only [decide_eq_true_eq] <;> exact BitVec.isLt _
  · simp only [Cfg.passes, Bool.and_eq_true, List.all_eq_true, decide_eq_true_eq]
    exact ⟨⟨⟨fun e he => (hc e (hsame ▸ he)).2.2.1, openPayload_length _⟩, openPayload_length _⟩,
      openPayload_length _⟩
  · simp only [Cfg.passes, List.all_eq_true]
    exact fun e he => (hc e he).2.2.2
  · simp only [Cfg.passes, decide_eq_true_eq]
    have h1 := openPayload_length o.madctlPl
    have h2 := openPayload_length o.colmodPl
    have h3 := openPayload_length o.pmPl
    simp only [tableRom, initTable, encodeTable_append, List.length_append, hsame]
    have e1 : ∀ a b : Nat, (encodeTable (resetPulse a b)).length = 8 := fun _ _ => rfl
    have e2 : ∀ a : Nat, (encodeTable (sleepOutThen a)).length = 5 := fun _ => rfl
    have e3 : ∀ a b : List Nat, (encodeTable [.cmd 0x36 (bytesOf a), .cmd 0x3A (bytesOf b)]).length
        = 4 + a.length + b.length := by
      intro a b; simp [encodeTable, entryBytes, encode, bytesOf]; omega
    have e4 : ∀ a b c d : Byte, (encodeTable (windowEntries a b c d)).length = 8 :=
      fun _ _ _ _ => rfl
    have e5 : ∀ (op : Byte) (a : List Nat), (encodeTable [.cmd op (bytesOf a)]).length
        = 2 + a.length := by
      intro op a; simp [encodeTable, entryBytes, encode, bytesOf]; omega
    have e6 : ∀ a : Nat, (encodeTable (displayOnThen a)).length = 5 := fun _ => rfl
    have e7 : (encodeTable [Instr.endEntry]).length = 1 := rfl
    rw [e1, e2, e3, e4, e5, e6, e7]
    simp only [smallOf, tblMax] at hroom ⊢
    omega

/-- The block after reset is built from an admitted configuration. -/
theorem reset_cfg_admitted : State.reset.cfg.admitted = true := smallOf_admitted _

/-- Both buffers' memories are in canonical form after reset. -/
theorem reset_memory_wf (c : Cfg) (rom : List Byte) (epoch : Nat) :
    (State.resetWith c rom epoch).bitmap.wf = true
      ∧ (State.resetWith c rom epoch).packed.wf = true := ⟨rfl, rfl⟩

end Sys2Proof.Machine
end

