-- ==== Sys2Proof/Laws/State.lean ====
section
/-! SUPPORT. One lemma per field for every named update of State. -/

namespace Sys2Proof.Machine

/-! emit -/

@[simp] theorem emit_cfg (e : Event) (s : State) : (emit e s).cfg = s.cfg := rfl
@[simp] theorem emit_rom (e : Event) (s : State) : (emit e s).rom = s.rom := rfl
@[simp] theorem emit_status (e : Event) (s : State) : (emit e s).status = s.status := rfl
@[simp] theorem emit_phase (e : Event) (s : State) : (emit e s).phase = s.phase := rfl
@[simp] theorem emit_errinfo (e : Event) (s : State) : (emit e s).errinfo = s.errinfo := rfl
@[simp] theorem emit_win (e : Event) (s : State) : (emit e s).win = s.win := rfl
@[simp] theorem emit_tp (e : Event) (s : State) : (emit e s).tp = s.tp := rfl
@[simp] theorem emit_tpPast (e : Event) (s : State) : (emit e s).tpPast = s.tpPast := rfl
@[simp] theorem emit_conv (e : Event) (s : State) : (emit e s).conv = s.conv := rfl
@[simp] theorem emit_framer (e : Event) (s : State) : (emit e s).framer = s.framer := rfl
@[simp] theorem emit_delayCtr (e : Event) (s : State) : (emit e s).delayCtr = s.delayCtr := rfl
@[simp] theorem emit_ctl (e : Event) (s : State) : (emit e s).ctl = s.ctl := rfl
@[simp] theorem emit_lines (e : Event) (s : State) : (emit e s).lines = s.lines.drive e := rfl
@[simp] theorem emit_trace (e : Event) (s : State) : (emit e s).trace = s.trace ++ [e] := rfl
@[simp] theorem emit_bitmap (e : Event) (s : State) : (emit e s).bitmap = s.bitmap := rfl
@[simp] theorem emit_packed (e : Event) (s : State) : (emit e s).packed = s.packed := rfl
@[simp] theorem emit_epoch (e : Event) (s : State) : (emit e s).epoch = s.epoch := rfl
@[simp] theorem emit_fresh (e : Event) (s : State) : (emit e s).fresh = s.fresh := rfl
@[simp] theorem emit_hostQ (e : Event) (s : State) : (emit e s).hostQ = s.hostQ := rfl
@[simp] theorem emit_resets (e : Event) (s : State) : (emit e s).resets = s.resets := rfl
@[simp] theorem emit_draws (e : Event) (s : State) : (emit e s).draws = s.draws := rfl
@[simp] theorem emit_answers (e : Event) (s : State) : (emit e s).answers = s.answers := rfl

/-! tick -/

@[simp] theorem tick_cfg (s : State) : (tick s).cfg = s.cfg := rfl
@[simp] theorem tick_rom (s : State) : (tick s).rom = s.rom := rfl
@[simp] theorem tick_status (s : State) : (tick s).status = s.status := rfl
@[simp] theorem tick_phase (s : State) : (tick s).phase = s.phase := rfl
@[simp] theorem tick_errinfo (s : State) : (tick s).errinfo = s.errinfo := rfl
@[simp] theorem tick_win (s : State) : (tick s).win = s.win := rfl
@[simp] theorem tick_tp (s : State) : (tick s).tp = s.tp := rfl
@[simp] theorem tick_tpPast (s : State) : (tick s).tpPast = s.tpPast := rfl
@[simp] theorem tick_conv (s : State) : (tick s).conv = s.conv := rfl
@[simp] theorem tick_framer (s : State) : (tick s).framer = s.framer := rfl
@[simp] theorem tick_delayCtr (s : State) : (tick s).delayCtr = s.delayCtr := rfl
@[simp] theorem tick_ctl (s : State) : (tick s).ctl = s.ctl := rfl
@[simp] theorem tick_lines (s : State) : (tick s).lines = s.lines := rfl
@[simp] theorem tick_trace (s : State) : (tick s).trace = s.trace := rfl
@[simp] theorem tick_bitmap (s : State) : (tick s).bitmap = s.bitmap := rfl
@[simp] theorem tick_packed (s : State) : (tick s).packed = s.packed := rfl
@[simp] theorem tick_epoch (s : State) : (tick s).epoch = s.epoch := rfl
@[simp] theorem tick_fresh (s : State) : (tick s).fresh = s.fresh := rfl
@[simp] theorem tick_hostQ (s : State) : (tick s).hostQ = tickHost s.hostQ := rfl
@[simp] theorem tick_resets (s : State) : (tick s).resets = tickResets s.resets := rfl
@[simp] theorem tick_draws (s : State) : (tick s).draws = s.draws := rfl
@[simp] theorem tick_answers (s : State) : (tick s).answers = s.answers := rfl

/-! takeAccess -/

@[simp] theorem takeAccess_cfg (rest : List HostReq) (s : State) :
    (takeAccess rest s).cfg = s.cfg := rfl
@[simp] theorem takeAccess_rom (rest : List HostReq) (s : State) :
    (takeAccess rest s).rom = s.rom := rfl
@[simp] theorem takeAccess_status (rest : List HostReq) (s : State) :
    (takeAccess rest s).status = s.status := rfl
@[simp] theorem takeAccess_phase (rest : List HostReq) (s : State) :
    (takeAccess rest s).phase = s.phase := rfl
@[simp] theorem takeAccess_errinfo (rest : List HostReq) (s : State) :
    (takeAccess rest s).errinfo = s.errinfo := rfl
@[simp] theorem takeAccess_win (rest : List HostReq) (s : State) :
    (takeAccess rest s).win = s.win := rfl
@[simp] theorem takeAccess_tp (rest : List HostReq) (s : State) :
    (takeAccess rest s).tp = s.tp := rfl
@[simp] theorem takeAccess_tpPast (rest : List HostReq) (s : State) :
    (takeAccess rest s).tpPast = s.tpPast := rfl
@[simp] theorem takeAccess_conv (rest : List HostReq) (s : State) :
    (takeAccess rest s).conv = s.conv := rfl
@[simp] theorem takeAccess_framer (rest : List HostReq) (s : State) :
    (takeAccess rest s).framer = s.framer := rfl
@[simp] theorem takeAccess_delayCtr (rest : List HostReq) (s : State) :
    (takeAccess rest s).delayCtr = s.delayCtr := rfl
@[simp] theorem takeAccess_ctl (rest : List HostReq) (s : State) :
    (takeAccess rest s).ctl = s.ctl := rfl
@[simp] theorem takeAccess_lines (rest : List HostReq) (s : State) :
    (takeAccess rest s).lines = s.lines := rfl
@[simp] theorem takeAccess_trace (rest : List HostReq) (s : State) :
    (takeAccess rest s).trace = s.trace := rfl
@[simp] theorem takeAccess_bitmap (rest : List HostReq) (s : State) :
    (takeAccess rest s).bitmap = s.bitmap := rfl
@[simp] theorem takeAccess_packed (rest : List HostReq) (s : State) :
    (takeAccess rest s).packed = s.packed := rfl
@[simp] theorem takeAccess_epoch (rest : List HostReq) (s : State) :
    (takeAccess rest s).epoch = s.epoch := rfl
@[simp] theorem takeAccess_fresh (rest : List HostReq) (s : State) :
    (takeAccess rest s).fresh = s.fresh := rfl
@[simp] theorem takeAccess_hostQ (rest : List HostReq) (s : State) :
    (takeAccess rest s).hostQ = rest := rfl
@[simp] theorem takeAccess_resets (rest : List HostReq) (s : State) :
    (takeAccess rest s).resets = tickResets s.resets := rfl
@[simp] theorem takeAccess_draws (rest : List HostReq) (s : State) :
    (takeAccess rest s).draws = s.draws := rfl
@[simp] theorem takeAccess_answers (rest : List HostReq) (s : State) :
    (takeAccess rest s).answers = s.answers := rfl

/-! recordError -/

@[simp] theorem recordError_cfg (k : ErrKind) (loc : Half) (opc : Byte) (s : State) :
    (recordError k loc opc s).cfg = s.cfg := rfl
@[simp] theorem recordError_rom (k : ErrKind) (loc : Half) (opc : Byte) (s : State) :
    (recordError k loc opc s).rom = s.rom := rfl
@[simp] theorem recordError_status (k : ErrKind) (loc : Half) (opc : Byte) (s : State) :
    (recordError k loc opc s).status = s.status.setErr k := rfl
@[simp] theorem recordError_phase (k : ErrKind) (loc : Half) (opc : Byte) (s : State) :
    (recordError k loc opc s).phase = s.phase := rfl
@[simp] theorem recordError_errinfo (k : ErrKind) (loc : Half) (opc : Byte) (s : State) :
    (recordError k loc opc s).errinfo = ⟨some k, opc, loc⟩ := rfl
@[simp] theorem recordError_win (k : ErrKind) (loc : Half) (opc : Byte) (s : State) :
    (recordError k loc opc s).win = s.win := rfl
@[simp] theorem recordError_tp (k : ErrKind) (loc : Half) (opc : Byte) (s : State) :
    (recordError k loc opc s).tp = s.tp := rfl
@[simp] theorem recordError_tpPast (k : ErrKind) (loc : Half) (opc : Byte) (s : State) :
    (recordError k loc opc s).tpPast = s.tpPast := rfl
@[simp] theorem recordError_conv (k : ErrKind) (loc : Half) (opc : Byte) (s : State) :
    (recordError k loc opc s).conv = s.conv := rfl
@[simp] theorem recordError_framer (k : ErrKind) (loc : Half) (opc : Byte) (s : State) :
    (recordError k loc opc s).framer = s.framer := rfl
@[simp] theorem recordError_delayCtr (k : ErrKind) (loc : Half) (opc : Byte) (s : State) :
    (recordError k loc opc s).delayCtr = s.delayCtr := rfl
@[simp] theorem recordError_ctl (k : ErrKind) (loc : Half) (opc : Byte) (s : State) :
    (recordError k loc opc s).ctl = s.ctl := rfl
@[simp] theorem recordError_lines (k : ErrKind) (loc : Half) (opc : Byte) (s : State) :
    (recordError k loc opc s).lines = s.lines := rfl
@[simp] theorem recordError_trace (k : ErrKind) (loc : Half) (opc : Byte) (s : State) :
    (recordError k loc opc s).trace = s.trace := rfl
@[simp] theorem recordError_bitmap (k : ErrKind) (loc : Half) (opc : Byte) (s : State) :
    (recordError k loc opc s).bitmap = s.bitmap := rfl
@[simp] theorem recordError_packed (k : ErrKind) (loc : Half) (opc : Byte) (s : State) :
    (recordError k loc opc s).packed = s.packed := rfl
@[simp] theorem recordError_epoch (k : ErrKind) (loc : Half) (opc : Byte) (s : State) :
    (recordError k loc opc s).epoch = s.epoch := rfl
@[simp] theorem recordError_fresh (k : ErrKind) (loc : Half) (opc : Byte) (s : State) :
    (recordError k loc opc s).fresh = s.fresh := rfl
@[simp] theorem recordError_hostQ (k : ErrKind) (loc : Half) (opc : Byte) (s : State) :
    (recordError k loc opc s).hostQ = s.hostQ := rfl
@[simp] theorem recordError_resets (k : ErrKind) (loc : Half) (opc : Byte) (s : State) :
    (recordError k loc opc s).resets = s.resets := rfl
@[simp] theorem recordError_draws (k : ErrKind) (loc : Half) (opc : Byte) (s : State) :
    (recordError k loc opc s).draws = s.draws := rfl
@[simp] theorem recordError_answers (k : ErrKind) (loc : Half) (opc : Byte) (s : State) :
    (recordError k loc opc s).answers = s.answers := rfl

/-! abortOp -/

@[simp] theorem abortOp_cfg (s : State) : (abortOp s).cfg = s.cfg := rfl
@[simp] theorem abortOp_rom (s : State) : (abortOp s).rom = s.rom := rfl
@[simp] theorem abortOp_status (s : State) : (abortOp s).status = s.status.aborted := rfl
@[simp] theorem abortOp_phase (s : State) :
    (abortOp s).phase = if s.status.op = .init then .fault else s.phase := rfl
@[simp] theorem abortOp_errinfo (s : State) : (abortOp s).errinfo = s.errinfo := rfl
@[simp] theorem abortOp_win (s : State) : (abortOp s).win = s.win := rfl
@[simp] theorem abortOp_tp (s : State) : (abortOp s).tp = s.tp := rfl
@[simp] theorem abortOp_tpPast (s : State) : (abortOp s).tpPast = s.tpPast := rfl
@[simp] theorem abortOp_conv (s : State) : (abortOp s).conv = s.conv := rfl
@[simp] theorem abortOp_framer (s : State) : (abortOp s).framer = s.framer := rfl
@[simp] theorem abortOp_delayCtr (s : State) : (abortOp s).delayCtr = s.delayCtr := rfl
@[simp] theorem abortOp_ctl (s : State) : (abortOp s).ctl = .idle := rfl
@[simp] theorem abortOp_lines (s : State) : (abortOp s).lines = s.lines := rfl
@[simp] theorem abortOp_trace (s : State) : (abortOp s).trace = s.trace := rfl
@[simp] theorem abortOp_bitmap (s : State) : (abortOp s).bitmap = s.bitmap := rfl
@[simp] theorem abortOp_packed (s : State) : (abortOp s).packed = s.packed := rfl
@[simp] theorem abortOp_epoch (s : State) : (abortOp s).epoch = s.epoch := rfl
@[simp] theorem abortOp_fresh (s : State) : (abortOp s).fresh = s.fresh := rfl
@[simp] theorem abortOp_hostQ (s : State) : (abortOp s).hostQ = s.hostQ := rfl
@[simp] theorem abortOp_resets (s : State) : (abortOp s).resets = s.resets := rfl
@[simp] theorem abortOp_draws (s : State) : (abortOp s).draws = s.draws := rfl
@[simp] theorem abortOp_answers (s : State) : (abortOp s).answers = s.answers := rfl

/-! finishOp -/

@[simp] theorem finishOp_cfg (s : State) : (finishOp s).cfg = s.cfg := rfl
@[simp] theorem finishOp_rom (s : State) : (finishOp s).rom = s.rom := rfl
@[simp] theorem finishOp_status (s : State) : (finishOp s).status = s.status.completed := rfl
@[simp] theorem finishOp_phase (s : State) : (finishOp s).phase = s.phase := rfl
@[simp] theorem finishOp_errinfo (s : State) : (finishOp s).errinfo = s.errinfo := rfl
@[simp] theorem finishOp_win (s : State) : (finishOp s).win = s.win := rfl
@[simp] theorem finishOp_tp (s : State) : (finishOp s).tp = s.tp := rfl
@[simp] theorem finishOp_tpPast (s : State) : (finishOp s).tpPast = s.tpPast := rfl
@[simp] theorem finishOp_conv (s : State) : (finishOp s).conv = s.conv := rfl
@[simp] theorem finishOp_framer (s : State) : (finishOp s).framer = s.framer := rfl
@[simp] theorem finishOp_delayCtr (s : State) : (finishOp s).delayCtr = s.delayCtr := rfl
@[simp] theorem finishOp_ctl (s : State) : (finishOp s).ctl = .idle := rfl
@[simp] theorem finishOp_lines (s : State) : (finishOp s).lines = s.lines := rfl
@[simp] theorem finishOp_trace (s : State) : (finishOp s).trace = s.trace := rfl
@[simp] theorem finishOp_bitmap (s : State) : (finishOp s).bitmap = s.bitmap := rfl
@[simp] theorem finishOp_packed (s : State) : (finishOp s).packed = s.packed := rfl
@[simp] theorem finishOp_epoch (s : State) : (finishOp s).epoch = s.epoch := rfl
@[simp] theorem finishOp_fresh (s : State) : (finishOp s).fresh = s.fresh := rfl
@[simp] theorem finishOp_hostQ (s : State) : (finishOp s).hostQ = s.hostQ := rfl
@[simp] theorem finishOp_resets (s : State) : (finishOp s).resets = s.resets := rfl
@[simp] theorem finishOp_draws (s : State) : (finishOp s).draws = s.draws := rfl
@[simp] theorem finishOp_answers (s : State) : (finishOp s).answers = s.answers := rfl

/-! handOver -/

@[simp] theorem handOver_cfg (op : Byte) (pl : List Byte) (c : Caller) (s : State) :
    (handOver op pl c s).cfg = s.cfg := rfl
@[simp] theorem handOver_rom (op : Byte) (pl : List Byte) (c : Caller) (s : State) :
    (handOver op pl c s).rom = s.rom := rfl
@[simp] theorem handOver_status (op : Byte) (pl : List Byte) (c : Caller) (s : State) :
    (handOver op pl c s).status = s.status := rfl
@[simp] theorem handOver_phase (op : Byte) (pl : List Byte) (c : Caller) (s : State) :
    (handOver op pl c s).phase = s.phase := rfl
@[simp] theorem handOver_errinfo (op : Byte) (pl : List Byte) (c : Caller) (s : State) :
    (handOver op pl c s).errinfo = s.errinfo := rfl
@[simp] theorem handOver_win (op : Byte) (pl : List Byte) (c : Caller) (s : State) :
    (handOver op pl c s).win = s.win := rfl
@[simp] theorem handOver_tp (op : Byte) (pl : List Byte) (c : Caller) (s : State) :
    (handOver op pl c s).tp = s.tp := rfl
@[simp] theorem handOver_tpPast (op : Byte) (pl : List Byte) (c : Caller) (s : State) :
    (handOver op pl c s).tpPast = s.tpPast := rfl
@[simp] theorem handOver_conv (op : Byte) (pl : List Byte) (c : Caller) (s : State) :
    (handOver op pl c s).conv = s.conv := rfl
@[simp] theorem handOver_framer (op : Byte) (pl : List Byte) (c : Caller) (s : State) :
    (handOver op pl c s).framer = ⟨op, pl, 0, c⟩ := rfl
@[simp] theorem handOver_delayCtr (op : Byte) (pl : List Byte) (c : Caller) (s : State) :
    (handOver op pl c s).delayCtr = s.delayCtr := rfl
@[simp] theorem handOver_ctl (op : Byte) (pl : List Byte) (c : Caller) (s : State) :
    (handOver op pl c s).ctl = .present := rfl
@[simp] theorem handOver_lines (op : Byte) (pl : List Byte) (c : Caller) (s : State) :
    (handOver op pl c s).lines = s.lines := rfl
@[simp] theorem handOver_trace (op : Byte) (pl : List Byte) (c : Caller) (s : State) :
    (handOver op pl c s).trace = s.trace := rfl
@[simp] theorem handOver_bitmap (op : Byte) (pl : List Byte) (c : Caller) (s : State) :
    (handOver op pl c s).bitmap = s.bitmap := rfl
@[simp] theorem handOver_packed (op : Byte) (pl : List Byte) (c : Caller) (s : State) :
    (handOver op pl c s).packed = s.packed := rfl
@[simp] theorem handOver_epoch (op : Byte) (pl : List Byte) (c : Caller) (s : State) :
    (handOver op pl c s).epoch = s.epoch := rfl
@[simp] theorem handOver_fresh (op : Byte) (pl : List Byte) (c : Caller) (s : State) :
    (handOver op pl c s).fresh = s.fresh := rfl
@[simp] theorem handOver_hostQ (op : Byte) (pl : List Byte) (c : Caller) (s : State) :
    (handOver op pl c s).hostQ = s.hostQ := rfl
@[simp] theorem handOver_resets (op : Byte) (pl : List Byte) (c : Caller) (s : State) :
    (handOver op pl c s).resets = s.resets := rfl
@[simp] theorem handOver_draws (op : Byte) (pl : List Byte) (c : Caller) (s : State) :
    (handOver op pl c s).draws = s.draws := rfl
@[simp] theorem handOver_answers (op : Byte) (pl : List Byte) (c : Caller) (s : State) :
    (handOver op pl c s).answers = s.answers := rfl

/-! handRefresh -/

@[simp] theorem handRefresh_cfg (k : Fin 3) (s : State) : (handRefresh k s).cfg = s.cfg := rfl
@[simp] theorem handRefresh_rom (k : Fin 3) (s : State) : (handRefresh k s).rom = s.rom := rfl
@[simp] theorem handRefresh_status (k : Fin 3) (s : State) :
    (handRefresh k s).status = s.status := rfl
@[simp] theorem handRefresh_phase (k : Fin 3) (s : State) : (handRefresh k s).phase = s.phase := rfl
@[simp] theorem handRefresh_errinfo (k : Fin 3) (s : State) :
    (handRefresh k s).errinfo = s.errinfo := rfl
@[simp] theorem handRefresh_win (k : Fin 3) (s : State) : (handRefresh k s).win = s.win := rfl
@[simp] theorem handRefresh_tp (k : Fin 3) (s : State) : (handRefresh k s).tp = s.tp := rfl
@[simp] theorem handRefresh_tpPast (k : Fin 3) (s : State) :
    (handRefresh k s).tpPast = s.tpPast := rfl
@[simp] theorem handRefresh_conv (k : Fin 3) (s : State) : (handRefresh k s).conv = s.conv := rfl
@[simp] theorem handRefresh_framer (k : Fin 3) (s : State) :
    (handRefresh k s).framer = ⟨refreshOp k, s.refreshPayload k, 0, .refresh k⟩ := rfl
@[simp] theorem handRefresh_delayCtr (k : Fin 3) (s : State) :
    (handRefresh k s).delayCtr = s.delayCtr := rfl
@[simp] theorem handRefresh_ctl (k : Fin 3) (s : State) : (handRefresh k s).ctl = .present := rfl
@[simp] theorem handRefresh_lines (k : Fin 3) (s : State) : (handRefresh k s).lines = s.lines := rfl
@[simp] theorem handRefresh_trace (k : Fin 3) (s : State) : (handRefresh k s).trace = s.trace := rfl
@[simp] theorem handRefresh_bitmap (k : Fin 3) (s : State) :
    (handRefresh k s).bitmap = s.bitmap := rfl
@[simp] theorem handRefresh_packed (k : Fin 3) (s : State) :
    (handRefresh k s).packed = s.packed := rfl
@[simp] theorem handRefresh_epoch (k : Fin 3) (s : State) : (handRefresh k s).epoch = s.epoch := rfl
@[simp] theorem handRefresh_fresh (k : Fin 3) (s : State) : (handRefresh k s).fresh = s.fresh := rfl
@[simp] theorem handRefresh_hostQ (k : Fin 3) (s : State) : (handRefresh k s).hostQ = s.hostQ := rfl
@[simp] theorem handRefresh_resets (k : Fin 3) (s : State) :
    (handRefresh k s).resets = s.resets := rfl
@[simp] theorem handRefresh_draws (k : Fin 3) (s : State) : (handRefresh k s).draws = s.draws := rfl
@[simp] theorem handRefresh_answers (k : Fin 3) (s : State) :
    (handRefresh k s).answers = s.answers := rfl

/-! convertByte -/

@[simp] theorem convertByte_cfg (s : State) : (convertByte s).cfg = s.cfg := rfl
@[simp] theorem convertByte_rom (s : State) : (convertByte s).rom = s.rom := rfl
@[simp] theorem convertByte_status (s : State) : (convertByte s).status = s.status := rfl
@[simp] theorem convertByte_phase (s : State) : (convertByte s).phase = s.phase := rfl
@[simp] theorem convertByte_errinfo (s : State) : (convertByte s).errinfo = s.errinfo := rfl
@[simp] theorem convertByte_win (s : State) : (convertByte s).win = s.win := rfl
@[simp] theorem convertByte_tp (s : State) : (convertByte s).tp = s.tp := rfl
@[simp] theorem convertByte_tpPast (s : State) : (convertByte s).tpPast = s.tpPast := rfl
@[simp] theorem convertByte_conv (s : State) : (convertByte s).conv = Conv.next s.cfg s.latch := rfl
@[simp] theorem convertByte_framer (s : State) : (convertByte s).framer = s.framer := rfl
@[simp] theorem convertByte_delayCtr (s : State) : (convertByte s).delayCtr = s.delayCtr := rfl
@[simp] theorem convertByte_ctl (s : State) : (convertByte s).ctl = s.ctl := rfl
@[simp] theorem convertByte_lines (s : State) : (convertByte s).lines = s.lines := rfl
@[simp] theorem convertByte_trace (s : State) : (convertByte s).trace = s.trace := rfl
@[simp] theorem convertByte_bitmap (s : State) : (convertByte s).bitmap = s.bitmap := rfl
@[simp] theorem convertByte_packed (s : State) :
    (convertByte s).packed = s.packed.write (dstIndex s.cfg s.conv.t s.conv.r s.conv.h) (bandByte s.latch.h s.latch.b1 s.latch.b2) := rfl
@[simp] theorem convertByte_epoch (s : State) : (convertByte s).epoch = s.epoch := rfl
@[simp] theorem convertByte_fresh (s : State) : (convertByte s).fresh = s.fresh := rfl
@[simp] theorem convertByte_hostQ (s : State) : (convertByte s).hostQ = s.hostQ := rfl
@[simp] theorem convertByte_resets (s : State) : (convertByte s).resets = s.resets := rfl
@[simp] theorem convertByte_draws (s : State) : (convertByte s).draws = s.draws := rfl
@[simp] theorem convertByte_answers (s : State) : (convertByte s).answers = s.answers := rfl

/-! startConvert -/

@[simp] theorem startConvert_cfg (s : State) : (startConvert s).cfg = s.cfg := rfl
@[simp] theorem startConvert_rom (s : State) : (startConvert s).rom = s.rom := rfl
@[simp] theorem startConvert_status (s : State) : (startConvert s).status = s.status := rfl
@[simp] theorem startConvert_phase (s : State) : (startConvert s).phase = s.phase := rfl
@[simp] theorem startConvert_errinfo (s : State) : (startConvert s).errinfo = s.errinfo := rfl
@[simp] theorem startConvert_win (s : State) : (startConvert s).win = s.win := rfl
@[simp] theorem startConvert_tp (s : State) : (startConvert s).tp = s.tp := rfl
@[simp] theorem startConvert_tpPast (s : State) : (startConvert s).tpPast = s.tpPast := rfl
@[simp] theorem startConvert_conv (s : State) :
    (startConvert s).conv = { s.conv with t := 0, r := 0, h := false } := rfl
@[simp] theorem startConvert_framer (s : State) : (startConvert s).framer = s.framer := rfl
@[simp] theorem startConvert_delayCtr (s : State) : (startConvert s).delayCtr = s.delayCtr := rfl
@[simp] theorem startConvert_ctl (s : State) : (startConvert s).ctl = .convert := rfl
@[simp] theorem startConvert_lines (s : State) : (startConvert s).lines = s.lines := rfl
@[simp] theorem startConvert_trace (s : State) : (startConvert s).trace = s.trace := rfl
@[simp] theorem startConvert_bitmap (s : State) : (startConvert s).bitmap = s.bitmap := rfl
@[simp] theorem startConvert_packed (s : State) : (startConvert s).packed = s.packed := rfl
@[simp] theorem startConvert_epoch (s : State) : (startConvert s).epoch = s.epoch := rfl
@[simp] theorem startConvert_fresh (s : State) : (startConvert s).fresh = s.fresh := rfl
@[simp] theorem startConvert_hostQ (s : State) : (startConvert s).hostQ = s.hostQ := rfl
@[simp] theorem startConvert_resets (s : State) : (startConvert s).resets = s.resets := rfl
@[simp] theorem startConvert_draws (s : State) : (startConvert s).draws = s.draws := rfl
@[simp] theorem startConvert_answers (s : State) : (startConvert s).answers = s.answers := rfl

/-! answer -/

@[simp] theorem answer_cfg (x : Answer) (s : State) : (answer x s).cfg = s.cfg := rfl
@[simp] theorem answer_rom (x : Answer) (s : State) : (answer x s).rom = s.rom := rfl
@[simp] theorem answer_status (x : Answer) (s : State) : (answer x s).status = s.status := rfl
@[simp] theorem answer_phase (x : Answer) (s : State) : (answer x s).phase = s.phase := rfl
@[simp] theorem answer_errinfo (x : Answer) (s : State) : (answer x s).errinfo = s.errinfo := rfl
@[simp] theorem answer_win (x : Answer) (s : State) : (answer x s).win = s.win := rfl
@[simp] theorem answer_tp (x : Answer) (s : State) : (answer x s).tp = s.tp := rfl
@[simp] theorem answer_tpPast (x : Answer) (s : State) : (answer x s).tpPast = s.tpPast := rfl
@[simp] theorem answer_conv (x : Answer) (s : State) : (answer x s).conv = s.conv := rfl
@[simp] theorem answer_framer (x : Answer) (s : State) : (answer x s).framer = s.framer := rfl
@[simp] theorem answer_delayCtr (x : Answer) (s : State) : (answer x s).delayCtr = s.delayCtr := rfl
@[simp] theorem answer_ctl (x : Answer) (s : State) : (answer x s).ctl = s.ctl := rfl
@[simp] theorem answer_lines (x : Answer) (s : State) : (answer x s).lines = s.lines := rfl
@[simp] theorem answer_trace (x : Answer) (s : State) : (answer x s).trace = s.trace := rfl
@[simp] theorem answer_bitmap (x : Answer) (s : State) : (answer x s).bitmap = s.bitmap := rfl
@[simp] theorem answer_packed (x : Answer) (s : State) : (answer x s).packed = s.packed := rfl
@[simp] theorem answer_epoch (x : Answer) (s : State) : (answer x s).epoch = s.epoch := rfl
@[simp] theorem answer_fresh (x : Answer) (s : State) : (answer x s).fresh = s.fresh := rfl
@[simp] theorem answer_hostQ (x : Answer) (s : State) : (answer x s).hostQ = s.hostQ := rfl
@[simp] theorem answer_resets (x : Answer) (s : State) : (answer x s).resets = s.resets := rfl
@[simp] theorem answer_draws (x : Answer) (s : State) : (answer x s).draws = s.draws := rfl
@[simp] theorem answer_answers (x : Answer) (s : State) :
    (answer x s).answers = s.answers ++ [x] := rfl

/-! advanceTp and raiseError change their fields by case -/

@[simp] theorem advanceTp_cfg (len : Nat) (s : State) :
    (advanceTp len s).cfg = s.cfg := by
  unfold advanceTp; split <;> rfl
@[simp] theorem advanceTp_rom (len : Nat) (s : State) :
    (advanceTp len s).rom = s.rom := by
  unfold advanceTp; split <;> rfl
@[simp] theorem advanceTp_status (len : Nat) (s : State) :
    (advanceTp len s).status = s.status := by
  unfold advanceTp; split <;> rfl
@[simp] theorem advanceTp_phase (len : Nat) (s : State) :
    (advanceTp len s).phase = s.phase := by
  unfold advanceTp; split <;> rfl
@[simp] theorem advanceTp_errinfo (len : Nat) (s : State) :
    (advanceTp len s).errinfo = s.errinfo := by
  unfold advanceTp; split <;> rfl
@[simp] theorem advanceTp_win (len : Nat) (s : State) :
    (advanceTp len s).win = s.win := by
  unfold advanceTp; split <;> rfl
@[simp] theorem advanceTp_conv (len : Nat) (s : State) :
    (advanceTp len s).conv = s.conv := by
  unfold advanceTp; split <;> rfl
@[simp] theorem advanceTp_framer (len : Nat) (s : State) :
    (advanceTp len s).framer = s.framer := by
  unfold advanceTp; split <;> rfl
@[simp] theorem advanceTp_delayCtr (len : Nat) (s : State) :
    (advanceTp len s).delayCtr = s.delayCtr := by
  unfold advanceTp; split <;> rfl
@[simp] theorem advanceTp_lines (len : Nat) (s : State) :
    (advanceTp len s).lines = s.lines := by
  unfold advanceTp; split <;> rfl
@[simp] theorem advanceTp_trace (len : Nat) (s : State) :
    (advanceTp len s).trace = s.trace := by
  unfold advanceTp; split <;> rfl
@[simp] theorem advanceTp_bitmap (len : Nat) (s : State) :
    (advanceTp len s).bitmap = s.bitmap := by
  unfold advanceTp; split <;> rfl
@[simp] theorem advanceTp_packed (len : Nat) (s : State) :
    (advanceTp len s).packed = s.packed := by
  unfold advanceTp; split <;> rfl
@[simp] theorem advanceTp_epoch (len : Nat) (s : State) :
    (advanceTp len s).epoch = s.epoch := by
  unfold advanceTp; split <;> rfl
@[simp] theorem advanceTp_hostQ (len : Nat) (s : State) :
    (advanceTp len s).hostQ = s.hostQ := by
  unfold advanceTp; split <;> rfl
@[simp] theorem advanceTp_resets (len : Nat) (s : State) :
    (advanceTp len s).resets = s.resets := by
  unfold advanceTp; split <;> rfl
@[simp] theorem advanceTp_draws (len : Nat) (s : State) :
    (advanceTp len s).draws = s.draws := by
  unfold advanceTp; split <;> rfl
@[simp] theorem advanceTp_answers (len : Nat) (s : State) :
    (advanceTp len s).answers = s.answers := by
  unfold advanceTp; split <;> rfl

@[simp] theorem raiseError_cfg (k : ErrKind) (loc : Half) (opc : Byte) (s : State) :
    (raiseError k loc opc s).cfg = s.cfg := by
  unfold raiseError; split <;> rfl
@[simp] theorem raiseError_rom (k : ErrKind) (loc : Half) (opc : Byte) (s : State) :
    (raiseError k loc opc s).rom = s.rom := by
  unfold raiseError; split <;> rfl
@[simp] theorem raiseError_win (k : ErrKind) (loc : Half) (opc : Byte) (s : State) :
    (raiseError k loc opc s).win = s.win := by
  unfold raiseError; split <;> rfl
@[simp] theorem raiseError_tp (k : ErrKind) (loc : Half) (opc : Byte) (s : State) :
    (raiseError k loc opc s).tp = s.tp := by
  unfold raiseError; split <;> rfl
@[simp] theorem raiseError_tpPast (k : ErrKind) (loc : Half) (opc : Byte) (s : State) :
    (raiseError k loc opc s).tpPast = s.tpPast := by
  unfold raiseError; split <;> rfl
@[simp] theorem raiseError_conv (k : ErrKind) (loc : Half) (opc : Byte) (s : State) :
    (raiseError k loc opc s).conv = s.conv := by
  unfold raiseError; split <;> rfl
@[simp] theorem raiseError_framer (k : ErrKind) (loc : Half) (opc : Byte) (s : State) :
    (raiseError k loc opc s).framer = s.framer := by
  unfold raiseError; split <;> rfl
@[simp] theorem raiseError_delayCtr (k : ErrKind) (loc : Half) (opc : Byte) (s : State) :
    (raiseError k loc opc s).delayCtr = s.delayCtr := by
  unfold raiseError; split <;> rfl
@[simp] theorem raiseError_lines (k : ErrKind) (loc : Half) (opc : Byte) (s : State) :
    (raiseError k loc opc s).lines = s.lines := by
  unfold raiseError; split <;> rfl
@[simp] theorem raiseError_trace (k : ErrKind) (loc : Half) (opc : Byte) (s : State) :
    (raiseError k loc opc s).trace = s.trace := by
  unfold raiseError; split <;> rfl
@[simp] theorem raiseError_bitmap (k : ErrKind) (loc : Half) (opc : Byte) (s : State) :
    (raiseError k loc opc s).bitmap = s.bitmap := by
  unfold raiseError; split <;> rfl
@[simp] theorem raiseError_packed (k : ErrKind) (loc : Half) (opc : Byte) (s : State) :
    (raiseError k loc opc s).packed = s.packed := by
  unfold raiseError; split <;> rfl
@[simp] theorem raiseError_epoch (k : ErrKind) (loc : Half) (opc : Byte) (s : State) :
    (raiseError k loc opc s).epoch = s.epoch := by
  unfold raiseError; split <;> rfl
@[simp] theorem raiseError_fresh (k : ErrKind) (loc : Half) (opc : Byte) (s : State) :
    (raiseError k loc opc s).fresh = s.fresh := by
  unfold raiseError; split <;> rfl
@[simp] theorem raiseError_hostQ (k : ErrKind) (loc : Half) (opc : Byte) (s : State) :
    (raiseError k loc opc s).hostQ = s.hostQ := by
  unfold raiseError; split <;> rfl
@[simp] theorem raiseError_resets (k : ErrKind) (loc : Half) (opc : Byte) (s : State) :
    (raiseError k loc opc s).resets = s.resets := by
  unfold raiseError; split <;> rfl
@[simp] theorem raiseError_draws (k : ErrKind) (loc : Half) (opc : Byte) (s : State) :
    (raiseError k loc opc s).draws = s.draws := by
  unfold raiseError; split <;> rfl
@[simp] theorem raiseError_answers (k : ErrKind) (loc : Half) (opc : Byte) (s : State) :
    (raiseError k loc opc s).answers = s.answers := by
  unfold raiseError; split <;> rfl

@[simp] theorem advanceTp_ctl (len : Nat) (s : State) : (advanceTp len s).ctl = .fetch := by
  unfold advanceTp; split <;> rfl
@[simp] theorem raiseError_errinfo (k : ErrKind) (loc : Half) (opc : Byte) (s : State) :
    (raiseError k loc opc s).errinfo = ⟨some k, opc, loc⟩ := by
  unfold raiseError; split <;> rfl

end Sys2Proof.Machine
end

