-- ==== Sys2Proof/Laws/Engine.lean ====
section
/-! SUPPORT. The run of micro-steps: what it keeps, and how it goes in a state with no input scheduled. -/

namespace Sys2Proof.Machine

/-- What every micro-step keeps, the run keeps. -/
theorem runLines_keeps (P : State → Prop)
    (h : ∀ s, P s → mayRun s = true → P (micro s)) :
    ∀ (n : Nat) (s : State), P s → P (runLines n s) := by
  intro n
  induction n with
  | zero => intro s hs; exact hs
  | succ n ih =>
    intro s hs
    unfold runLines
    split_ifs with hm
    · exact ih _ (h s hs hm)
    · exact hs

theorem runOn_keeps (P : State → Prop) (h : ∀ s, P s → mayRun s = true → P (micro s))
    (s : State) (hs : P s) : P (runOn s) :=
  runLines_keeps P h _ s hs

/-- The run stops where it may not go on. -/
theorem runLines_stop (n : Nat) (s : State) (h : mayRun s = false) : runLines n s = s := by
  cases n with
  | zero => rfl
  | succ n => simp [runLines, h]

theorem tick_quiet (s : State) (q : Quiet s) : tick s = s := by
  obtain ⟨q1, q2⟩ := q
  cases s
  simp_all [tick, tickHost, tickResets]

theorem resetDue_quiet (s : State) (q : Quiet s) : resetDue s = false := by
  simp [resetDue, q.2]

theorem hostDue_quiet (s : State) (q : Quiet s) : hostDue s = false := by
  simp [hostDue, q.1]

theorem mayRun_quiet (s : State) (q : Quiet s) :
    mayRun s = !(atBoundary s || waiting s) := by
  simp [mayRun, resetDue_quiet s q, hostDue_quiet s q]

/-- With no input scheduled, a run takes the next line wherever the engine is inside an instruction and
not waiting. -/
theorem runLines_line (n : Nat) (s : State) (q : Quiet s) (hb : atBoundary s = false)
    (hw : waiting s = false) (ql : Quiet (line s)) :
    runLines (n + 1) s = runLines n (line s) := by
  have hm : mayRun s = true := by rw [mayRun_quiet s q, hb, hw]; rfl
  have ht : micro s = line s := tick_quiet (line s) ql
  simp [runLines, hm, ht]

/-- The same with the line's effect named. -/
theorem runLines_to (n : Nat) (s u : State) (q : Quiet s) (hb : atBoundary s = false)
    (hw : waiting s = false) (h : line s = u) (qu : Quiet u) :
    runLines (n + 1) s = runLines n u := by
  subst h
  exact runLines_line n s q hb hw qu

/-- With no input scheduled, a run stops between instructions. -/
theorem runLines_boundary (n : Nat) (s : State) (hb : atBoundary s = true) :
    runLines n s = s :=
  runLines_stop n s (by simp [mayRun, hb])

end Sys2Proof.Machine
end

