-- ==== Sys2Proof/Laws/Converter.lean ====
section
/-! SUPPORT. The converter: the numbers of the geometry, and the whole conversion in a state with no input
scheduled (R136). -/

namespace Sys2Proof.Machine

/-- The numbers a good geometry gives (R7, R218). -/
theorem geomOk_numbers (c : Cfg) (h : c.geomOk = true) :
    0 < c.ncp ∧ 0 < c.nb ∧ c.w = 2 * c.ncp ∧ c.h = 8 * c.nb ∧ c.h / 4 = 2 * c.nb
      ∧ c.n = c.ncp * (2 * c.nb) ∧ c.nb = 3 * c.ng ∧ c.n ≤ 65536 := by
  simp only [Cfg.geomOk, Bool.and_eq_true, decide_eq_true_eq] at h
  obtain ⟨⟨⟨⟨h1, h2⟩, h3⟩, h4⟩, h5⟩ := h
  have hw : c.w = 2 * c.ncp := by unfold Cfg.ncp; omega
  have hh : c.h = 8 * c.nb := by unfold Cfg.nb; omega
  refine ⟨by unfold Cfg.ncp; omega, by unfold Cfg.nb; omega, hw, hh, by omega, ?_,
    by unfold Cfg.nb Cfg.ng; omega, h5⟩
  unfold Cfg.n
  rw [hw, hh, show 2 * c.ncp * (8 * c.nb) = 8 * (c.ncp * (2 * c.nb)) by ring]
  exact Nat.mul_div_cancel_left _ (by norm_num)

/-- The converter's place in P, byte by byte (R135). -/
theorem dstIndex_parts (c : Cfg) (h : c.geomOk = true) (t r : Nat) (b : Bool) (hr : r < c.nb) :
    dstIndex c t r b / (c.h / 4) = t ∧ dstIndex c t r b % (c.h / 4) = 2 * r + b.toNat := by
  obtain ⟨_, hnb, _, _, h4, _⟩ := geomOk_numbers c h
  have hb : b.toNat ≤ 1 := Bool.toNat_le b
  have hlt : 2 * r + b.toNat < 2 * c.nb := by omega
  unfold dstIndex
  rw [h4, Nat.add_assoc, Nat.mul_comm t]
  exact ⟨by rw [Nat.mul_add_div (by omega), Nat.div_eq_of_lt hlt, Nat.add_zero],
    by rw [Nat.mul_add_mod, Nat.mod_eq_of_lt hlt]⟩

/-- The byte the converter writes at its place is the byte of the closed form (R135, R137). -/
theorem convByte_dstIndex (c : Cfg) (h : c.geomOk = true) (f : Nat → Byte) (t r : Nat) (b : Bool)
    (hr : r < c.nb) :
    convByte c f (dstIndex c t r b)
      = bandByte b (f (srcIndex c t r)) (f (srcIndex c t r + 1)) := by
  obtain ⟨h1, h2⟩ := dstIndex_parts c h t r b hr
  unfold convByte
  simp only [h1, h2]
  have hb : (2 * r + b.toNat) / 2 = r ∧ (decide ((2 * r + b.toNat) % 2 = 1)) = b := by
    cases b <;> (simp; try omega)
  rw [hb.1, hb.2]

theorem dstIndex_lt (c : Cfg) (h : c.geomOk = true) (t r : Nat) (b : Bool) (ht : t < c.ncp)
    (hr : r < c.nb) : dstIndex c t r b < c.n := by
  obtain ⟨_, _, _, _, h4, hn, _⟩ := geomOk_numbers c h
  have hb : b.toNat ≤ 1 := Bool.toNat_le b
  unfold dstIndex
  rw [h4, hn]
  calc t * (2 * c.nb) + 2 * r + b.toNat < (t + 1) * (2 * c.nb) := by rw [Nat.add_mul]; omega
    _ ≤ c.ncp * (2 * c.nb) := Nat.mul_le_mul_right _ ht

/-- The counters move to the next byte of P, or past its end (R136). -/
theorem next_index (c : Cfg) (h : c.geomOk = true) (v : Conv) (hv : v.inRange c = true) :
    (if (Conv.next c v).inRange c then dstIndex c (Conv.next c v).t (Conv.next c v).r
        (Conv.next c v).h = dstIndex c v.t v.r v.h + 1
      else dstIndex c v.t v.r v.h + 1 = c.n) := by
  obtain ⟨_, hnb, _, _, h4, hn, _⟩ := geomOk_numbers c h
  simp only [Conv.inRange, Bool.and_eq_true, decide_eq_true_eq] at hv ⊢
  obtain ⟨ht, hr⟩ := hv
  unfold Conv.next
  cases hh : v.h with
  | false =>
    simp only [Bool.false_eq_true, if_false]
    rw [if_pos ⟨ht, hr⟩]
    simp [dstIndex]
  | true =>
    simp only [if_true]
    by_cases h1 : v.r + 1 < c.nb
    · simp only [if_pos h1]
      rw [if_pos ⟨ht, h1⟩]
      simp [dstIndex]; ring
    · simp only [if_neg h1]
      have hr1 : v.r + 1 = c.nb := by omega
      by_cases h2 : v.t + 1 < c.ncp
      · rw [if_pos ⟨h2, hnb⟩]
        simp only [dstIndex, h4, Bool.toNat_true, Bool.toNat_false]
        rw [← hr1]; ring
      · rw [if_neg (fun hc => h2 hc.1)]
        have ht1 : v.t + 1 = c.ncp := by omega
        simp only [dstIndex, h4, hn, Bool.toNat_true, ← hr1, ← ht1]
        ring

/-- The latches keep the counters. -/
theorem latch_counters (s : State) :
    s.latch.t = s.conv.t ∧ s.latch.r = s.conv.r ∧ s.latch.h = s.conv.h := by
  unfold State.latch; split <;> exact ⟨rfl, rfl, rfl⟩

/-- One micro-step moves the place in P by one byte, or past the last (R136). -/
theorem convertByte_index (s : State) (h : s.cfg.geomOk = true) (hv : s.conv.inRange s.cfg = true) :
    (if (Conv.next s.cfg s.latch).inRange s.cfg then
        dstIndex s.cfg (Conv.next s.cfg s.latch).t (Conv.next s.cfg s.latch).r
          (Conv.next s.cfg s.latch).h = dstIndex s.cfg s.conv.t s.conv.r s.conv.h + 1
      else dstIndex s.cfg s.conv.t s.conv.r s.conv.h + 1 = s.cfg.n) := by
  have hi := next_index s.cfg h s.latch (by unfold State.latch; split <;> exact hv)
  obtain ⟨h1, h2, h3⟩ := latch_counters s
  rwa [h1, h2, h3] at hi

/-- The byte a micro-step of the converter writes (R135). -/
theorem latch_byte (s : State) (h : s.cfg.geomOk = true) (hr : s.conv.r < s.cfg.nb)
    (hl : Latched s) :
    bandByte s.latch.h s.latch.b1 s.latch.b2
      = convByte s.cfg s.bitmapByte (dstIndex s.cfg s.conv.t s.conv.r s.conv.h) := by
  rw [convByte_dstIndex s.cfg h _ _ _ _ hr]
  unfold State.latch
  cases hh : s.conv.h with
  | false => simp [hh]
  | true =>
    obtain ⟨h1, h2⟩ := hl hh
    simp [hh, h1, h2]

theorem latched_next (s : State) : Latched (convertByte s) := by
  intro hh
  simp only [convertByte_conv] at hh ⊢
  unfold State.latch at hh ⊢
  unfold Conv.next at hh ⊢
  cases h0 : s.conv.h with
  | false =>
    simp [h0]
    exact ⟨rfl, rfl⟩
  | true =>
    exfalso
    simp only [h0, if_true] at hh
    split at hh <;> simp at hh

/-- One micro-step's progress (R134 to R136): with P = conv(B) below the converter's place, P = conv(B) below its
next place, or all of P = conv(B) where there is none. -/
theorem convertByte_progress (s : State) (hg : s.cfg.geomOk = true) (hl : Latched s)
    (hv : s.conv.inRange s.cfg = true)
    (hk : ∀ k, k < dstIndex s.cfg s.conv.t s.conv.r s.conv.h →
      s.packedByte k = convByte s.cfg s.bitmapByte k) :
    ∀ k, k < (if (convertByte s).conv.inRange s.cfg then
          dstIndex s.cfg (convertByte s).conv.t (convertByte s).conv.r (convertByte s).conv.h
        else s.cfg.n) →
      (convertByte s).packedByte k = convByte s.cfg s.bitmapByte k := by
  have hr : s.conv.r < s.cfg.nb := by
    simp only [Conv.inRange, Bool.and_eq_true, decide_eq_true_eq] at hv; exact hv.2
  have hi := convertByte_index s hg hv
  have hbelow : ∀ k, k < dstIndex s.cfg s.conv.t s.conv.r s.conv.h + 1 →
      (convertByte s).packedByte k = convByte s.cfg s.bitmapByte k := by
    intro k hlt
    unfold State.packedByte
    rw [convertByte_packed, Memory.read_write, latch_byte s hg hr hl]
    split_ifs with e
    · subst e; rfl
    · exact hk k (by omega)
  rw [← convertByte_conv] at hi
  by_cases hin : (convertByte s).conv.inRange s.cfg = true
  · rw [if_pos hin] at hi
    rw [if_pos hin, hi]
    exact hbelow
  · rw [if_neg hin] at hi
    rw [if_neg hin, ← hi]
    exact hbelow

/-- A whole conversion: from the converter's place on, P gets the bytes of the closed form, and nothing
else changes but the working registers (R135, R138). -/
theorem runLines_convert (fuel : Nat) :
    ∀ (m : Nat) (s : State), Quiet s → s.ctl = .convert → s.cfg.geomOk = true → Latched s →
      s.conv.inRange s.cfg = true →
      dstIndex s.cfg s.conv.t s.conv.r s.conv.h + (m + 1) = s.cfg.n →
      ∃ (p : Memory) (v : Conv),
        runLines (fuel + (m + 1)) s = runLines fuel (convertDone { s with packed := p, conv := v })
        ∧ (s.packed.wf = true → p.wf = true)
        ∧ ∀ k, p.read k =
            if dstIndex s.cfg s.conv.t s.conv.r s.conv.h ≤ k ∧ k < s.cfg.n then
              some (convByte s.cfg s.bitmapByte k)
            else s.packed.read k := by
  intro m
  induction m with
  | zero =>
    intro s q hc hg hl hv hm
    have hr : s.conv.r < s.cfg.nb := by
      simp only [Conv.inRange, Bool.and_eq_true, decide_eq_true_eq] at hv; exact hv.2
    have hi := convertByte_index s hg hv
    have hnot : (Conv.next s.cfg s.latch).inRange s.cfg = false := by
      by_contra hne
      rw [if_pos (by simpa using hne)] at hi
      have hin : (Conv.next s.cfg s.latch).inRange s.cfg = true := by simpa using hne
      simp only [Conv.inRange, Bool.and_eq_true, decide_eq_true_eq] at hin
      have := dstIndex_lt s.cfg hg _ _ (Conv.next s.cfg s.latch).h hin.1 hin.2
      omega
    have hline : line s = convertDone (convertByte s) := by
      simp [line, hc, convertStep, hv, hnot]
    have hq : Quiet (line s) := by
      rw [hline]; unfold convertDone; split <;> exact q
    refine ⟨(convertByte s).packed, (convertByte s).conv, ?_, ?_, ?_⟩
    · rw [runLines_line fuel s q (by simp [atBoundary, hc]) (by simp [waiting, hc]) hq, hline]
      rfl
    · intro hw; exact Memory.wf_write _ _ _ hw
    · intro k
      rw [convertByte_packed, Memory.read_write, latch_byte s hg hr hl]
      by_cases hk : k = dstIndex s.cfg s.conv.t s.conv.r s.conv.h
      · subst hk; rw [if_pos rfl, if_pos ⟨le_refl _, by omega⟩]
      · rw [if_neg hk, if_neg (by omega)]
  | succ m ih =>
    intro s q hc hg hl hv hm
    have hr : s.conv.r < s.cfg.nb := by
      simp only [Conv.inRange, Bool.and_eq_true, decide_eq_true_eq] at hv; exact hv.2
    have hi := convertByte_index s hg hv
    have hin : (Conv.next s.cfg s.latch).inRange s.cfg = true := by
      by_contra hne
      rw [if_neg hne] at hi
      omega
    rw [if_pos hin] at hi
    have hline : line s = convertByte s := by
      simp [line, hc, convertStep, hv, hin]
    have hq : Quiet (line s) := by rw [hline]; exact q
    obtain ⟨p, v, h1, h2, h3⟩ := ih (convertByte s) q hc hg (latched_next s) hin
      (by simp only [convertByte_conv, convertByte_cfg]; rw [hi]; omega)
    refine ⟨p, v, ?_, ?_, ?_⟩
    · rw [show fuel + (m + 1 + 1) = (fuel + (m + 1)) + 1 by omega,
        runLines_line _ s q (by simp [atBoundary, hc]) (by simp [waiting, hc]) hq, hline, h1]
      rfl
    · intro hw; exact h2 (Memory.wf_write _ _ _ hw)
    · intro k
      rw [h3 k]
      have hb : (convertByte s).bitmapByte = s.bitmapByte := rfl
      simp only [convertByte_conv, convertByte_cfg, convertByte_packed, hb]
      rw [hi, Memory.read_write, latch_byte s hg hr hl]
      by_cases hk : k = dstIndex s.cfg s.conv.t s.conv.r s.conv.h
      · subst hk
        rw [if_neg (by omega), if_pos rfl, if_pos ⟨le_refl _, by omega⟩]
      · rw [if_neg hk]
        by_cases hk2 : dstIndex s.cfg s.conv.t s.conv.r s.conv.h + 1 ≤ k ∧ k < s.cfg.n
        · rw [if_pos hk2, if_pos ⟨by omega, hk2.2⟩]
        · rw [if_neg hk2, if_neg (by omega)]

/-- The converter from its start to its end (R136), with at least `n + 1` micro-steps to take. -/
theorem runLines_startConvert (fuel : Nat) (s : State) (q : Quiet s) (hg : s.cfg.geomOk = true) :
    ∃ (p : Memory) (v : Conv),
      runLines (fuel + s.cfg.n) (startConvert s)
        = runLines fuel (convertDone { s with packed := p, conv := v, ctl := .convert })
      ∧ (s.packed.wf = true → p.wf = true)
      ∧ ∀ k, p.read k =
          if k < s.cfg.n then some (convByte s.cfg s.bitmapByte k) else s.packed.read k := by
  obtain ⟨h1, h2, _, _, _, hn, _⟩ := geomOk_numbers s.cfg hg
  obtain ⟨m, hm⟩ : ∃ m, s.cfg.n = m + 1 :=
    Nat.exists_eq_succ_of_ne_zero (by rw [hn]; exact (Nat.mul_pos h1 (by omega)).ne')
  obtain ⟨p, v, ha, hb, hc⟩ := runLines_convert fuel m (startConvert s) q rfl hg
    (by intro h; simp [startConvert] at h)
    (by simp [Conv.inRange, startConvert, h1, h2])
    (by simp [dstIndex, startConvert, hm])
  refine ⟨p, v, ?_, hb, ?_⟩
  · rw [hm]; exact ha
  · intro k
    rw [hc k]
    simp [dstIndex, startConvert]
    rfl

end Sys2Proof.Machine
end

