-- ==== Sys2Proof/Laws/Ops.lean ====
section
/-! SUPPORT. What each shared operation does, said once: taking an error, moving TP, the return of a
transaction, the regions of the host space, a host access. -/

namespace Sys2Proof.Machine

/-! Errors -/

/-- CMD_ERR changes its flag and ERRINFO alone (R220, R250). -/
theorem cmdError_eq (v : Word) (s : State) :
    cmdError v s = { s with
      status := { s.status with cmdErr := true }
      errinfo := ⟨some .cmd, v.extractLsb' 0 8, 0⟩ } := rfl

@[simp] theorem setErr_op (f : Status) (k : ErrKind) : (f.setErr k).op = f.op := by cases k <;> rfl
@[simp] theorem setErr_ready (f : Status) (k : ErrKind) : (f.setErr k).ready = f.ready := by
  cases k <;> rfl
@[simp] theorem setErr_busy (f : Status) (k : ErrKind) : (f.setErr k).busy = f.busy := by
  cases k <;> rfl
@[simp] theorem setErr_done (f : Status) (k : ErrKind) : (f.setErr k).done = f.done := by
  cases k <;> rfl

/-- Every other error records and aborts: READY and PHASE change when the op was INIT (R250, R251). -/
theorem raiseError_abort (k : ErrKind) (loc : Half) (opc : Byte) (s : State) (h : k ≠ .cmd) :
    raiseError k loc opc s = { s with
      status := { s.status.setErr k with
        busy := false
        op := .none
        ready := if s.status.op = .init then false else s.status.ready }
      errinfo := ⟨some k, opc, loc⟩
      phase := if s.status.op = .init then .fault else s.phase
      ctl := .idle } := by
  unfold raiseError
  rw [if_neg h]
  simp [abortOp, recordError, Status.aborted]

/-! The table pointer -/

theorem advanceTp_fits (len : Nat) (s : State) (h : s.tp.toNat + len < 65536) :
    advanceTp len s = { s with tp := BitVec.ofNat 16 (s.tp.toNat + len), ctl := .fetch } := by
  simp [advanceTp, h]

theorem advanceTp_past (len : Nat) (s : State) (h : ¬ s.tp.toNat + len < 65536) :
    advanceTp len s = { s with
      tp := Config.tpBeyond s.fresh, tpPast := true, fresh := s.fresh + 1, ctl := .fetch } := by
  simp [advanceTp, h]

/-! The return of a transaction (R161, R214, R242) -/

theorem returnStep_entry (s : State) (h : s.framer.caller = .entry) :
    returnStep true s = advanceTp (2 + s.framer.pl.length) s := by
  simp [returnStep, h]

theorem returnStep_refresh (s : State) (k : Fin 3) (h : s.framer.caller = .refresh k) :
    returnStep true s = if k = 0 then handRefresh 1 s
      else if k = 1 then handRefresh 2 s else finishOp s := by
  match k with
  | 0 => simp [returnStep, h]
  | 1 => simp [returnStep, h]
  | 2 => simp [returnStep, h]

theorem returnStep_fail (s : State) :
    returnStep false s = raiseError .bus
      (match s.framer.caller with
        | .entry => s.tp
        | .refresh k => BitVec.ofNat 16 k.val) s.framer.op s := by
  unfold returnStep
  cases s.framer.caller <;> rfl

/-! The host space (R61) -/

theorem regionOf_register (a : Nat) (h : a < 0x20) : regionOf a = some (.register a) := by
  simp [regionOf, h]

theorem regionOf_bitmap (i : Nat) (h : i < 65536) : regionOf (0x10000 + i) = some (.bitmap i) := by
  unfold regionOf
  split_ifs <;> first | omega | simp

theorem regionOf_packed (k : Nat) (h : k < 65536) : regionOf (0x20000 + k) = some (.packed k) := by
  unfold regionOf
  split_ifs <;> first | omega | simp

theorem regionOf_reserved (a : Nat)
    (h : (0x20 ≤ a ∧ a < 0x10000) ∨ (0x30000 ≤ a ∧ a < 0x40000)) :
    regionOf a = some .reserved := by
  unfold regionOf
  split_ifs <;> first | omega | rfl

theorem regionOf_none (a : Nat) : regionOf a = none ↔ 0x40000 ≤ a := by
  unfold regionOf
  split_ifs <;> simp <;> omega

/-- What a host access that is no CTRL write may change: STATUS's W1C bits, B, and the model's record and
queue; never anything else (R64 to R67). -/
theorem hostAccess_keeps {s t : State} {x : HostAccess} (h : hostAccess x s = .next t) :
    t = { s with
      status := t.status, bitmap := t.bitmap, answers := t.answers, hostQ := t.hostQ } := by
  cases x with
  | rd a =>
    simp only [hostAccess] at h
    split at h <;> simp at h
    subst h; rfl
  | rdb a =>
    simp only [hostAccess] at h
    split at h <;> simp at h
    subst h; rfl
  | poll a bit b =>
    simp only [hostAccess] at h
    split at h <;> (try split at h) <;> simp at h <;> subst h <;> rfl
  | wr a v =>
    simp only [hostAccess, writeWord] at h
    split at h <;> (try split at h) <;> simp at h <;> subst h
    · unfold writeRegister; split_ifs <;> rfl
    · rfl
  | wrb a v =>
    simp only [hostAccess, writeByte] at h
    split at h <;> simp at h <;> subst h
    · split_ifs <;> rfl
    · rfl
    · rfl

/-! Block reset (R270, R271) -/

@[simp] theorem blockReset_cfg (s : State) : (blockReset s).cfg = s.cfg := rfl
@[simp] theorem blockReset_rom (s : State) : (blockReset s).rom = s.rom := rfl
@[simp] theorem blockReset_status (s : State) : (blockReset s).status = Status.reset := rfl
@[simp] theorem blockReset_phase (s : State) : (blockReset s).phase = .uninit := rfl
@[simp] theorem blockReset_ctl (s : State) : (blockReset s).ctl = .idle := rfl
@[simp] theorem blockReset_trace (s : State) : (blockReset s).trace = [] := rfl
@[simp] theorem blockReset_bitmap (s : State) : (blockReset s).bitmap = [] := rfl
@[simp] theorem blockReset_packed (s : State) : (blockReset s).packed = [] := rfl
@[simp] theorem blockReset_hostQ (s : State) : (blockReset s).hostQ = s.hostQ := rfl
@[simp] theorem blockReset_resets (s : State) : (blockReset s).resets = s.resets.tail := rfl
@[simp] theorem blockReset_lines (s : State) :
    (blockReset s).lines = { resetLines with te := s.lines.te } := rfl

end Sys2Proof.Machine
end

