-- ==== Sys2Proof/Laws/Transport.lean ====
section
/-! SUPPORT. One transaction, from its first line to its return, in a state with no input scheduled: it
does what the pseudocode of R191 says for the environment's answers. -/

namespace Sys2Proof.Machine

theorem levelsAfter_append (l : Lines) (a b : List Event) :
    levelsAfter l (a ++ b) = levelsAfter (levelsAfter l a) b := by
  simp [levelsAfter, List.foldl_append]

@[simp] theorem drive_tx (l : Lines) (b : Byte) : l.drive (.tx b) = l := rfl
@[simp] theorem drive_wait (l : Lines) (ms : Half) : l.drive (.wait ms) = l := rfl
@[simp] theorem drive_fail (l : Lines) : l.drive .fail = l := rfl

theorem levelsAfter_tx (l : Lines) (bs : List Byte) : levelsAfter l (bs.map .tx) = l := by
  induction bs with
  | nil => rfl
  | cons b bs ih => simpa [levelsAfter] using ih

/-- The payload bytes still to come go out one by one (R191, R198). -/
theorem runLines_payload (fuel : Nat) :
    ∀ (n : Nat) (s : State), Quiet s → s.ctl = .txn .payload →
      s.framer.sent + (n + 1) = s.framer.pl.length →
      runLines (fuel + (n + 1)) s
        = runLines fuel { s with
            trace := s.trace ++ (s.framer.pl.drop s.framer.sent).map .tx
            framer := { s.framer with sent := s.framer.pl.length }
            ctl := .txn .plDraw } := by
  intro n
  induction n with
  | zero =>
    intro s q hc hl
    have hlt : s.framer.sent < s.framer.pl.length := by omega
    have hg : s.framer.pl[s.framer.sent]? = some s.framer.pl[s.framer.sent] :=
      List.getElem?_eq_getElem hlt
    have hline : line s = { s with
        trace := s.trace ++ (s.framer.pl.drop s.framer.sent).map .tx
        framer := { s.framer with sent := s.framer.pl.length }
        ctl := .txn .plDraw } := by
      have hd : s.framer.pl.drop s.framer.sent = [s.framer.pl[s.framer.sent]] := by
        rw [List.drop_eq_getElem_cons hlt, List.drop_eq_nil_of_le (by omega)]
      have hn : ¬ s.framer.sent + 1 < s.framer.pl.length := by omega
      simp only [line, hc, txnStep, sendByte, hg, hd, if_neg hn]
      have : s.framer.sent + 1 = s.framer.pl.length := by omega
      simp [emit, this]
    rw [runLines_line fuel s q (by simp [atBoundary, hc]) (by simp [waiting, hc])
      (by rw [hline]; exact q), hline]
  | succ n ih =>
    intro s q hc hl
    have hlt : s.framer.sent < s.framer.pl.length := by omega
    have hg : s.framer.pl[s.framer.sent]? = some s.framer.pl[s.framer.sent] :=
      List.getElem?_eq_getElem hlt
    have hline : line s = { s with
        trace := s.trace ++ [.tx s.framer.pl[s.framer.sent]]
        framer := { s.framer with sent := s.framer.sent + 1 }
        ctl := .txn .payload } := by
      have hn : s.framer.sent + 1 < s.framer.pl.length := by omega
      simp only [line, hc, txnStep, sendByte, hg, if_pos hn]
      simp [emit]
    have hq : Quiet (line s) := by rw [hline]; exact q
    have hd : s.framer.pl.drop s.framer.sent
        = s.framer.pl[s.framer.sent] :: s.framer.pl.drop (s.framer.sent + 1) :=
      List.drop_eq_getElem_cons hlt
    have ih' := ih (line s) hq (by rw [hline]) (by rw [hline]; simp only; omega)
    rw [show fuel + (n + 1 + 1) = (fuel + (n + 1)) + 1 by omega,
      runLines_line _ s q (by simp [atBoundary, hc]) (by simp [waiting, hc]) hq, ih', hline]
    simp only [hd, List.map_cons, List.append_assoc, List.singleton_append]

theorem returnStep_boundary (ok : Bool) (s : State) : atBoundary (returnStep ok s) = true := by
  unfold returnStep
  split <;> simp [atBoundary, handRefresh, handOver, finishOp, raiseError, abortOp]

theorem returnStep_inputs (ok : Bool) (s : State) :
    (returnStep ok s).hostQ = s.hostQ ∧ (returnStep ok s).resets = s.resets := by
  unfold returnStep
  split <;> simp

/-- The return of a transaction is the end of its run. -/
theorem runLines_ret (n : Nat) (ok : Bool) (s : State) (q : Quiet s) (hc : s.ctl = .ret ok) :
    runLines (n + 1) s = returnStep ok s := by
  have hl : line s = returnStep ok s := by simp [line, hc]
  have hi := returnStep_inputs ok s
  rw [runLines_line n s q (by simp [atBoundary, hc]) (by simp [waiting, hc])
    (by rw [hl]; exact ⟨hi.1.trans q.1, hi.2.trans q.2⟩), hl]
  exact runLines_boundary n _ (returnStep_boundary ok s)

/-- The opcode phase up to its draw (R191). -/
theorem runLines_opPhase (n : Nat) (s : State) (q : Quiet s) (hc : s.ctl = .txn .command) :
    runLines (n + 2) s = runLines n { s with
      trace := s.trace ++ [.dc false, .tx s.framer.op]
      lines := { s.lines with dc := false }
      ctl := .txn .opDraw } := by
  refine (runLines_to (n + 1) s { s with
    trace := s.trace ++ [.dc false], lines := { s.lines with dc := false }, ctl := .txn .opcode }
    q (by simp [atBoundary, hc]) (by simp [waiting, hc])
    (by simp [line, hc, txnStep, emit, Lines.drive]) q).trans ?_
  exact runLines_to n _ _ q rfl rfl (by simp [line, txnStep, emit]) q

/-- A write phase that fails ends the transaction with FAIL and CS(1) (R191). -/
theorem runLines_drawFail (n : Nat) (s : State) (ds : List Draw) (q : Quiet s)
    (hc : s.ctl = .txn .opDraw ∨ s.ctl = .txn .plDraw) (hd : s.draws = .fail :: ds) :
    runLines (n + 3) s = returnStep false { s with
      trace := s.trace ++ [.fail, .cs true]
      lines := { s.lines with cs := true }
      draws := ds
      ctl := .ret false } := by
  refine (runLines_to (n + 2) s { s with
    trace := s.trace ++ [.fail], draws := ds, ctl := .txn .failDeselect } q
    (by rcases hc with hc | hc <;> simp [atBoundary, hc])
    (by rcases hc with hc | hc <;> simp [waiting, hc, hd])
    (by rcases hc with hc | hc <;> simp [line, hc, txnStep, drawBus, hd, emit]) q).trans ?_
  refine Eq.trans (runLines_to (n + 1) _ { s with
    trace := s.trace ++ [.fail, .cs true], lines := { s.lines with cs := true }
    draws := ds, ctl := .ret false } (by exact q) (by rfl) (by rfl)
    (by simp [line, txnStep, emit, Lines.drive]) (by exact q)) ?_
  exact runLines_ret n false _ q rfl

/-- The end of a successful opcode phase: CS(1), DC(1), and the data phase or the return (R191, R192). -/
theorem runLines_opOk (n : Nat) (s : State) (ds : List Draw) (q : Quiet s)
    (hc : s.ctl = .txn .opDraw) (hd : s.draws = .ok :: ds) :
    runLines (n + 3) s = runLines n { s with
      trace := s.trace ++ [.cs true, .dc true]
      lines := { s.lines with cs := true, dc := true }
      draws := ds
      ctl := if s.framer.pl.length = 0 then .ret true else .txn .dataSelect } := by
  refine (runLines_to (n + 2) s { s with draws := ds, ctl := .txn .opDeselect } q
    (by simp [atBoundary, hc]) (by simp [waiting, hc, hd])
    (by simp [line, hc, txnStep, drawBus, hd]) q).trans ?_
  refine Eq.trans (runLines_to (n + 1) _ { s with
    trace := s.trace ++ [.cs true], lines := { s.lines with cs := true }
    draws := ds, ctl := .txn .dataMode } (by exact q) (by rfl) (by rfl)
    (by simp [line, txnStep, emit, Lines.drive]) (by exact q)) ?_
  exact runLines_to n _ _ q rfl rfl (by simp [line, txnStep, emit, Lines.drive]) q

/-- The data phase from its CS(0) to its draw (R191). -/
theorem runLines_dataPhase (n : Nat) (s : State) (q : Quiet s) (hc : s.ctl = .txn .dataSelect)
    (h0 : s.framer.sent = 0) (hp : s.framer.pl.length ≠ 0) :
    runLines (n + s.framer.pl.length + 1) s = runLines n { s with
      trace := s.trace ++ ([.cs false] ++ s.framer.pl.map .tx)
      lines := { s.lines with cs := false }
      framer := { s.framer with sent := s.framer.pl.length }
      ctl := .txn .plDraw } := by
  refine (runLines_to _ s { s with
    trace := s.trace ++ [.cs false], lines := { s.lines with cs := false }
    ctl := .txn .payload } q (by simp [atBoundary, hc]) (by simp [waiting, hc])
    (by simp [line, hc, txnStep, emit, Lines.drive]) q).trans ?_
  obtain ⟨m, hm⟩ := Nat.exists_eq_succ_of_ne_zero hp
  have h := runLines_payload n m { s with
    trace := s.trace ++ [.cs false], lines := { s.lines with cs := false }
    ctl := .txn .payload } q rfl (by simp only [h0, hm]; omega)
  rw [show n + s.framer.pl.length = n + (m + 1) by omega]
  refine h.trans ?_
  simp [h0]

/-- The end of a successful data phase: CS(1) and the return (R191). -/
theorem runLines_plOk (n : Nat) (s : State) (ds : List Draw) (q : Quiet s)
    (hc : s.ctl = .txn .plDraw) (hd : s.draws = .ok :: ds) :
    runLines (n + 3) s = returnStep true { s with
      trace := s.trace ++ [.cs true]
      lines := { s.lines with cs := true }
      draws := ds
      ctl := .ret true } := by
  refine (runLines_to (n + 2) s { s with draws := ds, ctl := .txn .plDeselect } q
    (by simp [atBoundary, hc]) (by simp [waiting, hc, hd])
    (by simp [line, hc, txnStep, drawBus, hd]) q).trans ?_
  refine Eq.trans (runLines_to (n + 1) _ { s with
    trace := s.trace ++ [.cs true], lines := { s.lines with cs := true }
    draws := ds, ctl := .ret true } (by exact q) (by rfl) (by rfl)
    (by simp [line, txnStep, emit, Lines.drive]) (by exact q)) ?_
  exact runLines_ret n true _ q rfl

/-- With an answer for every write phase there is one for every draw the transaction takes. -/
theorem txnSpec_draws (op : Byte) (pl : List Byte) (ds : List Draw) (h : txnPhases pl ≤ ds.length) :
    (txnSpec op pl ds).2.2 ≤ ds.length := by
  have hp : (txnSpec op pl ds).2.2 ≤ txnPhases pl := by
    unfold txnSpec txnPhases
    split <;> split_ifs <;> (try split) <;> simp
  omega

/-- What one transaction does: in a state with no input scheduled, and with an answer for each draw it takes,
it emits, takes and returns what R191 says, and goes on with its caller. -/
theorem sendTxn_spec (op : Byte) (pl : List Byte) (s : State) (q : Quiet s)
    (hd : (txnSpec op pl s.draws).2.2 ≤ s.draws.length) :
    sendTxn op pl s = returnStep (txnSpec op pl s.draws).2.1 { s with
      trace := s.trace ++ (txnSpec op pl s.draws).1
      lines := levelsAfter s.lines (txnSpec op pl s.draws).1
      framer := ⟨op, pl, if s.draws.head? = some .ok then pl.length else 0, s.framer.caller⟩
      draws := s.draws.drop (txnSpec op pl s.draws).2.2
      ctl := .ret (txnSpec op pl s.draws).2.1 } := by
  have hbegin : beginTxn op pl s = { s with
      trace := s.trace ++ [.cs false]
      lines := { s.lines with cs := false }
      framer := ⟨op, pl, 0, s.framer.caller⟩
      ctl := .txn .command } := by
    unfold beginTxn
    rw [tick_quiet _ (by exact q)]
    simp [emit, Lines.drive]
  unfold sendTxn runOn lineBound
  rw [hbegin]
  simp only
  obtain ⟨d, rest, hdr⟩ : ∃ d rest, s.draws = d :: rest := by
    cases h : s.draws with
    | nil =>
      simp [txnSpec, h] at hd
    | cons d rest => exact ⟨d, rest, rfl⟩
  rw [show s.cfg.n + pl.length + 16 = (s.cfg.n + pl.length + 11) + 3 + 2 by omega]
  refine Eq.trans (runLines_opPhase _ _ (by exact q) (by rfl)) ?_
  cases d with
  | fail =>
    refine Eq.trans (runLines_drawFail _ _ rest (by exact q) (by exact Or.inl rfl) (by exact hdr)) ?_
    simp [txnSpec, hdr, levelsAfter, Lines.drive]
  | ok =>
    refine Eq.trans (runLines_opOk _ _ rest (by exact q) (by rfl) (by exact hdr)) ?_
    by_cases h0 : pl.length = 0
    · rw [show s.cfg.n + pl.length + 11 = (s.cfg.n + pl.length + 10) + 1 by omega]
      refine Eq.trans (runLines_ret _ true _ (by exact q) (by exact if_pos h0)) ?_
      simp [txnSpec, hdr, h0, levelsAfter, Lines.drive]
    · simp only [if_neg h0]
      rw [show s.cfg.n + pl.length + 11 = ((s.cfg.n + 7) + 3) + pl.length + 1 by omega]
      refine Eq.trans (runLines_dataPhase _ _ (by exact q) (by rfl) (by rfl) (by exact h0)) ?_
      obtain ⟨d2, rest2, hdr2⟩ : ∃ d2 rest2, rest = d2 :: rest2 := by
        cases h : rest with
        | nil => simp [txnSpec, h0, hdr, h] at hd
        | cons d2 rest2 => exact ⟨d2, rest2, rfl⟩
      subst hdr2
      cases d2 with
      | fail =>
        refine Eq.trans (runLines_drawFail _ _ rest2 (by exact q) (by exact Or.inr rfl) (by rfl)) ?_
        simp only [txnSpec, hdr, if_neg h0, levelsAfter_append, levelsAfter_tx]
        simp [levelsAfter, Lines.drive]
      | ok =>
        refine Eq.trans (runLines_plOk _ _ rest2 (by exact q) (by rfl) (by rfl)) ?_
        simp only [txnSpec, hdr, if_neg h0, levelsAfter_append, levelsAfter_tx]
        simp [levelsAfter, Lines.drive]

end Sys2Proof.Machine
end

