-- ==== Sys2Proof/Laws/Trace.lean ====
section
/-! SUPPORT. Traces: the bytes they send with the levels of CS and DC, and what one micro-step of a
transaction adds (R191, R197). -/

namespace Sys2Proof.Machine

theorem txSelected_append (l : Lines) (a b : List Event) :
    txSelected l (a ++ b) = (txSelected l a && txSelected (levelsAfter l a) b) := by
  induction a generalizing l with
  | nil => simp [txSelected, levelsAfter]
  | cons e a ih => cases e <;> simp [txSelected, ih, levelsAfter, Bool.and_assoc]

/-! The bytes of a trace -/

theorem sentBytes_append (l : Lines) (a b : List Event) :
    sentBytes l (a ++ b) = sentBytes l a ++ sentBytes (levelsAfter l a) b := by
  induction a generalizing l with
  | nil => rfl
  | cons e a ih => cases e <;> simp [sentBytes, ih, levelsAfter]

theorem sentBytes_tx (l : Lines) (pl : List Byte) :
    sentBytes l (pl.map .tx) = pl.map fun b => ⟨b, l.cs, l.dc⟩ := by
  induction pl with
  | nil => rfl
  | cons b pl ih => simp [sentBytes, ih]

/-- A payload phase sends its bytes at CS = 0 and DC = 1 (R197). -/
theorem sentBytes_payloadPhase (l : Lines) (pl : List Byte) :
    sentBytes l (payloadPhase pl) = pl.map fun b => ⟨b, false, true⟩ := by
  simp [payloadPhase, sentBytes, sentBytes_tx, Lines.drive]

/-- An opcode phase sends the opcode at CS = 0 and DC = 0 (R197). -/
theorem sentBytes_opcodePhase (l : Lines) (op : Byte) (tr : List Event) :
    sentBytes l (opcodePhase op ++ tr)
      = ⟨op, false, false⟩ :: sentBytes { l with cs := false, dc := false } tr := rfl

/-- A transaction's bytes from any levels (R197). -/
theorem sentBytes_okFrame (l : Lines) (op : Byte) (pl : List Byte) :
    sentBytes l (okFrame op pl) = txnBytes op pl := by
  unfold okFrame txnBytes
  split_ifs with h
  · rw [List.length_eq_zero_iff.1 h]; rfl
  · simp [sentBytes, sentBytes_append, sentBytes_tx, Lines.drive]

/-- A failed transaction's bytes from any levels: the payload's only if its phase was reached (R191, R197). -/
theorem sentBytes_failed (l : Lines) (f : Framer) (tr : List Event)
    (h : f.sent = 0 ∨ f.sent = f.pl.length) (ht : ∀ l', sentBytes l' tr = []) :
    sentBytes l (f.failed ++ tr) = txnBytes f.op (f.pl.take f.sent) := by
  unfold Framer.failed txnBytes
  rw [List.append_assoc, List.append_assoc, sentBytes_opcodePhase]
  split_ifs with h0
  · simp [h0, sentBytes, ht]
  · rcases h with h | h
    · exact absurd h h0
    · rw [h, List.take_length, sentBytes_append, sentBytes_payloadPhase]
      simp [sentBytes, ht]

theorem sentBytes_item (l : Lines) (it : TraceItem) : sentBytes l it.events = it.bytes := by
  cases it with
  | sent op pl => exact sentBytes_okFrame l op pl
  | opcodeFailed op => rfl
  | payloadFailed op b pl =>
    simp only [TraceItem.events, TraceItem.bytes, txnBytes]
    rw [List.append_assoc, sentBytes_opcodePhase, sentBytes_append, sentBytes_payloadPhase]
    simp [sentBytes]
  | wait ms => rfl
  | rst v => rfl

theorem sentBytes_items (l : Lines) (items : List TraceItem) :
    sentBytes l (items.flatMap TraceItem.events) = items.flatMap TraceItem.bytes := by
  induction items generalizing l with
  | nil => rfl
  | cons it items ih => simp [sentBytes_append, sentBytes_item, ih]

/-- A failed transaction, once deselected, is one item (R191). -/
theorem failed_item {f : Framer} (h : f.sent = 0 ∨ f.sent = f.pl.length) :
    ∃ it : TraceItem, it.events = f.failed ++ [.cs true] := by
  unfold Framer.failed
  split_ifs with h0
  · exact ⟨.opcodeFailed f.op, by simp [TraceItem.events]⟩
  · rcases h with h | h
    · exact absurd h h0
    · cases hp : f.pl with
      | nil => simp [hp] at h; exact absurd h h0
      | cons b pl => exact ⟨.payloadFailed f.op b pl, by simp [TraceItem.events]⟩

/-- The bytes of the entry or transaction under way (R197). -/
theorem sentBytes_open (l : Lines) (s : State) (o : OpInv s) :
    sentBytes l s.openEvents = s.openBytes := by
  have hn := o.counts
  unfold State.openEvents State.openBytes
  cases hc : s.ctl with
  | idle => rfl
  | fetch => rfl
  | present => rfl
  | convert => rfl
  | finish => rfl
  | delay =>
    obtain ⟨ms, hf, _⟩ := o.delaying hc
    simp [State.entryHere, hf, entryEvents, sentBytes]
  | advance len =>
    rcases o.advancing _ hc with hf | hf <;> simp [State.entryHere, hf, entryEvents, sentBytes]
  | ret ok =>
    rw [hc] at hn
    cases ok with
    | true =>
      have hs : s.framer.sent = s.framer.pl.length := hn
      simp only [hs, List.take_length]
      exact sentBytes_okFrame l _ _
    | false => exact sentBytes_failed l _ _ hn fun _ => rfl
  | txn st =>
    rw [hc] at hn
    cases st <;> simp only [Framer.counts] at hn <;> simp only [Framer.emitted]
    case command => rfl
    case opcode => rfl
    case opDraw => rw [hn]; rfl
    case opDeselect => rw [hn]; rfl
    case dataMode => rw [hn]; rfl
    case dataSelect => rw [hn.1]; rfl
    case payload => rw [sentBytes_opcodePhase, sentBytes_payloadPhase]; rfl
    case plDraw => rw [sentBytes_opcodePhase, sentBytes_payloadPhase, hn.1, List.take_length]; rfl
    case plDeselect => rw [sentBytes_opcodePhase, sentBytes_payloadPhase, hn.1, List.take_length]; rfl
    case failDeselect =>
      have h := sentBytes_failed l s.framer [] hn fun _ => rfl
      rwa [List.append_nil] at h

/-- A trace of whole items and the part under way sends their bytes, so `framed` needs its first half alone. -/
theorem framed_bytes {s : State} (o : OpInv s)
    (h : ∃ items : List TraceItem, s.trace = items.flatMap TraceItem.events ++ s.openEvents) :
    ∃ items : List TraceItem, s.trace = items.flatMap TraceItem.events ++ s.openEvents
      ∧ sentBytes resetLines s.trace = items.flatMap TraceItem.bytes ++ s.openBytes := by
  obtain ⟨items, h⟩ := h
  refine ⟨items, h, ?_⟩
  rw [h, sentBytes_append, sentBytes_items, sentBytes_open _ _ o]

/-! One micro-step of a transaction -/

/-- The answer of the environment inside a transaction: none, and nothing changes; OK, and the next line is
the given one; FAIL, with its event (R191, R193). -/
theorem drawBus_cases (next : TxnStage) (s : State) :
    (s.draws = [] ∧ drawBus next s = s)
      ∨ (∃ ds, s.draws = .ok :: ds ∧ drawBus next s = { s with draws := ds, ctl := .txn next })
      ∨ ∃ ds, s.draws = .fail :: ds
          ∧ drawBus next s = { emit .fail s with draws := ds, ctl := .txn .failDeselect } := by
  unfold drawBus
  cases h : s.draws with
  | nil => exact .inl ⟨rfl, rfl⟩
  | cons d ds =>
    cases d
    · exact .inr (.inl ⟨ds, rfl, rfl⟩)
    · exact .inr (.inr ⟨ds, rfl, rfl⟩)

/-- Everything one micro-step of a transaction does: it emits some events, and its place and counter are then
those of a transaction that has emitted them (R191). -/
theorem txnStep_spec {s : State} {st : TxnStage} (hc : s.ctl = .txn st) (hn : s.framer.counts s.ctl) :
    ∃ (more : List Event) (n : Nat) (c : Control) (ds : List Draw),
      txnStep st s = { s with
        framer := { s.framer with sent := n }
        lines := levelsAfter s.lines more
        trace := s.trace ++ more
        draws := ds
        ctl := c }
      ∧ c.inTxn = true
      ∧ (txnStep st s).framer.counts c
      ∧ (txnStep st s).openEvents = s.openEvents ++ more := by
  have hoe : s.openEvents = s.framer.emitted st := by simp [State.openEvents, hc]
  rw [hc] at hn
  rw [hoe]
  have draw : ∀ next : TxnStage, s.framer.counts (.txn next) →
      s.framer.emitted next = s.framer.emitted st →
      s.framer.sent = 0 ∨ s.framer.sent = s.framer.pl.length →
      s.framer.failed = s.framer.emitted st ++ [.fail] →
      ∃ (more : List Event) (n : Nat) (c : Control) (ds : List Draw),
        drawBus next s = { s with
          framer := { s.framer with sent := n }
          lines := levelsAfter s.lines more
          trace := s.trace ++ more
          draws := ds
          ctl := c }
        ∧ c.inTxn = true
        ∧ (drawBus next s).framer.counts c
        ∧ (drawBus next s).openEvents = s.framer.emitted st ++ more := by
    intro next h1 h2 h3 h4
    rcases drawBus_cases next s with ⟨_, e⟩ | ⟨ds, _, e⟩ | ⟨ds, _, e⟩ <;> rw [e]
    · exact ⟨[], s.framer.sent, s.ctl, s.draws, by simp [levelsAfter], by rw [hc]; rfl, by rw [hc]; exact hn,
        by rw [hoe, List.append_nil]⟩
    · exact ⟨[], s.framer.sent, .txn next, ds, by simp [levelsAfter], rfl, h1,
        by rw [List.append_nil]; exact h2⟩
    · exact ⟨[.fail], s.framer.sent, .txn .failDeselect, ds, rfl, rfl, h3, h4⟩
  cases st <;> simp only [Framer.counts] at hn <;> simp only [txnStep]
  case command => exact ⟨[.dc false], s.framer.sent, .txn .opcode, s.draws, rfl, rfl, hn, rfl⟩
  case opcode => exact ⟨[.tx s.framer.op], s.framer.sent, .txn .opDraw, s.draws, rfl, rfl, hn, rfl⟩
  case opDraw => exact draw _ hn rfl (.inl hn) (by simp [Framer.failed, hn, Framer.emitted])
  case opDeselect => exact ⟨[.cs true], s.framer.sent, .txn .dataMode, s.draws, rfl, rfl, hn, rfl⟩
  case dataMode =>
    by_cases h0 : s.framer.pl.length = 0
    · refine ⟨[.dc true], s.framer.sent, .ret true, s.draws, by simp [h0, levelsAfter], rfl,
        by simp [Framer.counts, h0, hn], ?_⟩
      simp [h0, State.openEvents, okFrame, Framer.emitted, opcodePhase]
    · refine ⟨[.dc true], s.framer.sent, .txn .dataSelect, s.draws, by simp [h0, levelsAfter], rfl,
        ⟨hn, fun e => h0 (by simpa using congrArg List.length e)⟩, ?_⟩
      simp [h0, State.openEvents, Framer.emitted, opcodePhase]
  case dataSelect =>
    refine ⟨[.cs false], s.framer.sent, .txn .payload, s.draws, rfl, rfl, ?_, ?_⟩
    · simpa [Framer.counts, hn.1] using List.length_pos_of_ne_nil hn.2
    · simp [State.openEvents, Framer.emitted, opcodePhase, payloadPhase, hn.1]
  case payload =>
    have hg : s.framer.pl[s.framer.sent]? = some s.framer.pl[s.framer.sent] :=
      List.getElem?_eq_getElem hn
    have htk : s.framer.pl.take (s.framer.sent + 1)
        = s.framer.pl.take s.framer.sent ++ [s.framer.pl[s.framer.sent]] := by
      rw [List.take_add_one, hg]; rfl
    simp only [sendByte, hg]
    by_cases hl : s.framer.sent + 1 < s.framer.pl.length
    · refine ⟨[.tx s.framer.pl[s.framer.sent]], s.framer.sent + 1, .txn .payload, s.draws,
        by simp [hl, levelsAfter], rfl, hl, ?_⟩
      simp only [hl, if_true, State.openEvents, Framer.emitted, payloadPhase, htk, List.map_append]
      simp
    · have he : s.framer.sent + 1 = s.framer.pl.length := by omega
      rw [he, List.take_length] at htk
      refine ⟨[.tx s.framer.pl[s.framer.sent]], s.framer.sent + 1, .txn .plDraw, s.draws,
        by simp [hl, levelsAfter], rfl,
        ⟨he, List.ne_nil_of_length_pos (show 0 < s.framer.pl.length by omega)⟩, ?_⟩
      simp only [hl, if_false, State.openEvents, Framer.emitted, payloadPhase]
      conv_lhs => rw [htk]
      simp only [List.map_append]
      simp
  case plDraw =>
    have h0 : s.framer.sent ≠ 0 := fun e => hn.2 (List.eq_nil_of_length_eq_zero (hn.1 ▸ e))
    exact draw _ hn rfl (.inr hn.1) (by simp [Framer.failed, h0, Framer.emitted])
  case plDeselect =>
    refine ⟨[.cs true], s.framer.sent, .ret true, s.draws, rfl, rfl, hn.1, ?_⟩
    simp [State.openEvents, Framer.emitted, opcodePhase, payloadPhase, okFrame, hn.2]
  case failDeselect => exact ⟨[.cs true], s.framer.sent, .ret false, s.draws, rfl, rfl, hn, rfl⟩

end Sys2Proof.Machine
end

