-- ==== Sys2Proof/Laws/Invariant.lean ====
section
/-! SUPPORT. What the shared operations and the micro-steps keep of the invariant's parts. -/

namespace Sys2Proof.Machine

/-! ## Registers, lines and buffers -/

/-- An update that leaves the buffers, STATUS and PHASE as they are keeps the block's part, if the place, the
lines and the trace stay in agreement. -/
theorem blockInv_of_same {s t : State} (h : BlockInv s) (h1 : t.bitmap = s.bitmap)
    (h2 : t.packed = s.packed) (h3 : t.cfg = s.cfg) (h4 : t.status = s.status)
    (h5 : t.phase = s.phase) (hp : t.ctl.runs t.framer.caller s.status.op = true)
    (h6 : t.lines = { levelsAfter resetLines t.trace with te := t.lines.te })
    (h7 : txSelected resetLines t.trace = true) (h8 : t.lines.cs = !t.ctl.selected) :
    BlockInv t where
  bitmapWf := h1 ▸ h.bitmapWf
  packedWf := h2 ▸ h.packedWf
  bitmapIn := by rw [h1, h3]; exact h.bitmapIn
  packedIn := by rw [h2, h3]; exact h.packedIn
  busyOp := by rw [h4]; exact h.busyOp
  place := by rw [h4]; exact hp
  doneLate := by rw [h4]; exact h.doneLate
  readyActive := by rw [h4, h5]; exact h.readyActive
  readyGeom := by rw [h4, h3]; exact h.readyGeom
  initPhase := by rw [h4, h5]; exact h.initPhase
  phaseInit := by rw [h4, h5]; exact h.phaseInit
  refreshReady := by rw [h4]; exact h.refreshReady
  opGeom := by rw [h4, h3]; exact h.opGeom
  lines := h6
  selectedTx := h7
  csPlace := h8

/-- An event keeps the lines equal to the trace's levels, and a TX does it while CS is 0. -/
theorem emit_agrees {s : State} (h : BlockInv s) (e : Event) :
    (emit e s).lines
        = { levelsAfter resetLines (emit e s).trace with te := (emit e s).lines.te }
      ∧ ((∀ b, e = .tx b → s.lines.cs = false) →
        txSelected resetLines (emit e s).trace = true) := by
  constructor
  · simp only [emit_lines, emit_trace, levelsAfter_append]
    rw [h.lines]
    cases e <;> rfl
  · intro hb
    simp only [emit_trace, txSelected_append, h.selectedTx, Bool.true_and]
    have hc : s.lines.cs = (levelsAfter resetLines s.trace).cs := by rw [h.lines]
    cases e <;> simp [txSelected]
    rw [← hc]
    exact hb _ rfl

theorem blockInv_tick {s : State} (h : BlockInv s) : BlockInv (tick s) :=
  blockInv_of_same h rfl rfl rfl rfl rfl h.place h.lines h.selectedTx h.csPlace

theorem blockInv_takeAccess {s : State} (h : BlockInv s) (q : List HostReq) :
    BlockInv (takeAccess q s) :=
  blockInv_of_same h rfl rfl rfl rfl rfl h.place h.lines h.selectedTx h.csPlace

theorem blockInv_cmdError {s : State} (h : BlockInv s) (v : Word) : BlockInv (cmdError v s) :=
  ⟨h.bitmapWf, h.packedWf, h.bitmapIn, h.packedIn, h.busyOp, h.place, h.doneLate, h.readyActive,
    h.readyGeom, h.initPhase, h.phaseInit, h.refreshReady, h.opGeom, h.lines, h.selectedTx, h.csPlace⟩

/-- With BUSY = 0 no op runs and the engine is idle (R27). -/
theorem idle_of_not_busy {s : State} (h : BlockInv s) (hb : s.status.busy = false) :
    s.status.op = .none ∧ s.ctl = .idle := by
  have ho : s.status.op = .none := by
    by_contra hne
    have := h.busyOp.2 hne
    simp [hb] at this
  refine ⟨ho, ?_⟩
  have := h.place
  rw [ho] at this
  cases hc : s.ctl <;> rw [hc] at this <;> simp [Control.runs] at this

/-- The deselected engine's place may become another deselected one. -/
theorem csPlace_move {s t : State} (h : BlockInv s) (hl : t.lines = s.lines)
    (hs : s.ctl.selected = false) (ht : t.ctl.selected = false) : t.lines.cs = !t.ctl.selected := by
  rw [hl, ht, h.csPlace, hs]

theorem blockInv_finishOp {s : State} (h : BlockInv s) (hs : s.ctl.selected = false)
    (hi : s.status.op ≠ .init) : BlockInv (finishOp s) := by
  refine ⟨h.bitmapWf, h.packedWf, h.bitmapIn, h.packedIn, ?_, ?_, ?_, h.readyActive, h.readyGeom, ?_, ?_,
    ?_, ?_, h.lines, h.selectedTx, csPlace_move h rfl hs rfl⟩
  · simp [Status.completed]
  · simp [Status.completed, Control.runs]
  · simp [Status.completed]
  · simp [Status.completed]
  · exact fun hp => absurd (h.phaseInit hp) hi
  · simp [Status.completed]
  · simp [Status.completed]

theorem blockInv_raiseError {s : State} (h : BlockInv s) (k : ErrKind) (loc : Half) (opc : Byte)
    (hk : k ≠ .cmd) (hs : s.ctl.selected = false) : BlockInv (raiseError k loc opc s) := by
  rw [raiseError_abort k loc opc s hk]
  refine ⟨h.bitmapWf, h.packedWf, h.bitmapIn, h.packedIn, by simp, rfl, by simp, ?_, ?_, by simp, ?_,
    by simp, by simp, h.lines, h.selectedTx, csPlace_move h rfl hs rfl⟩
  · by_cases hi : s.status.op = .init
    · simp [hi]
    · simpa [hi] using h.readyActive
  · simp only
    split_ifs
    · simp
    · exact h.readyGeom
  · by_cases hi : s.status.op = .init
    · simp [hi, Phase.ofInit]
    · simp only [if_neg hi]
      exact fun hp => absurd (h.phaseInit hp) hi

theorem blockInv_advanceTp {s : State} (h : BlockInv s) (len : Nat) (hs : s.ctl.selected = false)
    (hi : s.status.op = .init) : BlockInv (advanceTp len s) :=
  blockInv_of_same h (by simp) (by simp) (by simp) (by simp) (by simp) (by simp [Control.runs, hi])
    (by simpa using h.lines) (by simpa using h.selectedTx)
    (csPlace_move h (by simp) hs (by simp [Control.selected]))

theorem blockInv_handRefresh {s : State} (h : BlockInv s) (k : Fin 3) (hs : s.ctl.selected = false)
    (hi : s.status.op = .refresh) : BlockInv (handRefresh k s) :=
  blockInv_of_same h rfl rfl rfl rfl rfl (by simp [Control.runs, hi]) h.lines h.selectedTx
    (csPlace_move h rfl hs rfl)

theorem blockInv_returnStep {s : State} (h : BlockInv s) (ok : Bool) (hc : s.ctl = .ret ok) :
    BlockInv (returnStep ok s) := by
  have hp := h.place
  rw [hc] at hp
  have hs : s.ctl.selected = false := by rw [hc]; rfl
  unfold returnStep
  split <;> rename_i hcal <;> simp [hcal, Control.runs] at hp
  · exact blockInv_advanceTp h _ hs hp
  · exact blockInv_handRefresh h _ hs hp
  · exact blockInv_handRefresh h _ hs hp
  · exact blockInv_finishOp h hs (by simp [hp])
  · exact blockInv_raiseError h _ _ _ (by simp) hs
  · exact blockInv_raiseError h _ _ _ (by simp) hs

theorem blockInv_convertByte {s : State} (h : BlockInv s) (hg : s.cfg.geomOk = true)
    (hv : s.conv.inRange s.cfg = true) : BlockInv (convertByte s) := by
  refine ⟨h.bitmapWf, Memory.wf_write _ _ _ h.packedWf, h.bitmapIn, ?_, h.busyOp, h.place, h.doneLate,
    h.readyActive, h.readyGeom, h.initPhase, h.phaseInit, h.refreshReady, h.opGeom, h.lines, h.selectedTx,
    h.csPlace⟩
  intro k hk
  simp only [Conv.inRange, Bool.and_eq_true, decide_eq_true_eq] at hv
  have := dstIndex_lt s.cfg hg _ _ s.conv.h hv.1 hv.2
  simp only [convertByte_packed, convertByte_cfg] at *
  rw [Memory.read_write, if_neg (by omega)]
  exact h.packedIn k hk

theorem blockInv_convertDone {s : State} (h : BlockInv s) (hc : s.ctl = .convert) :
    BlockInv (convertDone s) := by
  have hp := h.place
  rw [hc] at hp
  have hs : s.ctl.selected = false := by rw [hc]; rfl
  unfold convertDone
  split_ifs with ho
  · exact blockInv_handRefresh h _ hs ho
  · exact blockInv_of_same h rfl rfl rfl rfl rfl (by simpa [Control.runs, ho] using hp) h.lines
      h.selectedTx (csPlace_move h rfl hs rfl)

theorem blockInv_txnStep {s : State} (h : BlockInv s) (st : TxnStage) (hc : s.ctl = .txn st) :
    BlockInv (txnStep st s) := by
  have hp := h.place
  have hcs := h.csPlace
  rw [hc] at hp hcs
  simp only [Control.selected, TxnStage.selected] at hcs
  have em := emit_agrees h
  have draw : ∀ next : TxnStage, s.lines.cs = false → next.selected = true →
      BlockInv (drawBus next s) := by
    intro next hs hn
    unfold drawBus
    split
    · exact h
    · exact blockInv_of_same h rfl rfl rfl rfl rfl hp h.lines h.selectedTx
        (by simp [Control.selected, hn, hs])
    · exact blockInv_of_same h rfl rfl rfl rfl rfl hp (em .fail).1 ((em .fail).2 (by simp))
        (by simp [Control.selected, TxnStage.selected, hs])
  cases st <;> simp only [txnStep]
  case command =>
    exact blockInv_of_same h rfl rfl rfl rfl rfl hp (em (.dc false)).1 ((em (.dc false)).2 (by simp))
      (by simpa [Lines.drive, Control.selected, TxnStage.selected] using hcs)
  case opcode =>
    exact blockInv_of_same h rfl rfl rfl rfl rfl hp (em (.tx s.framer.op)).1
      ((em (.tx s.framer.op)).2 fun _ _ => by simpa using hcs)
      (by simpa [Control.selected, TxnStage.selected] using hcs)
  case opDraw => exact draw _ (by simpa using hcs) rfl
  case opDeselect =>
    exact blockInv_of_same h rfl rfl rfl rfl rfl hp (em (.cs true)).1 ((em (.cs true)).2 (by simp)) rfl
  case dataMode =>
    have hs : s.lines.cs = true := hcs
    refine blockInv_of_same h rfl rfl rfl rfl rfl ?_ (em (.dc true)).1 ((em (.dc true)).2 (by simp)) ?_
    · dsimp; split_ifs <;> exact hp
    · dsimp; split_ifs <;> simpa [Lines.drive, Control.selected, TxnStage.selected] using hs
  case dataSelect =>
    exact blockInv_of_same h rfl rfl rfl rfl rfl hp (em (.cs false)).1 ((em (.cs false)).2 (by simp)) rfl
  case payload =>
    unfold sendByte
    split
    · exact blockInv_of_same h rfl rfl rfl rfl rfl hp h.lines h.selectedTx
        (by simpa [Control.selected, TxnStage.selected] using hcs)
    · rename_i b _
      refine blockInv_of_same h rfl rfl rfl rfl rfl ?_ (em (.tx b)).1
        ((em (.tx b)).2 fun _ _ => by simpa using hcs) ?_
      · dsimp; split_ifs <;> exact hp
      · dsimp; split_ifs <;> simpa [Control.selected, TxnStage.selected] using hcs
  case plDraw => exact draw _ (by simpa using hcs) rfl
  case plDeselect =>
    exact blockInv_of_same h rfl rfl rfl rfl rfl hp (em (.cs true)).1 ((em (.cs true)).2 (by simp)) rfl
  case failDeselect =>
    exact blockInv_of_same h rfl rfl rfl rfl rfl hp (em (.cs true)).1 ((em (.cs true)).2 (by simp)) rfl

/-- A micro-step keeps the block's part. -/
theorem blockInv_line {s : State} (h : BlockInv s) : BlockInv (line s) := by
  have hp := h.place
  unfold line
  cases hc : s.ctl with
  | idle => exact h
  | fetch => exact h
  | present => exact h
  | delay =>
    simp only [delayStep]
    split_ifs
    · exact blockInv_advanceTp h _ (by rw [hc]; rfl) (by simpa [hc, Control.runs] using hp)
    · exact blockInv_of_same h rfl rfl rfl rfl rfl h.place h.lines h.selectedTx h.csPlace
  | advance len =>
    exact blockInv_advanceTp h _ (by rw [hc]; rfl) (by simpa [hc, Control.runs] using hp)
  | ret ok => exact blockInv_returnStep h ok hc
  | finish =>
    have ho : s.status.op = .convert := by simpa [hc, Control.runs] using hp
    exact blockInv_finishOp h (by rw [hc]; rfl) (by simp [ho])
  | convert =>
    have hg : s.cfg.geomOk = true :=
      h.opGeom (h.busyOp.2 (by rintro e; simp [hc, e, Control.runs] at hp))
    simp only [convertStep]
    split_ifs with h1 h2
    · exact blockInv_convertByte h hg h1
    · exact blockInv_convertDone (blockInv_convertByte h hg h1) hc
    · exact blockInv_convertDone h hc
  | txn st => exact blockInv_txnStep h st hc

theorem blockInv_runOn {s : State} (h : BlockInv s) : BlockInv (runOn s) :=
  runOn_keeps BlockInv (fun _ h _ => blockInv_tick (blockInv_line h)) s h

/-! ## The op under way and the trace -/

/-- The parts on the op and on the trace do not read PHASE, ERRINFO, the lines, the inputs or the answers. -/
theorem opInv_of_same {s : State} (h : OpInv s) (st : Status) (ho : st.op = s.status.op)
    (hr : st.ready = s.status.ready) (p : Phase) (e : ErrInfo) (l : Lines) (q : List HostReq)
    (rs : List Nat) (ds : List Draw) (as : List Answer) (tr : List Event) :
    OpInv { s with
      status := st, phase := p, errinfo := e, lines := l, hostQ := q, resets := rs
      draws := ds, answers := as, trace := tr } := by
  refine ⟨?_, h.converting, ?_, h.entryTxn, h.refreshTxn, h.counts, h.delaying, h.advancing⟩
  · simp only [ho, hr]; exact h.window
  · simp only [ho]; exact h.converted

theorem traceInv_of_same {s : State} (h : TraceInv s) (st : Status) (ho : st.op = s.status.op)
    (hr : st.ready = s.status.ready) (p : Phase) (e : ErrInfo) (l : Lines) (n : Nat) (q : List HostReq)
    (rs : List Nat) (ds : List Draw) (as : List Answer) :
    TraceInv { s with
      status := st, phase := p, errinfo := e, lines := l, fresh := n, hostQ := q, resets := rs
      draws := ds, answers := as } := by
  refine ⟨h.framed, ?_, ?_, h.refreshTrace⟩
  · simp only [ho]; exact h.initTrace
  · simp only [hr]; exact h.readyTrace

theorem openEvents_idle {s : State} (hc : s.ctl = .idle) : s.openEvents = [] := by
  simp [State.openEvents, hc]

/-- With no op running only WIN is left to say. -/
theorem opInv_idle {s : State} (hc : s.ctl = .idle) (ho : s.status.op = .none)
    (hw : s.status.ready = true → s.win = cfgWindow s.cfg) : OpInv s := by
  refine ⟨?_, ?_, ?_, ?_, ?_, ?_, ?_, ?_⟩ <;> simp [hc, ho, Control.inTxn, Framer.counts]
  exact hw

/-- What READY says of the trace stays while the trace grows and TP and T stay. -/
theorem readyTrace_keeps {s t : State} (h : TraceInv s) (more : List Event)
    (ht : t.trace = s.trace ++ more) (hr : t.status.ready = true → s.status.ready = true)
    (h1 : t.rom = s.rom) (h2 : t.tp = s.tp) (h3 : t.tpPast = s.tpPast) :
    t.status.ready = true →
      ∃ before es after, t.trace = before ++ es.flatMap entryEvents ++ after ∧ t.ranEntries es
        ∧ fetchEntry t = .ok (.endEntry, 1) := by
  intro hh
  obtain ⟨before, es, after, e1, e2, e3⟩ := h.readyTrace (hr hh)
  refine ⟨before, es, after ++ more, by rw [ht, e1]; simp, ?_, ?_⟩
  · unfold State.ranEntries; rw [h1, h2, h3]; exact e2
  · unfold fetchEntry; rw [h1, h2, h3]; exact e3

/-- INIT runs with READY = 0 (R211). -/
theorem init_not_ready {s : State} (h : BlockInv s) (ho : s.status.op = .init) :
    s.status.ready = false := by
  by_contra hr
  have h1 := h.readyActive.1 (by simpa using hr)
  have h2 := h.initPhase ho
  rw [h1] at h2
  simp [Phase.ofInit] at h2

/-- The op ends: what it has emitted is whole items, and the trace and TP stay. -/
theorem opTrace_end {s u : State} (o : OpInv s) (t : TraceInv s) (hc : u.ctl = .idle)
    (ho : u.status.op = .none) (hr : u.status.ready = true → s.status.ready = true)
    (hw : u.win = s.win) (hcfg : u.cfg = s.cfg) (h1 : u.rom = s.rom) (h2 : u.tp = s.tp)
    (h3 : u.tpPast = s.tpPast) (ht : u.trace = s.trace)
    (hit : ∃ items : List TraceItem, items.flatMap TraceItem.events = s.openEvents) :
    OpInv u ∧ TraceInv u := by
  have hu : OpInv u := opInv_idle hc ho fun h => by rw [hw, hcfg]; exact o.window (.inl (hr h))
  refine ⟨hu, framed_bytes hu ?_, by simp [ho], readyTrace_keeps t [] (by simp [ht]) hr h1 h2 h3,
    by simp [hc, Control.inTxn]⟩
  obtain ⟨items, e, _⟩ := t.framed
  obtain ⟨more, hit⟩ := hit
  exact ⟨items ++ more, by rw [openEvents_idle hc, ht, e, ← hit]; simp⟩

/-! The entries that have run -/

/-- What stands at the head of the entries that have run (R161). -/
theorem entriesEnd_cons {rom : List Byte} {a x : Nat} {i : Instr} {es : List Instr} :
    entriesEnd rom a (i :: es) = some x ↔
      ∃ len, decodeEntry (rom.drop a) = .ok (i, len) ∧ a < 65536 ∧ passedEntry i = true
        ∧ entriesEnd rom (a + len) es = some x := by
  rw [entriesEnd]
  cases decodeEntry (rom.drop a) with
  | error e => simp
  | ok p =>
    obtain ⟨j, len⟩ := p
    by_cases h : a < 65536 ∧ i = j ∧ passedEntry i = true
    · obtain ⟨h1, rfl, h3⟩ := h
      simp [h1, h3]
    · simp only [if_neg h, reduceCtorEq, false_iff]
      rintro ⟨_, e, h1, h3, _⟩
      simp only [Except.ok.injEq, Prod.mk.injEq] at e
      exact h ⟨h1, e.1.symm, h3⟩

theorem decodeEntry_pos {bs : List Byte} {i : Instr} {len : Nat}
    (h : decodeEntry bs = .ok (i, len)) : 0 < len := by
  unfold decodeEntry at h
  split at h
  · simp at h
  · split_ifs at h <;> (try split at h) <;> (try split_ifs at h) <;> simp at h <;>
      obtain ⟨_, rfl⟩ := h <;> omega

theorem entriesEnd_le {rom : List Byte} {es : List Instr} :
    ∀ {a x : Nat}, entriesEnd rom a es = some x → a ≤ x := by
  induction es with
  | nil => intro a x h; simp [entriesEnd] at h; omega
  | cons i es ih =>
    intro a x h
    obtain ⟨len, _, _, _, h⟩ := entriesEnd_cons.1 h
    have := ih h
    omega

/-- One more entry (R161). -/
theorem entriesEnd_snoc {rom : List Byte} {i : Instr} {len x : Nat} (hx : x < 65536)
    (hd : decodeEntry (rom.drop x) = .ok (i, len)) (hi : passedEntry i = true) {es : List Instr} :
    ∀ {a : Nat}, entriesEnd rom a es = some x → entriesEnd rom a (es ++ [i]) = some (x + len) := by
  induction es with
  | nil =>
    intro a h
    simp only [entriesEnd, Option.some.injEq] at h
    subst h
    exact entriesEnd_cons.2 ⟨len, hd, hx, hi, rfl⟩
  | cons j es ih =>
    intro a h
    obtain ⟨l, h1, h2, h3, h4⟩ := entriesEnd_cons.1 h
    exact entriesEnd_cons.2 ⟨l, h1, h2, h3, ih h4⟩

/-- Entries that end at the same place, or both past the table's size, are the same. -/
theorem entriesEnd_unique {rom : List Byte} {x y : Nat} (hxy : x = y ∨ 65536 ≤ x ∧ 65536 ≤ y)
    {es : List Instr} : ∀ {a : Nat} {fs : List Instr}, entriesEnd rom a es = some x →
      entriesEnd rom a fs = some y → es = fs := by
  induction es with
  | nil =>
    intro a fs h h'
    cases fs with
    | nil => rfl
    | cons f fs =>
      obtain ⟨len, hd, ha, _, h''⟩ := entriesEnd_cons.1 h'
      have h1 := decodeEntry_pos hd
      have h2 := entriesEnd_le h''
      simp only [entriesEnd, Option.some.injEq] at h
      omega
  | cons e es ih =>
    intro a fs h h'
    obtain ⟨len, hd, ha, _, h⟩ := entriesEnd_cons.1 h
    cases fs with
    | nil =>
      have h1 := decodeEntry_pos hd
      have h2 := entriesEnd_le h
      simp only [entriesEnd, Option.some.injEq] at h'
      omega
    | cons f fs =>
      obtain ⟨len', hd', _, _, h'⟩ := entriesEnd_cons.1 h'
      rw [hd] at hd'
      simp only [Except.ok.injEq, Prod.mk.injEq] at hd'
      obtain ⟨rfl, rfl⟩ := hd'
      rw [ih h h']

/-- The table and TP determine the entries that have run (R161). -/
theorem ranEntries_unique {s : State} {es fs : List Instr} (h : s.ranEntries es)
    (h' : s.ranEntries fs) : es = fs := by
  obtain ⟨a, ha, ha'⟩ := h
  obtain ⟨b, hb, hb'⟩ := h'
  refine entriesEnd_unique ?_ ha hb
  split_ifs at ha' hb'
  · exact .inr ⟨ha', hb'⟩
  · exact .inl (ha'.trans hb'.symm)

/-- The entry at TP joins the entries that have run when TP moves past it (R161). -/
theorem ranEntries_advance {s : State} {i : Instr} {len : Nat} {es : List Instr}
    (hf : fetchEntry s = .ok (i, len)) (hi : passedEntry i = true) (hr : s.ranEntries es) :
    (advanceTp len s).ranEntries (es ++ [i]) := by
  unfold fetchEntry at hf
  split_ifs at hf with hp
  obtain ⟨a, ha, hat⟩ := hr
  rw [if_neg hp] at hat
  subst hat
  refine ⟨s.tp.toNat + len, by simpa using entriesEnd_snoc s.tp.isLt hf hi ha, ?_⟩
  by_cases h : s.tp.toNat + len < 65536
  · rw [advanceTp_fits _ _ h]
    simp only [if_neg hp, BitVec.toNat_ofNat]
    omega
  · rw [advanceTp_past _ _ h]
    simp only [if_true]
    omega

/-- The entry at TP has emitted its events, and TP moves past it (R161, R170). -/
theorem initFrom_advance {s : State} {before : List Event} (h : s.initFrom before) {i : Instr}
    {len : Nat} (hf : fetchEntry s = .ok (i, len)) (hi : passedEntry i = true)
    (hop : s.openEvents = entryEvents i) : (advanceTp len s).initFrom before := by
  obtain ⟨es, e, hr⟩ := h
  have hoe : (advanceTp len s).openEvents = [] := by simp [State.openEvents]
  exact ⟨es ++ [i], by rw [hoe]; simp [e, hop], ranEntries_advance hf hi hr⟩

/-- Both parts when it does. -/
theorem opTrace_advance {s : State} (h : Inv s) (hi : s.status.op = .init) {i : Instr} {len : Nat}
    (hf : fetchEntry s = .ok (i, len)) (hp : passedEntry i = true)
    (hop : s.openEvents = entryEvents i) (hit : ∃ it : TraceItem, it.events = entryEvents i) :
    OpInv (advanceTp len s) ∧ TraceInv (advanceTp len s) := by
  have hw := h.window (.inr hi)
  have hn := init_not_ready h.toBlockInv hi
  have hoe : (advanceTp len s).openEvents = [] := by simp [State.openEvents]
  have ho : OpInv (advanceTp len s) := by
    refine ⟨?_, ?_, ?_, ?_, ?_, ?_, ?_, ?_⟩ <;> simp [Control.inTxn, Framer.counts, hi, hw]
  refine ⟨ho, framed_bytes ho ?_, fun _ => ?_, by simp [hn], by simp [Control.inTxn]⟩
  · obtain ⟨items, e, _⟩ := h.framed
    obtain ⟨it, hit⟩ := hit
    exact ⟨items ++ [it], by rw [hoe]; simp [e, hop, hit]⟩
  · obtain ⟨before, hb⟩ := h.initTrace hi
    exact ⟨before, initFrom_advance hb hf hp hop⟩

/-- A micro-step of a transaction keeps both parts. -/
theorem opTrace_txnStep {s : State} (h : Inv s) (st : TxnStage) (hc : s.ctl = .txn st) :
    OpInv (txnStep st s) ∧ TraceInv (txnStep st s) := by
  have hin : s.ctl.inTxn = true := by rw [hc]; rfl
  have hnc : s.ctl ≠ .convert := by simp [hc]
  obtain ⟨more, n, c, ds, e, hct, hcnt, hop⟩ := txnStep_spec hc h.counts
  rw [e] at hcnt hop ⊢
  have ho : OpInv { s with
      framer := { s.framer with sent := n }
      lines := levelsAfter s.lines more
      trace := s.trace ++ more
      draws := ds
      ctl := c } :=
    ⟨h.window, fun (hx : c = _) => by simp [hx, Control.inTxn] at hct, fun hx _ => h.converted hx hnc,
      fun _ => h.entryTxn hin, fun k _ => h.refreshTxn k hin, hcnt,
      fun (hx : c = _) => by simp [hx, Control.inTxn] at hct,
      fun _ (hx : c = _) => by simp [hx, Control.inTxn] at hct⟩
  refine ⟨ho, framed_bytes ho ?_, fun hi => ?_,
    readyTrace_keeps h.toTraceInv more rfl id rfl rfl rfl, fun k _ hk => ?_⟩
  · obtain ⟨items, e, _⟩ := h.framed
    exact ⟨items, by rw [hop, e]; simp⟩
  · obtain ⟨before, es, e, hr⟩ := h.initTrace hi
    exact ⟨before, es, by rw [hop, e]; simp, hr⟩
  · obtain ⟨before, e⟩ := h.refreshTrace k hin hk
    exact ⟨before, by rw [hop, e]; simp [State.framesBefore, State.refreshPayload]⟩

/-- REFRESH hands over its next transaction (R214). -/
theorem opTrace_handRefresh {s : State} (o : OpInv s) (t : TraceInv s) (k : Fin 3)
    (hop : s.status.op = .refresh)
    (hconv : ∀ k, k < s.cfg.n → s.packedByte k = convByte s.cfg s.bitmapByte k)
    (hit : ∃ items : List TraceItem, items.flatMap TraceItem.events = s.openEvents)
    (htr : ∃ before, s.trace = before ++ s.framesBefore k) :
    OpInv (handRefresh k s) ∧ TraceInv (handRefresh k s) := by
  have hoe : (handRefresh k s).openEvents = [] := by simp [State.openEvents]
  have ho : OpInv (handRefresh k s) := by
    refine ⟨by simpa using o.window, by simp, fun _ _ => hconv, by simp, ?_, rfl, by simp, by simp⟩
    intro k' _ e
    simp at e
    subst e
    exact ⟨rfl, rfl⟩
  refine ⟨ho, framed_bytes ho ?_, by simp [hop], readyTrace_keeps t [] (by simp) (by simp) rfl rfl rfl,
    ?_⟩
  · obtain ⟨items, e, _⟩ := t.framed
    obtain ⟨more, hm⟩ := hit
    exact ⟨items ++ more, by simp [hoe, e, hm]⟩
  · intro k' _ e
    simp at e
    subst e
    obtain ⟨before, hb⟩ := htr
    exact ⟨before, by rw [hoe, handRefresh_trace, hb, List.append_nil]; rfl⟩

/-- A micro-step of the converter keeps both parts (R134 to R136, R214, R217). -/
theorem opTrace_convertStep {s : State} (h : Inv s) (hc : s.ctl = .convert) :
    OpInv (convertStep s) ∧ TraceInv (convertStep s) := by
  have hp := h.place
  rw [hc] at hp
  have hg : s.cfg.geomOk = true := h.opGeom (h.busyOp.2 (by rintro e; simp [e, Control.runs] at hp))
  have hni : s.status.op ≠ .init := by rintro e; simp [e, Control.runs] at hp
  have hoe : s.openEvents = [] := by simp [State.openEvents, hc]
  obtain ⟨hv, hl, hk⟩ := h.converting hc
  have hk' := convertByte_progress s hg hl hv hk
  obtain ⟨items, hitems, _⟩ := h.framed
  rw [hoe, List.append_nil] at hitems
  have tr : ∀ {u : State}, OpInv u → u.trace = s.trace → u.openEvents = [] → u.status = s.status →
      u.rom = s.rom → u.tp = s.tp → u.tpPast = s.tpPast →
      (∀ k, u.ctl.inTxn = true → u.framer.caller = .refresh k → k = 0) → TraceInv u := by
    intro u o h1 h2 h3 h4 h5 h6 h7
    refine ⟨framed_bytes o ⟨items, by rw [h1, h2, hitems, List.append_nil]⟩,
      fun e => absurd (h3 ▸ e) hni, readyTrace_keeps h.toTraceInv [] (by simp [h1]) (by simp [h3]) h4 h5 h6,
      fun k hin hk => ?_⟩
    rw [h7 k hin hk, h1, h2]
    exact ⟨s.trace, by simp [State.framesBefore]⟩
  unfold convertStep
  rw [if_pos hv]
  split_ifs with hin
  · rw [if_pos hin] at hk'
    have o : OpInv (convertByte s) := by
      refine ⟨h.window, fun _ => ⟨hin, latched_next s, hk'⟩, fun _ e => absurd hc e, ?_, ?_, ?_, ?_, ?_⟩
        <;> simp [hc, Control.inTxn, Framer.counts]
    exact ⟨o, tr o rfl (by simp [State.openEvents, hc]) rfl rfl rfl rfl
      (by simp [hc, Control.inTxn])⟩
  · rw [if_neg hin] at hk'
    unfold convertDone
    split_ifs with ho
    · have o : OpInv (handRefresh 0 (convertByte s)) := by
        refine ⟨h.window, by simp, fun _ _ => hk', by simp, ?_, rfl, by simp, by simp⟩
        intro k _ e
        simp at e
        subst e
        exact ⟨rfl, rfl⟩
      refine ⟨o, tr o rfl (by simp [State.openEvents]) rfl rfl rfl rfl ?_⟩
      intro k _ e
      simp at e
      exact e.symm
    · have o : OpInv { convertByte s with ctl := .finish } := by
        refine ⟨h.window, by simp, fun _ _ => hk', ?_, ?_, ?_, ?_, ?_⟩
          <;> simp [Control.inTxn, Framer.counts]
      exact ⟨o, tr o rfl (by simp [State.openEvents]) rfl rfl rfl rfl (by simp [Control.inTxn])⟩

end Sys2Proof.Machine
end

