-- ==== Sys2Proof/Laws/PerInstr.lean ====
section
/-! SUPPORT. Statements about every instruction as syntax, one lemma per constructor: the bytes an
instruction puts into the command table are as many as its length (R91, R92), and a well-formed one takes
at most 65. -/

namespace Sys2Proof.Laws.EntryLength

open Sys2Proof.Machine

/-- The instruction's bytes in the table are as many as R92 counts, and at most 65 when it is well
formed (R93). -/
def Statement (i : Instr) : Prop :=
  (entryBytes i).length = entryLen i ∧ (wellFormed i = true → entryLen i ≤ longestEntry)

theorem cmd (op : Byte) (pl : List Byte) : Statement (.cmd op pl) := by
  refine ⟨by simp [entryBytes, encode, entryLen]; omega, fun h => ?_⟩
  have : pl.length ≤ 63 := by simpa [wellFormed] using h
  simp only [entryLen, longestEntry]
  omega

theorem delay (ms : Half) : Statement (.delay ms) :=
  ⟨rfl, fun _ => by simp [entryLen, longestEntry]⟩

theorem rstLow : Statement (.rstLow) :=
  ⟨rfl, fun _ => by simp [entryLen, longestEntry]⟩

theorem rstHigh : Statement (.rstHigh) :=
  ⟨rfl, fun _ => by simp [entryLen, longestEntry]⟩

theorem endEntry : Statement (.endEntry) :=
  ⟨rfl, fun _ => by simp [entryLen, longestEntry]⟩

theorem reservedEntryLow (h : Byte) : Statement (.reservedEntryLow h) :=
  ⟨rfl, fun _ => by simp [entryLen, longestEntry]⟩

theorem reservedEntryHigh (h : Byte) : Statement (.reservedEntryHigh h) :=
  ⟨rfl, fun _ => by simp [entryLen, longestEntry]⟩

theorem nop (ign : BitVec 29) : Statement (.nop ign) :=
  ⟨rfl, fun _ => by simp [entryLen, longestEntry]⟩

theorem init (ign : BitVec 29) : Statement (.init ign) :=
  ⟨rfl, fun _ => by simp [entryLen, longestEntry]⟩

theorem refresh (ign : BitVec 29) : Statement (.refresh ign) :=
  ⟨rfl, fun _ => by simp [entryLen, longestEntry]⟩

theorem convert (ign : BitVec 29) : Statement (.convert ign) :=
  ⟨rfl, fun _ => by simp [entryLen, longestEntry]⟩

theorem reservedCtrl (ign : BitVec 29) (low : BitVec 2) : Statement (.reservedCtrl ign low) :=
  ⟨rfl, fun _ => by simp [entryLen, longestEntry]⟩

theorem sleepOut (pl : List Byte) : Statement (.sleepOut pl) :=
  ⟨rfl, fun _ => by simp [entryLen, longestEntry]⟩

theorem displayOn (pl : List Byte) : Statement (.displayOn pl) :=
  ⟨rfl, fun _ => by simp [entryLen, longestEntry]⟩

theorem colAddrSet (pl : List Byte) : Statement (.colAddrSet pl) :=
  ⟨rfl, fun _ => by simp [entryLen, longestEntry]⟩

theorem rowAddrSet (pl : List Byte) : Statement (.rowAddrSet pl) :=
  ⟨rfl, fun _ => by simp [entryLen, longestEntry]⟩

theorem memWrite (pl : List Byte) : Statement (.memWrite pl) :=
  ⟨rfl, fun _ => by simp [entryLen, longestEntry]⟩

theorem memAccessCtrl (pl : List Byte) : Statement (.memAccessCtrl pl) :=
  ⟨rfl, fun _ => by simp [entryLen, longestEntry]⟩

theorem pixelFormat (pl : List Byte) : Statement (.pixelFormat pl) :=
  ⟨rfl, fun _ => by simp [entryLen, longestEntry]⟩

theorem opaqueOp (op : Byte) (pl : List Byte) : Statement (.opaqueOp op pl) :=
  ⟨rfl, fun _ => by simp [entryLen, longestEntry]⟩

end Sys2Proof.Laws.EntryLength
end

