-- ==== Sys2Proof/Laws/Step.lean ====
section
/-! SUPPORT. What a step can be, case by case, whose turn each case is, what a host command and a wire
row come to, and how a run goes on. -/

namespace Sys2Proof.Machine

/-! A step is one of eight things. -/

/-- Everything a step that answers a next state can be. -/
theorem step_cases {s t : State} (h : step s = .next t) :
    (turn s = .reset ∧ t = blockReset s)
    ∨ (∃ v rest, turn s = .command v rest ∧ exec (decodeCtrl v) (takeAccess rest s) = .next t)
    ∨ (∃ x rest, turn s = .access x rest ∧ hostAccess x (takeAccess rest s) = .next t)
    ∨ (turn s = .idle ∧ t = s)
    ∨ (∃ i len, turn s = .entry ∧ fetchEntry s = .ok (i, len) ∧ exec i s = .next t)
    ∨ (∃ e, turn s = .entry ∧ fetchEntry s = .error e ∧ t = tableError (decodeErrorOpc e) s)
    ∨ (turn s = .wire ∧ exec (decodeWire s.framer.op s.framer.pl) s = .next t)
    ∨ (turn s = .block ∧ t = runOn (micro s)) := by
  unfold step at h
  cases ht : turn s <;> simp only [ht] at h
  case reset => injection h with h; exact .inl ⟨rfl, h.symm⟩
  case command v rest => exact .inr (.inl ⟨v, rest, rfl, h⟩)
  case access x rest => exact .inr (.inr (.inl ⟨x, rest, rfl, h⟩))
  case idle => injection h with h; exact .inr (.inr (.inr (.inl ⟨rfl, h.symm⟩)))
  case entry =>
    cases hf : fetchEntry s with
    | ok p => 
      obtain ⟨i, len⟩ := p
      rw [hf] at h
      exact .inr (.inr (.inr (.inr (.inl ⟨i, len, rfl, rfl, h⟩))))
    | error e =>
      rw [hf] at h
      injection h with h
      exact .inr (.inr (.inr (.inr (.inr (.inl ⟨e, rfl, rfl, h.symm⟩)))))
  case wire => exact .inr (.inr (.inr (.inr (.inr (.inr (.inl ⟨rfl, h⟩))))))
  case block =>
    injection h with h
    exact .inr (.inr (.inr (.inr (.inr (.inr (.inr ⟨rfl, h.symm⟩))))))

/-! Whose turn it is. -/

theorem turn_entry {s : State} (h : turn s = .entry) :
    s.ctl = .fetch ∧ resetDue s = false ∧ hostDue s = false := by
  unfold turn hostTurn blockTurn at h
  split_ifs at h with h1 h2 h3 h4 h5
  · split at h <;> (try split at h) <;> simp at h
  · split at h <;> simp at h
  · exact ⟨h4, by simpa using h1, by simpa using h2⟩

theorem turn_wire {s : State} (h : turn s = .wire) :
    s.ctl = .present ∧ resetDue s = false ∧ hostDue s = false := by
  unfold turn hostTurn blockTurn at h
  split_ifs at h with h1 h2 h3 h4 h5
  · split at h <;> (try split at h) <;> simp at h
  · split at h <;> simp at h
  · exact ⟨h5, by simpa using h1, by simpa using h2⟩

theorem turn_block {s : State} (h : turn s = .block) :
    s.ctl ≠ .idle ∧ s.ctl ≠ .fetch ∧ s.ctl ≠ .present ∧ waiting s = false
      ∧ resetDue s = false ∧ hostDue s = false := by
  unfold turn hostTurn blockTurn at h
  split_ifs at h with h1 h2 h3 h4 h5
  · split at h <;> (try split at h) <;> simp at h
  · split at h <;> simp at h
  · simp at h3; exact ⟨h3.1, h4, h5, h3.2, by simpa using h1, by simpa using h2⟩

theorem turn_command {s : State} {v rest} (h : turn s = .command v rest) :
    HostTurn s (.wr 0 v) rest := by
  unfold turn hostTurn blockTurn at h
  split_ifs at h with h1 h2 h3 h4 h5
  · refine ⟨by simpa using h1, h2, ?_⟩
    split at h
    · simp at h
    · rename_i r rs hq
      split at h
      · rename_i v' hv
        injection h with e1 e2; subst e1; subst e2
        refine ⟨r.after, ?_⟩
        rw [hq]
        obtain ⟨n, x⟩ := r
        cases x <;> simp [ctrlWrite] at hv
        obtain ⟨rfl, rfl⟩ := hv; rfl
      · simp at h
  · split at h <;> simp at h

theorem turn_access {s : State} {x rest} (h : turn s = .access x rest) :
    HostTurn s x rest ∧ ctrlWrite x = none := by
  unfold turn hostTurn blockTurn at h
  split_ifs at h with h1 h2 h3 h4 h5
  · split at h
    · simp at h
    · rename_i r rs hq
      split at h
      · simp at h
      · rename_i hv
        injection h with e1 e2; subst e1; subst e2
        exact ⟨⟨by simpa using h1, h2, r.after, by rw [hq]⟩, hv⟩
  · split at h <;> simp at h

theorem turn_reset {s : State} (h : turn s = .reset) :
    resetDue s = true ∨ (s.resets ≠ [] ∧ (s.ctl = .idle ∨ waiting s = true)) := by
  unfold turn hostTurn blockTurn at h
  split_ifs at h with h1 h2 h3 h4 h5
  · exact .inl h1
  · split at h <;> (try split at h) <;> simp at h
  · split at h
    · simp at h
    · rename_i hr
      right; exact ⟨by simp [hr], by simpa using h3⟩

/-- An access that is no CTRL write, on its turn. -/
theorem step_access {s : State} {x : HostAccess} {rest : List HostReq} (h : HostTurn s x rest)
    (hc : ctrlWrite x = none) : step s = hostAccess x (takeAccess rest s) := by
  obtain ⟨hr, hh, n, hq⟩ := h
  simp [step, turn, hr, hh, hostTurn, hq, hc]

/-- A CTRL write on its turn. -/
theorem step_command {s : State} {x : HostAccess} {v : Word} {rest : List HostReq}
    (h : HostTurn s x rest) (hc : ctrlWrite x = some v) :
    step s = exec (decodeCtrl v) (takeAccess rest s) := by
  obtain ⟨hr, hh, n, hq⟩ := h
  simp [step, turn, hr, hh, hostTurn, hq, hc]

/-- Inside an instruction, with no input scheduled and no answer missing, a step takes the line and runs
on. -/
theorem step_block (s : State) (q : Quiet s) (h1 : s.ctl ≠ .idle) (h2 : s.ctl ≠ .fetch)
    (h3 : s.ctl ≠ .present) (hw : waiting s = false) : step s = .next (runOn (micro s)) := by
  simp [step, turn, resetDue_quiet s q, hostDue_quiet s q, blockTurn, h1, h2, h3, hw]

/-! What exec comes to. -/

/-- The row of any opcode sends it as it is; SLEEP_OUT alone touches PHASE, for a CMD entry (R102). -/
theorem exec_decodeWire (op : Byte) (pl : List Byte) (s : State) :
    exec (decodeWire op pl) s = .next (sendTxn op pl
      { s with phase := if op = 0x11 ∧ s.framer.caller = .entry then .sleepout else s.phase }) := by
  unfold decodeWire
  split_ifs <;> simp_all [exec, execSleepOut, execDisplayOn, execColAddrSet, execRowAddrSet,
    execMemWrite, execMemAccessCtrl, execPixelFormat, execOpaqueOp]

/-- The same for a row given by what it sends. -/
theorem exec_wireSends (i : Instr) (op : Byte) (pl : List Byte) (s : State)
    (hw : wireSends i = some (op, pl)) :
    exec i s = .next (sendTxn op pl (if i = .sleepOut pl then
      { s with phase := if s.framer.caller = .entry then .sleepout else s.phase } else s)) := by
  cases i <;> simp [wireSends] at hw <;> obtain ⟨rfl, rfl⟩ := hw <;>
    simp [exec, execSleepOut, execDisplayOn, execColAddrSet, execRowAddrSet, execMemWrite,
      execMemAccessCtrl, execPixelFormat, execOpaqueOp]

/-- What a value written to CTRL can do (R220). -/
theorem exec_decodeCtrl_cases {s t : State} {v : Word} (he : exec (decodeCtrl v) s = .next t) :
    t = s ∨ (∃ w, t = cmdError w s)
      ∨ (s.status.busy = false ∧ (t = startInit s
        ∨ (v.extractLsb' 0 3 = 2 ∧ s.status.ready = true ∧ t = startRefresh s)
        ∨ (v.extractLsb' 0 3 = 3 ∧ t = startConvertOp s))) := by
  unfold decodeCtrl at he
  split_ifs at he with h0 h1 h2 h3 <;>
    simp only [exec, execNop, execInit, execRefresh, execConvert, execReservedCtrl,
      acceptCommand] at he <;> injection he with he <;> subst he
  · exact .inl rfl
  · split_ifs with hx
    · exact .inr (.inl ⟨_, rfl⟩)
    · exact .inr (.inr ⟨by simpa using hx, .inl rfl⟩)
  · split_ifs with hx
    · exact .inr (.inl ⟨_, rfl⟩)
    · simp at hx
      exact .inr (.inr ⟨hx.1, .inr (.inl ⟨h2, hx.2, rfl⟩)⟩)
  · split_ifs with hx
    · exact .inr (.inl ⟨_, rfl⟩)
    · exact .inr (.inr ⟨by simpa using hx, .inr (.inr ⟨h3, rfl⟩)⟩)
  · split_ifs with hx
    · exact .inr (.inl ⟨_, rfl⟩)
    · simp at hx

/-- The rows that the table's decoder gives (R91, R97). -/
theorem fetchEntry_row {s : State} {i : Instr} {len : Nat} (hf : fetchEntry s = .ok (i, len)) :
    (∃ op pl, i = .cmd op pl) ∨ (∃ ms, i = .delay ms) ∨ i = .rstLow ∨ i = .rstHigh
      ∨ i = .endEntry ∨ (∃ h, i = .reservedEntryLow h) ∨ ∃ h, i = .reservedEntryHigh h := by
  unfold fetchEntry at hf
  split_ifs at hf
  unfold decodeEntry at hf
  split at hf
  · simp at hf
  · split_ifs at hf <;> (try split at hf) <;> (try split_ifs at hf) <;> simp at hf <;>
      obtain ⟨rfl, _⟩ := hf <;> simp

/-- The advance after an entry is the end of its run. -/
theorem runOn_advance (len : Nat) (s : State) (q : Quiet s) (hc : s.ctl = .advance len) :
    runOn s = advanceTp len s := by
  have hl : line s = advanceTp len s := by simp [line, hc]
  unfold runOn lineBound
  rw [runLines_to _ s (advanceTp len s) q (by simp [atBoundary, hc]) (by simp [waiting, hc]) hl
    (by simpa [Quiet] using q)]
  exact runLines_boundary _ _ (by simp [atBoundary])

/-- What a DELAY does: its event, and no fewer than TICKS_PER_MS × ms ticks on the counter (R163, R257). -/
theorem startDelay_spec (ms : Half) (s : State) :
    ∃ n, s.cfg.ticksPerMs * ms.toNat ≤ n
      ∧ startDelay ms s
        = tick { emit (.wait ms) s with delayCtr := n, fresh := s.fresh + 1, ctl := .delay } :=
  ⟨_, Nat.le_add_right _ _, rfl⟩

theorem driveReset_quiet (v : Bool) (s : State) (q : Quiet s) :
    driveReset v s = advanceTp 1 { emit (.rst v) s with ctl := .advance 1 } := by
  have ht : tick { emit (.rst v) s with ctl := .advance 1 }
      = { emit (.rst v) s with ctl := .advance 1 } := tick_quiet _ q
  unfold driveReset
  rw [ht]
  exact runOn_advance 1 _ q rfl

theorem tableError_quiet (opc : Byte) (s : State) (q : Quiet s) :
    tableError opc s = raiseError .tbl s.tp opc s := by
  unfold tableError
  exact tick_quiet _ ⟨by simp [q.1], by simp [q.2]⟩

/-! Runs. -/

theorem core_run_zero (s : State) : Sys2Proof.core.run 0 s = .next s := rfl

theorem core_run_next {s t : State} (k : Nat) (h : step s = .next t) :
    Sys2Proof.core.run (k + 1) s = Sys2Proof.core.run k t := by
  have h' : Sys2Proof.core.step s = .next t := h
  have e := Host.Core.run.eq_2 Sys2Proof.core s k
  rw [h'] at e
  exact e

end Sys2Proof.Machine
end

