-- ==== Sys2Proof/Tests/Slice0.lean ====
section
/-! SUPPORT. Tests on small states. Expected values are those of 95_test_vectors.md (cited as L1, L2 and L3 by
its names) or written out by hand from the encodings of 30_encoding.md. The last part shows, for every
statement with hypotheses, a state that meets all of them. -/

namespace Sys2Proof.Tests

open Sys2Proof Sys2Proof.Machine

/-! ## Small states -/

/-- The configuration of program L3-1: W = 4, H = 24, WIN = (0, 1, 0, 3). -/
def ex : Cfg where
  w := 4
  h := 24
  tRstLow := 10
  tRstSettle := 20
  configEntries := [.cmd 0xC0 [0x12, 0x34], .delay 5, .cmd 0xB9 []]
  tSleepout := 120
  madctlPl := [0x48]
  colmodPl := [0x11]
  winCs0 := 0
  winCe0 := 1
  winRs0 := 0
  winRe0 := 3
  pmOpcode := 0x38
  pmPl := []
  frOptions := []
  frSel := none
  frIndex := none
  tDispon := 50
  hasTe := false
  ticksPerMs := 2

/-- OPEN values of SMALL that name neither PM_PL nor SPI_MODE. -/
def openEx : OpenSmall where
  tRstLow := 10
  tRstSettle := 20
  configEntries := []
  tSleepout := 120
  madctlPl := [0x48]
  colmodPl := [0x11]
  winCs0 := 0
  winCe0 := 1
  winRs0 := 0
  winRe0 := 3
  pmOpcode := 0x38
  tDispon := 50
  hasTe := false
  ticksPerMs := 2

/-- `ex` with a height that the geometry check refuses (program L3-5). -/
def exBad : Cfg := { ex with h := 16 }

/-- Two frame-rate pairs, the second selected, and the entry at position 0 to carry its payload. -/
def exFr : Cfg :=
  { ex with
    configEntries := [.cmd 0xB2 [0]]
    frOptions := [(0x39, [1]), (0x38, [5])]
    frSel := some 1
    frIndex := some 0 }

/-- The bitmap of L2-C20, index r * 4 + c. -/
def bytesC20 : List Byte := [0x01, 0x00, 0xFF, 0x0F, 0x10, 0x80, 0x00, 0xF0, 0xA5, 0x3C, 0x55, 0xAA]

/-- A buffer holding the bytes from index 0 on. -/
def memOf (bs : List Byte) : Memory := bs.zipIdx.map fun p => (p.2, p.1)

/-- Right after block reset. -/
def idle : State := State.resetWith ex (tableRom ex) 0

/-- The same with the bitmap of L2-C20. -/
def idleC20 : State := { idle with bitmap := memOf bytesC20 }

/-- Initialised: READY, PHASE ACTIVE, WIN loaded. -/
def ready : State :=
  { idleC20 with
    status := { Status.reset with ready := true }
    phase := .active
    win := ⟨0, 1, 0, 3⟩ }

/-- INIT runs, at a place of the engine and an entry address. -/
def running (c : Control) (tp : Half) : State :=
  { idle with
    status := Status.reset.accepted .init
    phase := .reset
    tp := tp
    ctl := c }

/-- INIT has just been accepted. -/
def begun : State := { running .fetch 0 with win := cfgWindow ex }

/-- The entries of `ex`'s table before its END, and their events as whole items of the trace. -/
def entriesEx : List Instr := (initTable ex).dropLast
def itemsEx : List TraceItem := entriesEx.flatMap fun i =>
  match i with
  | .cmd op pl => [.sent op pl]
  | .delay ms => [.wait ms]
  | .rstLow => [.rst false]
  | .rstHigh => [.rst true]
  | _ => []

/-- INIT has run every entry before END. -/
def atEnd : State :=
  { running .fetch 43 with win := cfgWindow ex, trace := entriesEx.flatMap entryEvents }

/-- INIT has run four entries, and the CMD after them is about to fail. -/
def failingCmd : State :=
  { running .present 8 with
    win := cfgWindow ex
    framer := ⟨0xC0, [0x12, 0x34], 0, .entry⟩
    draws := [.fail]
    trace := (entriesEx.take 4).flatMap entryEvents }

/-- CONVERT has been accepted, with the bitmap of L2-C20. -/
def converting : State :=
  startConvert { idleC20 with status := Status.reset.accepted .convert }

/-- The packed bytes of that bitmap. -/
def packedC20 : List Byte := (List.range 12).map (convByte ex idleC20.bitmapByte)

/-- After a whole INIT a REFRESH has sent both windows and is about to send P; both write phases of it will
succeed. -/
def sendingFrame : State :=
  { idleC20 with
    packed := memOf packedC20
    status := { Status.reset.accepted .refresh with ready := true }
    phase := .active
    win := cfgWindow ex
    tp := 43
    ctl := .present
    framer := ⟨0x2C, packedC20, 0, .refresh 2⟩
    draws := [.ok, .ok]
    trace := entriesEx.flatMap entryEvents ++ (okFrame 0x2A [0, 1] ++ okFrame 0x2B [0, 3]) }

/-- INIT runs and the framer holds a CMD entry's transaction. -/
def presented (op : Byte) (pl : List Byte) (ds : List Draw) : State :=
  { running .present 0 with framer := ⟨op, pl, 0, .entry⟩, draws := ds }

/-- REFRESH runs and the framer holds its transaction k. -/
def refreshing (k : Fin 3) (op : Byte) (pl : List Byte) (ds : List Draw) : State :=
  { ready with
    status := ready.status.accepted .refresh
    ctl := .present
    framer := ⟨op, pl, 0, .refresh k⟩
    draws := ds }

/-- INIT runs and stands at the last entry of a table of 65536 bytes, the bytes `bs`. -/
def atTableEnd (bs : List Byte) : State :=
  { running .fetch (BitVec.ofNat 16 (65536 - bs.length)) with
    rom := List.replicate (65536 - bs.length) 0 ++ bs }

/-- That entry is what the sequencer fetches. -/
theorem fetchEntry_atTableEnd (bs : List Byte) (h : 0 < bs.length) :
    fetchEntry (atTableEnd bs) = decodeEntry bs := by
  have htp : (atTableEnd bs).tp.toNat = 65536 - bs.length := by
    simp only [atTableEnd, running, BitVec.toNat_ofNat]
    omega
  have hpast : (atTableEnd bs).tpPast = false := rfl
  have hrom : (atTableEnd bs).rom.drop (65536 - bs.length) = bs :=
    List.drop_left' (List.length_replicate ..)
  simp only [fetchEntry, hpast, Bool.false_eq_true, if_false, htp, hrom]

/-- A host access whose turn it is. -/
def asking (x : HostAccess) (s : State) : State := { s with hostQ := [⟨0, x⟩] }

/-- A fact about the next state; false where there is none. -/
def gives (o : Host.Outcome State Fault Refusal) (p : State → Bool) : Bool :=
  match o with
  | .next t => p t
  | .fault _ => false
  | .refused _ => false

/-- The step is refused for its width or alignment. -/
def refuses (o : Host.Outcome State Fault Refusal) : Bool :=
  match o with
  | .next _ => false
  | .fault _ => false
  | .refused r => r == .hostAccessWidthOrAlignment

/-! ## WellFormed refuses an ill-formed term for each check -/

theorem test_wf_cmd_payload_64 : wellFormed (.cmd 0x2C (List.replicate 64 0)) = false := by decide
theorem test_wf_cmd_payload_63 : wellFormed (.cmd 0x2C (List.replicate 63 0)) = true := by decide
theorem test_wf_reserved_low_edges :
    wellFormed (.reservedEntryLow 0x40) = false ∧ wellFormed (.reservedEntryLow 0x80) = false
      ∧ wellFormed (.reservedEntryLow 0x41) = true ∧ wellFormed (.reservedEntryLow 0x7F) = true := by
  decide
theorem test_wf_reserved_high_edges :
    wellFormed (.reservedEntryHigh 0x81) = false ∧ wellFormed (.reservedEntryHigh 0xFF) = false
      ∧ wellFormed (.reservedEntryHigh 0x82) = true
      ∧ wellFormed (.reservedEntryHigh 0xFE) = true := by decide
theorem test_wf_opaque_named :
    wellFormed (.opaqueOp 0x11 []) = false ∧ wellFormed (.opaqueOp 0x3A [1]) = false
      ∧ wellFormed (.opaqueOp 0xC0 []) = true := by decide

/-! ## Decoding: words written out from the encodings -/

theorem test_decode_cmd : decodeEntry [0x02, 0x2A, 0x00, 0x01] = .ok (.cmd 0x2A [0x00, 0x01], 4) := by
  decide
theorem test_decode_cmd_empty : decodeEntry [0x00, 0x11] = .ok (.cmd 0x11 [], 2) := by decide
theorem test_decode_cmd_longest :
    decodeEntry (0x3F :: 0xAB :: List.replicate 63 0x5A)
      = .ok (.cmd 0xAB (List.replicate 63 0x5A), 65) := by decide
theorem test_decode_delay : decodeEntry [0x40, 0x00, 0x78] = .ok (.delay 120, 3) := by decide
theorem test_decode_delay_high_first : decodeEntry [0x40, 0x01, 0x02] = .ok (.delay 0x0102, 3) := by
  decide
theorem test_decode_rstLow : decodeEntry [0x80] = .ok (.rstLow, 1) := by decide
theorem test_decode_rstHigh : decodeEntry [0x81] = .ok (.rstHigh, 1) := by decide
theorem test_decode_end : decodeEntry [0xFF] = .ok (.endEntry, 1) := by decide
theorem test_decode_reserved_low :
    decodeEntry [0x41] = .ok (.reservedEntryLow 0x41, 1)
      ∧ decodeEntry [0x7F] = .ok (.reservedEntryLow 0x7F, 1) := by decide
theorem test_decode_reserved_high :
    decodeEntry [0x82] = .ok (.reservedEntryHigh 0x82, 1)
      ∧ decodeEntry [0xFE] = .ok (.reservedEntryHigh 0xFE, 1) := by decide
/-- L2-D15 to L2-D19. -/
theorem test_decode_cut_off :
    decodeEntry [0x40, 0x00] = .error (.truncated 0x40)
      ∧ decodeEntry [0x02, 0x2A, 0x00] = .error (.truncated 0x02)
      ∧ decodeEntry [0x00] = .error (.truncated 0x00)
      ∧ decodeEntry [] = .error .ranOff := by decide
theorem test_decode_nop :
    decodeCtrl 0b00000000000000000000000000000000 = .nop 0
      ∧ decodeCtrl 0b11111111111111111111111111111000 = .nop 0x1FFFFFFF := by decide
/-- L2-H6: 0x09 is INIT. -/
theorem test_decode_init : decodeCtrl 0b00000000000000000000000000001001 = .init 1 := by decide
theorem test_decode_refresh : decodeCtrl 0b10000000000000000000000000000010 = .refresh 0x10000000 := by
  decide
theorem test_decode_convert : decodeCtrl 0b00000000000000000000000000000011 = .convert 0 := by decide
theorem test_decode_reservedCtrl :
    decodeCtrl 0b00000000000000000000000000000100 = .reservedCtrl 0 0
      ∧ decodeCtrl 0b00000000000000000000000011111111 = .reservedCtrl 0x1F 3 := by decide
theorem test_decode_wire_named :
    decodeWire 0b00010001 [] = .sleepOut [] ∧ decodeWire 0b00101001 [] = .displayOn []
      ∧ decodeWire 0b00101010 [0, 1] = .colAddrSet [0, 1]
      ∧ decodeWire 0b00101011 [0, 3] = .rowAddrSet [0, 3]
      ∧ decodeWire 0b00101100 [7] = .memWrite [7]
      ∧ decodeWire 0b00110110 [0x48] = .memAccessCtrl [0x48]
      ∧ decodeWire 0b00111010 [0x11] = .pixelFormat [0x11] := by decide
theorem test_decode_wire_opaque :
    decodeWire 0b11000000 [0x12] = .opaqueOp 0xC0 [0x12] ∧ decodeWire 0 [] = .opaqueOp 0 [] := by
  decide
theorem test_encode_cmd : encode (.cmd 0x36 [0x48]) = .entry [0x01, 0x36, 0x48] := by decide
theorem test_encode_ctrl : encode (.reservedCtrl 0x1F 3) = .ctrl 0xFF := by decide
theorem test_table_word_entry :
    decodeTableWord 8 0x80 = some .rstLow ∧ decodeTableWord 8 0xFF = some .endEntry
      ∧ decodeTableWord 8 0x40 = some (.delay 0) ∧ decodeTableWord 8 0x00 = some (.cmd 0 []) := by
  decide
theorem test_table_word_other :
    decodeTableWord 8 0x01 = some (.init 0) ∧ decodeTableWord 8 0x2C = some (.memWrite [])
      ∧ decodeTableWord 0 0 = some (.opaqueOp 0 []) := by decide

/-! ## The configuration, the table, the assembler -/

theorem test_cfg_admitted : ex.admitted = true ∧ exFr.admitted = true := by decide
theorem test_cfg_bytes : (Cfg.failure { ex with winCs0 := 256 }) = some .bytes := by decide
theorem test_cfg_delay : (Cfg.failure { ex with tDispon := 65536 }) = some .delay := by decide
theorem test_cfg_plLen :
    (Cfg.failure { ex with madctlPl := List.replicate 64 0 }) = some .plLen := by decide
theorem test_cfg_config : (Cfg.failure { ex with configEntries := [.endEntry] }) = some .config := by
  decide
theorem test_cfg_fr : (Cfg.failure { exFr with frSel := some 2 }) = some .fr := by decide
theorem test_cfg_dim : (Cfg.failure { ex with w := 65536 }) = some .dim := by decide

/-- PM_PL and SPI_MODE take the defaults of R8 where a record names no value. -/
theorem test_cfg_defaults :
    ex.spiMode = 0 ∧ (smallOf openEx).pmPl = [] ∧ (smallOf openEx).spiMode = 0 := by decide

/-- The table of L3-1, byte for byte (95_test_vectors.md, phases and entries). -/
theorem test_table_L3_1 : tableRom ex =
    [0x80, 0x40, 0x00, 0x0A, 0x81, 0x40, 0x00, 0x14, 0x02, 0xC0, 0x12, 0x34, 0x40, 0x00, 0x05,
      0x00, 0xB9, 0x00, 0x11, 0x40, 0x00, 0x78, 0x01, 0x36, 0x48, 0x01, 0x3A, 0x11,
      0x02, 0x2A, 0x00, 0x01, 0x02, 0x2B, 0x00, 0x03, 0x00, 0x38, 0x00, 0x29, 0x40, 0x00, 0x32,
      0xFF] := by decide
/-- R172: the pair's payload stands in the entry at FR_INDEX, its opcode in the power-mode entry. -/
theorem test_table_frame_rate :
    Instr.cmd 0xB2 [5] ∈ initTable exFr ∧ Instr.cmd 0xB2 [0] ∉ initTable exFr
      ∧ exFr.pmOpcode' = 0x38 := by decide
theorem test_assemble :
    assemble "reset_pulse 10, 0x14 ; pulse\ncmd 0x36, 0x48\n\nend".toList
      = some [0x80, 0x40, 0x00, 0x0A, 0x81, 0x40, 0x00, 0x14, 0x01, 0x36, 0x48, 0xFF] := by decide

/-! ## The converter -/

/-- L2-C7, L2-C9, L2-C14, L2-C17 (low and high byte). -/
theorem test_band_bytes :
    bandByte false 0x0F 0xF0 = 0xAA ∧ bandByte true 0x0F 0xF0 = 0x55
      ∧ bandByte false 0x08 0x00 = 0x02 ∧ bandByte true 0x08 0x00 = 0x00
      ∧ bandByte false 0xA5 0x3C = 0x8D ∧ bandByte true 0xA5 0x3C = 0x72
      ∧ bandByte false 0x12 0x34 = 0x24 ∧ bandByte true 0x12 0x34 = 0xD0 := by decide
/-- L2-G3, L2-G5, L2-G7, L2-G13, L2-G14. -/
theorem test_geomOk :
    ex.geomOk = true ∧ (Cfg.geomOk { ex with w := 3 }) = false ∧ exBad.geomOk = false
      ∧ (Cfg.geomOk { ex with w := 2730, h := 192 }) = true
      ∧ (Cfg.geomOk { ex with w := 2732, h := 192 }) = false := by decide

/-! ## Host commands -/

theorem test_nop : gives (exec (.nop 7) ready) (· == ready) = true := by decide
/-- L2-H8 at acceptance: WIN = 0x03000100, STATUS 0x11. -/
theorem test_init : gives (exec (.init 0) idle) (fun t =>
    t.status.word == 0x11 && t.win.word == 0x03000100 && t.phase == .reset && t.tp == 0) = true := by
  decide
/-- L2-H13. -/
theorem test_init_geometry : gives (exec (.init 0) { idle with cfg := exBad }) (fun t =>
    t.status.word == 0x100 && t.errinfo.word == 0x10000000 && t.phase.word == 6
      && t.trace == []) = true := by decide
/-- L2-H3. -/
theorem test_refresh_not_ready : gives (exec (.refresh 0) idle) (fun t =>
    t.status.word == 0x800 && t.errinfo.word == 0x40020000 && t.trace == []) = true := by decide
/-- L2-H17: STATUS is 0x23 while REFRESH runs. -/
theorem test_refresh : gives (exec (.refresh 0) ready) (fun t =>
    t.status.word == 0x23 && t.framer == ⟨0x2A, [0, 1], 0, .refresh 0⟩) = true := by decide
/-- L2-H7 and L2-C20. -/
theorem test_convert : gives (exec (.convert 0) idleC20) (fun t =>
    t.packedBytes == [0x80, 0x00, 0x00, 0x81, 0x8D, 0x72, 0xFF, 0xAA, 0x00, 0x55, 0x99, 0x99]
      && t.status.word == 0x4 && t.trace == []) = true := by decide
/-- L2-H14. -/
theorem test_convert_geometry : gives (exec (.convert 0) { idle with cfg := exBad }) (fun t =>
    t.status.word == 0x100 && t.errinfo.word == 0x10000000 && t.phase == .uninit) = true := by decide
/-- L2-H5. -/
theorem test_reservedCtrl : gives (exec (.reservedCtrl 0x1F 3) idle) (fun t =>
    t.status.word == 0x800 && t.errinfo.word == 0x40FF0000) = true := by decide
/-- L2-H16: a command while INIT runs. -/
theorem test_reservedCtrl_busy : gives (exec (.reservedCtrl 0 1) (running .fetch 4)) (fun t =>
    t.status.word == 0x811 && t.ctl == .fetch && t.tp == 4) = true := by decide

/-! ## Table entries -/

/-- The phases of L3-1: the first CMD moves RESET to CONFIGURING. -/
theorem test_cmd : gives (exec (.cmd 0xC0 [0x12, 0x34]) (running .fetch 8)) (fun t =>
    t.phase == .configuring && t.framer == ⟨0xC0, [0x12, 0x34], 0, .entry⟩
      && t.ctl == .present) = true := by decide
theorem test_cmd_after_sleepout :
    gives (exec (.cmd 0x36 [0x48]) { running .fetch 22 with phase := .sleepout })
      (fun t => t.phase == .displayon) = true := by decide
theorem test_delay : gives (exec (.delay 10) (running .fetch 1)) (fun t =>
    t.trace == [.wait 10] && t.ctl == .delay && t.tp == 1) = true := by decide
/-- R163, R257: TICKS_PER_MS * ms ticks or more, here 2 * 10. -/
theorem test_delay_ticks : gives (exec (.delay 10) (running .fetch 1)) (fun t => 20 ≤ t.delayCtr) = true :=
  decide_eq_true (Nat.le_add_right 20 _)
theorem test_delay_zero_ends : gives (step (running .delay 1)) (fun t =>
    t.tp == 4 && t.ctl == .fetch) = true := by decide
theorem test_rstLow : gives (exec .rstLow (running .fetch 0)) (fun t =>
    t.trace == [.rst false] && t.lines.rst == false && t.tp == 1) = true := by decide
theorem test_rstHigh : gives (exec .rstHigh (running .fetch 4)) (fun t =>
    t.trace == [.rst true] && t.lines.rst && t.tp == 5) = true := by decide
/-- The end of L3-1: STATUS 6, PHASE 5, TP 43. -/
theorem test_end : gives (exec .endEntry (running .fetch 43)) (fun t =>
    t.status.word == 6 && t.phase.word == 5 && t.tp == 43 && t.ctl == .idle) = true := by decide
/-- L2-E6: header 0x50 at TP 11. -/
theorem test_reserved_entry_low : gives (exec (.reservedEntryLow 0x50) (running .fetch 11)) (fun t =>
    t.errinfo.word == 0x3050000B && t.status.word == 0x400 && t.phase == .fault) = true := by decide
theorem test_reserved_entry_high :
    gives (exec (.reservedEntryHigh 0xC0) (running .fetch 0)) (fun t =>
      t.errinfo.word == 0x30C00000 && t.status.word == 0x400 && t.trace == []) = true := by decide
/-- L2-E8: a truncated DELAY at TP 1. -/
theorem test_truncated_entry :
    gives (step { running .fetch 1 with rom := [0x80, 0x40, 0x00] }) (fun t =>
      t.errinfo.word == 0x30400001 && t.phase == .fault) = true := by decide

/-! ## Wire transactions -/

/-- L2-T1 from a CMD entry: five events, TP past the two bytes, PHASE SLEEPOUT. -/
theorem test_sleepOut : gives (exec (.sleepOut []) (presented 0x11 [] [.ok])) (fun t =>
    t.trace == [.cs false, .dc false, .tx 0x11, .cs true, .dc true] && t.phase == .sleepout
      && t.tp == 2 && t.ctl == .fetch) = true := by decide
/-- L2-T8: the opcode phase fails; BUS_ERR with OPC 0x11 and DC left at 0. -/
theorem test_sleepOut_fail : gives (exec (.sleepOut []) (presented 0x11 [] [.fail])) (fun t =>
    t.trace == [.cs false, .dc false, .tx 0x11, .fail, .cs true] && t.lines.dc == false
      && t.lines.cs && t.errinfo.word == 0x20110000 && t.status.word == 0x200
      && t.phase == .fault) = true := by decide
/-- L2-T2. -/
theorem test_displayOn : gives (exec (.displayOn []) (presented 0x29 [] [.ok])) (fun t =>
    t.trace == [.cs false, .dc false, .tx 0x29, .cs true, .dc true] && t.phase == .reset) = true := by
  decide
/-- L2-T4. -/
theorem test_colAddrSet : gives (exec (.colAddrSet [0, 1]) (presented 0x2A [0, 1] [.ok, .ok]))
    (fun t => t.trace == [.cs false, .dc false, .tx 0x2A, .cs true, .dc true, .cs false, .tx 0,
      .tx 1, .cs true] && t.tp == 4) = true := by decide
/-- L2-T7: the payload phase fails. -/
theorem test_colAddrSet_fail : gives (exec (.colAddrSet [0, 1]) (presented 0x2A [0, 1] [.ok, .fail]))
    (fun t => t.trace == [.cs false, .dc false, .tx 0x2A, .cs true, .dc true, .cs false, .tx 0,
      .tx 1, .fail, .cs true] && t.lines.dc && t.errinfo.word == 0x202A0000) = true := by decide
/-- L2-E4: REFRESH's row address fails; READY and PHASE stay. -/
theorem test_rowAddrSet_fail : gives (exec (.rowAddrSet [0, 3]) (refreshing 1 0x2B [0, 3] [.fail]))
    (fun t => t.errinfo.word == 0x202B0001 && t.status.word == 0x202 && t.phase == .active) = true := by
  decide
theorem test_rowAddrSet : gives (exec (.rowAddrSet [0, 3]) (presented 0x2B [0, 3] [.ok, .ok]))
    (fun t => t.trace.length == 9 && t.draws == []) = true := by decide
/-- The last transaction of REFRESH ends the op: STATUS 6. -/
theorem test_memWrite : gives (exec (.memWrite [0xA5, 0x3C]) (refreshing 2 0x2C [0xA5, 0x3C] [.ok, .ok]))
    (fun t => t.status.word == 6 && t.ctl == .idle && t.trace == [.cs false, .dc false, .tx 0x2C,
      .cs true, .dc true, .cs false, .tx 0xA5, .tx 0x3C, .cs true]) = true := by decide
/-- L2-T3. -/
theorem test_memAccessCtrl : gives (exec (.memAccessCtrl [0x48]) (presented 0x36 [0x48] [.ok, .ok]))
    (fun t => t.trace == [.cs false, .dc false, .tx 0x36, .cs true, .dc true, .cs false, .tx 0x48,
      .cs true]) = true := by decide
theorem test_pixelFormat : gives (exec (.pixelFormat [0x11]) (presented 0x3A [0x11] [.ok, .ok]))
    (fun t => t.trace == [.cs false, .dc false, .tx 0x3A, .cs true, .dc true, .cs false, .tx 0x11,
      .cs true] && t.tp == 3) = true := by decide
/-- L2-T5. -/
theorem test_opaqueOp : gives (exec (.opaqueOp 0xC0 [0x12, 0x34]) (presented 0xC0 [0x12, 0x34] [.ok, .ok]))
    (fun t => t.trace == [.cs false, .dc false, .tx 0xC0, .cs true, .dc true, .cs false, .tx 0x12,
      .tx 0x34, .cs true]) = true := by decide
/-- With no answer the transaction stands at its draw and nothing is an error. -/
theorem test_opaqueOp_waits : gives (exec (.opaqueOp 0xC0 []) (presented 0xC0 [] [])) (fun t =>
    t.ctl == .txn .opDraw && t.status.busErr == false
      && t.trace == [.cs false, .dc false, .tx 0xC0]) = true := by decide
/-- L2-W2: the DC(0) of the transaction after a failed opcode phase changes nothing. -/
theorem test_wire_drops :
    wire [.cs false, .dc false, .tx 0x2A, .fail, .cs true, .cs false, .dc false, .tx 0x2A]
      = [.cs false, .dc false, .tx 0x2A, .fail, .cs true, .cs false, .tx 0x2A] := by decide
theorem test_spi_bits : mosi [.cs false, .tx 0x2A, .wait 3] =
    [false, false, true, false, true, false, true, false] := by decide

/-! ## The host port and block reset -/

theorem test_read_geom : gives (step (asking (.rd 0x14) idle)) (fun t =>
    t.answers == [.word 0x00180004] && t.hostQ == []) = true := by decide
/-- L2-H10. -/
theorem test_w1c : gives (step (asking (.wr 4 0x800)
    { idle with
      status := { Status.reset with cmdErr := true, done := true }
      errinfo := ⟨some .cmd, 5, 0⟩ })) (fun t =>
    t.status.word == 4 && t.errinfo.word == 0x40050000) = true := by decide
theorem test_bitmap_write_read :
    gives (step (asking (.wrb 0x1000B 0x5A) idle)) (fun t => t.bitmapByte 11 == 0x5A) = true
      ∧ gives (step (asking (.wrb 0x1000C 0x5A) idle)) (fun t => t.bitmap == []) = true
      ∧ gives (step (asking (.rdb 0x1000C) idle)) (fun t => t.answers == [.byte 0]) = true := by decide
theorem test_packed_write_ignored :
    gives (step (asking (.wrb 0x20000 0x5A) idle)) (fun t => t.packed == []) = true := by decide
theorem test_width_refused :
    refuses (step (asking (.rdb 4) idle)) = true ∧ refuses (step (asking (.rd 6) idle)) = true
      ∧ refuses (step (asking (.wr 0x10000 1) idle)) = true := by decide
theorem test_no_such_address : step (asking (.rd 0x40000) idle) = .fault .noSuchHostAddress := by rfl
theorem test_poll_retries : gives (step (asking (.poll 4 0 true) idle)) (fun t =>
    t.hostQ == [⟨1, .poll 4 0 true⟩]) = true := by decide
theorem test_buffer_access_held :
    gives (step (asking (.wrb 0x10000 0x5A) (running .delay 1))) (fun t =>
      t.bitmap == [] && t.hostQ == [⟨0, .wrb 0x10000 0x5A⟩] && t.ctl == .fetch) = true := by decide
theorem test_block_reset :
    gives (step { running (.txn .payload) 30 with resets := [0], trace := [.cs false] }) (fun t =>
      t.status.word == 0 && t.phase == .uninit && t.tp == 0 && t.trace == [] && t.lines.cs
        && t.rom == tableRom ex && t.epoch == 1) = true := by decide

/-- R271: with no op running, a block reset falls between two accesses. -/
theorem test_reset_between_accesses :
    gives (step { idle with
      hostQ := [⟨0, .wrb 0x10000 0x5A⟩, ⟨0, .rdb 0x10000⟩], resets := [1] }) (fun t =>
        t.bitmap == [(0, 0x5A)] && t.hostQ == [⟨0, .rdb 0x10000⟩] && turn t == .reset) = true := by
  decide

/-! ## The bare words of the opcode table, run first after reset -/

theorem test_fetch_word_entry :
    gives (step (State.reset.withFetchWord 8 0x80)) (fun t =>
      t.trace == [.rst false] && t.tp == 1) = true := by decide
theorem test_fetch_word_ctrl :
    gives (step (State.reset.withFetchWord 8 0x02)) (fun t =>
      t.errinfo.word == 0x40020000) = true := by decide
theorem test_fetch_word_wire :
    gives (step (State.reset.withFetchWord 8 0x11)) (fun t =>
      t.trace == [.cs false, .dc false, .tx 0x11] && t.ctl == .txn .opDraw) = true := by decide

/-! ## Witnesses: for every statement with hypotheses, a state and operands that meet them all -/

theorem test_witness_DecodeInvertsEncode :
    wellFormed (.cmd 0x36 [0x48]) = true ∧ wellFormed (.reservedCtrl 3 2) = true
      ∧ wellFormed (.opaqueOp 0xC0 [0x12]) = true := by decide
theorem test_witness_DecodedEntryIsItsBytes :
    decodeEntry [0x01, 0x36, 0x48, 0xFF] = .ok (.cmd 0x36 [0x48], 3) := by decide
theorem test_witness_UndecodableExactlyWhenCutOff :
    ([] : List Byte) = [] ∧ [(0x02 : Byte), 0x2A].head? = some 0x02 ∧ (0x02 : Byte).toNat < 64
      ∧ [(0x02 : Byte), 0x2A].length < 2 + (0x02 : Byte).toNat
      ∧ [(0x40 : Byte), 0].head? = some 0x40 ∧ [(0x40 : Byte), 0].length < 3 := by decide
theorem test_witness_AdmittedTableDecodesEntryByEntry :
    ex.admitted = true ∧ initTable ex = (initTable ex).take 16 ++ .endEntry :: [] := by decide
theorem test_witness_OnlyAdmittedConfigurationsAreBuilt :
    (∀ k ∈ cfgChecks, ex.passes k = true ∧ exFr.passes k = true)
      ∧ (∀ k : CfgCheck, k ∈ cfgChecks) ∧ exFr.frSel = some 1
      ∧ Cfg.passes { ex with winCe0 := 256 } .bytes = false
      ∧ Cfg.passes { exFr with frIndex := none } .fr = false := by
  refine ⟨by decide, fun k => by cases k <;> decide, by decide, by decide, by decide⟩
theorem test_witness_FrameRateSubstitution :
    ex.frSel = none ∧ exFr.frSel = some 1 ∧ exFr.frOptions[1]? = some (0x38, [5])
      ∧ exFr.configEntries = [] ++ .cmd 0xB2 [0] :: [] ∧ exFr.frIndex = some ([] : List CfgEntry).length := by decide
theorem test_witness_InterleavePlacesEveryBit : 0 < 4 ∧ 3 < 4 := by decide
theorem test_witness_ConvertFillsThePackedBuffer :
    Quiet idleC20 ∧ idleC20.status.busy = false ∧ idleC20.cfg.geomOk = true ∧ 11 < idleC20.cfg.n
      ∧ idleC20.cfg.n ≤ 12 := by decide
theorem test_witness_ConversionIsPixelExact :
    Quiet idleC20 ∧ idleC20.status.busy = false ∧ idleC20.cfg.geomOk = true ∧ 11 < idleC20.cfg.n
      ∧ 3 < 4 := by decide
theorem test_witness_PixelMapIsABijection :
    ex.geomOk = true ∧ 11 < ex.n ∧ 3 < ex.w ∧ 23 < ex.h ∧ pixelOf ex 11 0 = (3, 23) := by decide
theorem test_witness_ConvertGeometryErrorChangesNothingElse :
    (State.status { idle with cfg := exBad }).busy = false
      ∧ (State.status { idle with cfg := exBad }).op = .none ∧ exBad.geomOk = false := by decide
theorem test_witness_AcceptanceProcedure :
    (0x8 : Word).extractLsb' 0 3 = 0 ∧ (0x5 : Word).extractLsb' 0 3 = 5
      ∧ (running .fetch 0).status.busy = true ∧ idle.status.ready = false := by decide
theorem test_witness_InitIsAccepted :
    ready.status.busy = false ∧ ready.cfg.geomOk = true := by decide
theorem test_witness_InitGeometryErrorEmitsNothing :
    (State.status { ready with cfg := exBad }).busy = false
      ∧ (State.status { ready with cfg := exBad }).op = .none ∧ exBad.geomOk = false := by decide
theorem test_witness_RefreshConvertsFirst :
    Quiet ready ∧ ready.status.busy = false ∧ ready.status.ready = true
      ∧ ready.cfg.geomOk = true ∧ 11 < ready.cfg.n := by decide
theorem test_witness_RefreshSendsTheWholeFrame :
    Quiet { ready with draws := List.replicate 7 .ok } ∧ ready.status.busy = false
      ∧ ready.status.ready = true ∧ ready.cfg.geomOk = true
      ∧ State.draws { ready with draws := List.replicate 7 .ok }
          = [.ok, .ok, .ok, .ok, .ok, .ok] ++ [.ok] := by decide
theorem test_witness_WireRowSendsItsTransaction :
    wireSends (.sleepOut []) = some (0x11, []) ∧ Quiet (presented 0x11 [] [.ok])
      ∧ (presented 0x11 [] [.ok]).framer.caller = .entry
      ∧ (presented 0x11 [] [.ok]).draws = List.replicate (txnPhases []) .ok ++ []
      ∧ (presented 0x11 [] [.ok]).tp.toNat + (2 + 0) < 65536
      ∧ wireSends (.opaqueOp 0xC0 [1]) = some (0xC0, [1])
      ∧ (presented 0xC0 [1] [.ok, .ok]).draws = List.replicate (txnPhases [1]) .ok ++ [] := by decide
theorem test_witness_WireRowServesRefresh :
    wireSends (.colAddrSet [0, 1]) = some (0x2A, [0, 1])
      ∧ (∀ k : Fin 3, Quiet (refreshing k 0x2A [0, 1] [.ok, .ok]))
      ∧ (∀ k : Fin 3, (refreshing k 0x2A [0, 1] [.ok, .ok]).framer.caller = .refresh k)
      ∧ (refreshing 0 0x2A [0, 1] [.ok, .ok]).draws
          = List.replicate (txnPhases [0, 1]) .ok ++ [] := by decide
theorem test_witness_WriteFailureRaisesBusErr :
    wireSends (.rowAddrSet [0, 3]) = some (0x2B, [0, 3])
      ∧ Quiet (presented 0x2B [0, 3] [.ok, .fail])
      ∧ (txnSpec 0x2B [0, 3] [.ok, .fail]).2.2 ≤ (presented 0x2B [0, 3] [.ok, .fail]).draws.length
      ∧ (txnSpec 0x2B [0, 3] (presented 0x2B [0, 3] [.ok, .fail]).draws).2.1 = false
      ∧ ((presented 0x2B [0, 3] [.ok, .fail]).framer.caller = .entry
          ↔ (presented 0x2B [0, 3] [.ok, .fail]).status.op = .init)
      ∧ (txnSpec 0x2B [0, 3] [.fail]).2.2 ≤ (refreshing 1 0x2B [0, 3] [.fail]).draws.length
      ∧ (txnSpec 0x2B [0, 3] (refreshing 1 0x2B [0, 3] [.fail]).draws).2.1 = false
      ∧ ((refreshing 1 0x2B [0, 3] [.fail]).framer.caller = .entry
          ↔ (refreshing 1 0x2B [0, 3] [.fail]).status.op = .init) := by decide
theorem test_witness_CommandOnlyTransaction :
    wireSends (.displayOn []) = some (0x29, []) ∧ Quiet (presented 0x29 [] [.ok])
      ∧ (presented 0x29 [] [.ok]).draws = .ok :: [] := by decide
theorem test_witness_LineLevelsAfterATransaction :
    wireSends (.displayOn []) = some (0x29, []) ∧ Quiet (presented 0x29 [] [.fail])
      ∧ (txnSpec 0x29 [] [.fail]).2.2 ≤ (presented 0x29 [] [.fail]).draws.length
      ∧ (presented 0x29 [] [.fail]).draws.head? = some .fail
      ∧ (txnSpec 0x2A [0, 1] [.fail]).2.2 ≤ (presented 0x2A [0, 1] [.fail]).draws.length
      ∧ (txnSpec 0x2A [0, 1] [.ok, .fail]).2.2
          ≤ (presented 0x2A [0, 1] [.ok, .fail]).draws.length := by decide
theorem test_witness_WireViewKeepsAWholeTransaction :
    resetLines.cs = true ∧ resetLines.dc = true
      ∧ Lines.cs { resetLines with dc := false } = true
      ∧ Lines.dc { resetLines with dc := false } = false := by decide
theorem test_witness_ResetLineEntries :
    Quiet (running .fetch 65534) ∧ (running .fetch 65534).tp.toNat + 1 < 65536 := by decide
theorem test_witness_DelayEmitsItsWait : Quiet (running .fetch 1) := by decide
theorem test_witness_DelayHoldsItsTicks :
    (Quiet (running .fetch 1) ∧ (running .fetch 1).tp.toNat + 3 < 65536)
      ∧ Quiet { running .delay 1 with delayCtr := 20 }
      ∧ State.ctl { running .delay 1 with delayCtr := 20 } = .delay
      ∧ (running .delay 1).tp.toNat + 3 < 65536
      ∧ 20 ≤ State.delayCtr { running .delay 1 with delayCtr := 20 } := by decide
theorem test_witness_CmdHandsOverItsTransaction : Quiet (running .fetch 8) := by decide
theorem test_witness_CmdEntryRuns :
    Quiet { running .fetch 22 with draws := [.ok, .ok] } ∧ (running .fetch 22).ctl = .fetch
      ∧ fetchEntry { running .fetch 22 with draws := [.ok, .ok] } = .ok (.cmd 0x36 [0x48], 3)
      ∧ [Draw.ok, .ok] = List.replicate (txnPhases [0x48]) .ok ++ []
      ∧ (running .fetch 22).tp.toNat + (2 + 1) < 65536 := by decide
theorem test_witness_EndFinishesInitialisation : Quiet (running .fetch 43) := by decide
theorem test_witness_ReservedHeaderRaisesTblErr :
    Quiet (running .fetch 11) ∧ (running .fetch 11).status.op = .init := by decide
theorem test_witness_UndecodableEntryRaisesTblErr :
    Quiet (running .fetch 44) ∧ (running .fetch 44).ctl = .fetch
      ∧ (running .fetch 44).status.op = .init ∧ fetchEntry (running .fetch 44) = .error .ranOff
      ∧ fetchEntry { running .fetch 1 with rom := [0x80, 0x40, 0x00] }
          = .error (.truncated 0x40) := by decide
theorem test_witness_InitRunsTheWholeTable :
    ex.admitted = true ∧ ex.geomOk = true ∧ idle.rom = tableRom ex
      ∧ Quiet { idle with draws := List.replicate 14 .ok } ∧ idle.status.busy = false
      ∧ List.replicate 14 Draw.ok
          = List.replicate ((initTable ex).map entryPhases).sum .ok ++ [] := by decide
theorem test_witness_FullTableWithoutEndRunsOff :
    (fetchEntry (atTableEnd [0x80]) = .ok (.rstLow, 1) ∧ (atTableEnd [0x80]).tp.toNat + 1 = 65536
        ∧ Quiet (atTableEnd [0x80]) ∧ (atTableEnd [0x80]).ctl = .fetch
        ∧ (atTableEnd [0x80]).status.op = .init
        ∧ (atTableEnd [0x80]).draws = List.replicate (entryPhases .rstLow) .ok ++ [])
      ∧ (fetchEntry (atTableEnd [0x40, 0, 5]) = .ok (.delay 5, 3)
        ∧ (atTableEnd [0x40, 0, 5]).tp.toNat + 3 = 65536)
      ∧ (fetchEntry { atTableEnd [0x01, 0x36, 0x48] with draws := [.ok, .ok] }
            = .ok (.cmd 0x36 [0x48], 3)
        ∧ (atTableEnd [0x01, 0x36, 0x48]).tp.toNat + 3 = 65536
        ∧ [Draw.ok, .ok] = List.replicate (entryPhases (.cmd 0x36 [0x48])) .ok ++ []) :=
  ⟨⟨(fetchEntry_atTableEnd [0x80] (by decide)).trans rfl, rfl, ⟨rfl, rfl⟩, rfl, rfl, rfl⟩,
    ⟨(fetchEntry_atTableEnd [0x40, 0, 5] (by decide)).trans rfl, rfl⟩,
    ⟨(fetchEntry_atTableEnd [0x01, 0x36, 0x48] (by decide)).trans rfl, rfl, rfl⟩⟩

theorem test_witness_RegisterAccesses :
    HostTurn (asking (.rd 0x00) idle) (.rd 0x00) []
      ∧ HostTurn (asking (.rd 0x04) (running .delay 1)) (.rd 0x04) []
      ∧ HostTurn (asking (.rd 0x1C) ready) (.rd 0x1C) []
      ∧ HostTurn (asking (.wr 0x08 5) ready) (.wr 0x08 5) []
      ∧ HostTurn (asking (.wr 0x1C 5) ready) (.wr 0x1C 5) []
      ∧ 0x1C < 0x20 ∧ 0x1C % 4 = 0 ∧ 0x08 ≠ 4 :=
  ⟨⟨rfl, rfl, 0, rfl⟩, ⟨rfl, rfl, 0, rfl⟩, ⟨rfl, rfl, 0, rfl⟩, ⟨rfl, rfl, 0, rfl⟩, ⟨rfl, rfl, 0, rfl⟩, by decide⟩
theorem test_witness_RegisterFields : ex.w < 65536 ∧ ex.h < 65536 := by decide
theorem test_witness_StatusWriteClearsItsBits :
    HostTurn (asking (.wr 4 0xFFFFFFFF) (running .delay 1)) (.wr 4 0xFFFFFFFF) [] :=
  ⟨rfl, rfl, 0, rfl⟩
theorem test_witness_BitmapWindowAccesses :
    HostTurn (asking (.wrb (0x10000 + 0) 1) idle) (.wrb (0x10000 + 0) 1) []
      ∧ HostTurn (asking (.wrb (0x10000 + 65535) 1) idle) (.wrb (0x10000 + 65535) 1) []
      ∧ HostTurn (asking (.rdb (0x10000 + 11)) idle) (.rdb (0x10000 + 11)) []
      ∧ 65535 < 65536 :=
  ⟨⟨rfl, rfl, 0, rfl⟩, ⟨rfl, rfl, 0, rfl⟩, ⟨rfl, rfl, 0, rfl⟩, by decide⟩
theorem test_witness_PackedWindowAccesses :
    HostTurn (asking (.rdb (0x20000 + 0)) idle) (.rdb (0x20000 + 0)) []
      ∧ HostTurn (asking (.rdb (0x20000 + 65535)) idle) (.rdb (0x20000 + 65535)) []
      ∧ HostTurn (asking (.wrb (0x20000 + 11) 1) idle) (.wrb (0x20000 + 11) 1) []
      ∧ 65535 < 65536 :=
  ⟨⟨rfl, rfl, 0, rfl⟩, ⟨rfl, rfl, 0, rfl⟩, ⟨rfl, rfl, 0, rfl⟩, by decide⟩
theorem test_witness_ReservedAddressesReadZero :
    HostTurn (asking (.rd 0x20) idle) (.rd 0x20) []
      ∧ HostTurn (asking (.rdb 0xFFFF) idle) (.rdb 0xFFFF) []
      ∧ HostTurn (asking (.wr 0x30000 1) idle) (.wr 0x30000 1) []
      ∧ HostTurn (asking (.wrb 0x3FFFF 1) idle) (.wrb 0x3FFFF 1) [] :=
  ⟨⟨rfl, rfl, 0, rfl⟩, ⟨rfl, rfl, 0, rfl⟩, ⟨rfl, rfl, 0, rfl⟩, ⟨rfl, rfl, 0, rfl⟩⟩
theorem test_witness_OtherWidthsTakeNoStep :
    HostTurn (asking (.rdb 0x1F) idle) (.rdb 0x1F) []
      ∧ HostTurn (asking (.rd 0x2FFFC) idle) (.rd 0x2FFFC) []
      ∧ HostTurn (asking (.wrb 0x2FFFF 1) idle) (.wrb 0x2FFFF 1) []
      ∧ admittedAccess true 0x1F = false ∧ admittedAccess false 0x2FFFC = false
      ∧ admittedAccess true 0x2FFFF = true :=
  ⟨⟨rfl, rfl, 0, rfl⟩, ⟨rfl, rfl, 0, rfl⟩, ⟨rfl, rfl, 0, rfl⟩, by decide⟩
theorem test_witness_OnlyHostAccessesStopTheMachine :
    HostTurn (asking (.rd 0x40000) idle) (.rd 0x40000) []
      ∧ 0x40000 ≤ HostAccess.addr (.rd 0x40000) :=
  ⟨⟨rfl, rfl, 0, rfl⟩, by decide⟩
theorem test_witness_ReservedCommandIsRefused :
    4 ≤ ((0x4 : Word).extractLsb' 0 3).toNat ∧ 4 ≤ ((0xFF : Word).extractLsb' 0 3).toNat := by decide
theorem test_witness_NopChangesNothing : (0xFFFFFFF8 : Word).extractLsb' 0 3 = 0 := by decide
theorem test_witness_PollRepeatsUntilItsBit :
    HostTurn (asking (.poll 0x04 0 false) idle) (.poll 0x04 0 false) []
      ∧ HostTurn (asking (.poll 0x1C 0 true) idle) (.poll 0x1C 0 true) []
      ∧ 0x04 < 0x20 ∧ 0x1C < 0x20 ∧ 0x1C % 4 = 0 :=
  ⟨⟨rfl, rfl, 0, rfl⟩, ⟨rfl, rfl, 0, rfl⟩, by decide⟩
theorem test_witness_BufferAccessIsHeld :
    State.hostQ (asking (.rdb 0x10000) { running .delay 1 with resets := [7] })
        = ⟨0, .rdb 0x10000⟩ :: []
      ∧ isBufferAccess (.rdb 0x10000) = true ∧ (running .delay 1).status.busy = true
      ∧ turn (asking (.rdb 0x10000) { running .delay 1 with resets := [7] }) ≠ .reset
      ∧ gives (step (asking (.rdb 0x10000) { running .delay 1 with resets := [7] }))
          (fun _ => true) = true := by decide
theorem test_witness_BlockResetAtAnyTime :
    turn { running (.txn .payload) 30 with resets := [0, 5] } = .reset
      ∧ turn { idle with resets := [3] } = .reset
      ∧ (hostDue { idle with resets := [3] } = false ∧ State.ctl { idle with resets := [3] } = .idle)
      ∧ (hostDue { running (.txn .opDraw) 8 with resets := [3] } = false
        ∧ waiting { running (.txn .opDraw) 8 with resets := [3] } = true)
      ∧ HostTurn (asking (.rd 4) { idle with resets := [1] }) (.rd 4) []
      ∧ State.resets (asking (.rd 4) { idle with resets := [1] }) = (0 + 1) :: []
      ∧ ctrlWrite (.rd 4) = none :=
  ⟨by decide, by decide, by decide, by decide, ⟨rfl, rfl, 0, rfl⟩, rfl, rfl⟩
theorem test_witness_StepRunsTheDecodedInstruction :
    (resetDue (running .fetch 0) = false ∧ hostDue (running .fetch 0) = false
        ∧ (running .fetch 0).ctl = .fetch ∧ fetchEntry (running .fetch 0) = .ok (.rstLow, 1))
      ∧ (resetDue (presented 0x11 [] [.ok]) = false ∧ hostDue (presented 0x11 [] [.ok]) = false
        ∧ (presented 0x11 [] [.ok]).ctl = .present)
      ∧ HostTurn (asking (.wr 0 1) idle) (.wr 0 1) [] :=
  ⟨by decide, by decide, rfl, rfl, 0, rfl⟩
theorem read_memOf (bs : List Byte) (i : Nat) (h : bs.length ≤ i) : (memOf bs).read i = none := by
  suffices ∀ n, bs.length + n ≤ i →
      Memory.read ((bs.zipIdx n).map fun p => (p.2, p.1)) i = none from this 0 h
  clear h
  induction bs with
  | nil => exact fun _ _ => rfl
  | cons b bs ih =>
    intro n h
    simp only [List.length_cons] at h
    simp only [List.zipIdx_cons, List.map_cons, Memory.read, if_neg (show ¬n = i by omega)]
    exact ih (n + 1) (by omega)

/-! States that meet the invariant: INIT accepted, no op, CONVERT accepted, REFRESH about to send P. -/

theorem inv_begun : Inv begun := by
  refine ⟨?_, ?_, ?_⟩
  · constructor
    all_goals first
      | decide
      | exact fun _ _ => rfl
  · constructor
    all_goals first
      | decide
      | exact fun h => absurd h (by decide)
      | exact fun _ h => absurd h (by decide)
      | exact fun _ h => nomatch h
      | exact fun _ => rfl
      | trivial
  · exact ⟨⟨[], by decide⟩, fun _ => ⟨[], [], by decide, 0, by decide, by decide⟩,
      fun h => absurd h (by decide), fun _ h => absurd h (by decide)⟩
theorem inv_atEnd : Inv atEnd := by
  refine ⟨?_, ?_, ?_⟩
  · constructor
    all_goals first
      | decide
      | exact fun _ _ => rfl
  · constructor
    all_goals first
      | decide
      | exact fun h => absurd h (by decide)
      | exact fun _ h => absurd h (by decide)
      | exact fun _ h => nomatch h
      | exact fun _ => rfl
      | trivial
  · exact ⟨⟨itemsEx, by decide⟩, fun _ => ⟨[], entriesEx, by decide, 43, by decide, by decide⟩,
      fun h => absurd h (by decide), fun _ h => absurd h (by decide)⟩
theorem inv_failingCmd : Inv failingCmd := by
  refine ⟨?_, ?_, ?_⟩
  · constructor
    all_goals first
      | decide
      | exact fun _ _ => rfl
  · constructor
    all_goals first
      | decide
      | exact fun h => absurd h (by decide)
      | exact fun _ h => absurd h (by decide)
      | exact fun _ _ => rfl
      | exact fun _ h => nomatch h
      | exact rfl
  · exact ⟨⟨[.rst false, .wait 10, .rst true, .wait 20], by decide⟩,
      fun _ => ⟨[], entriesEx.take 4, by decide, 8, by decide, by decide⟩,
      fun h => absurd h (by decide), fun _ _ h => nomatch h⟩
theorem inv_idleC20 : Inv idleC20 := by
  refine ⟨?_, ?_, ?_⟩
  · constructor
    all_goals first
      | decide
      | exact read_memOf bytesC20
      | exact fun _ _ => rfl
  · constructor
    all_goals first
      | decide
      | exact fun h => absurd h (by decide)
      | exact fun _ h => absurd h (by decide)
      | exact fun _ h => nomatch h
      | trivial
  · exact ⟨⟨[], by decide⟩, fun h => absurd h (by decide), fun h => absurd h (by decide),
      fun _ h => absurd h (by decide)⟩
theorem inv_converting : Inv converting := by
  refine ⟨?_, ?_, ?_⟩
  · constructor
    all_goals first
      | decide
      | exact read_memOf bytesC20
      | exact fun _ _ => rfl
  · constructor
    all_goals first
      | decide
      | exact fun h => absurd h (by decide)
      | exact fun _ => ⟨by decide, fun h => absurd h (by decide), fun _ h => nomatch h⟩
      | exact fun _ h => absurd rfl h
      | exact fun _ h => absurd h (by decide)
      | exact fun _ h => nomatch h
      | trivial
  · exact ⟨⟨[], by decide⟩, fun h => absurd h (by decide), fun h => absurd h (by decide),
      fun _ h => absurd h (by decide)⟩
theorem inv_sendingFrame : Inv sendingFrame := by
  have hconv : ∀ k, k < 12 →
      sendingFrame.packedByte k = convByte sendingFrame.cfg sendingFrame.bitmapByte k := by decide
  refine ⟨?_, ?_, ?_⟩
  · constructor
    all_goals first
      | decide
      | exact read_memOf bytesC20
      | exact read_memOf packedC20
  · constructor
    all_goals first
      | decide
      | exact fun h => absurd h (by decide)
      | exact fun _ _ => hconv
      | exact fun _ h => nomatch h
      | exact rfl
  · exact ⟨⟨itemsEx ++ [.sent 0x2A [0, 1], .sent 0x2B [0, 3]], by decide⟩,
      fun h => absurd h (by decide),
      fun _ => ⟨[], entriesEx, _, rfl, ⟨43, by decide, by decide⟩, by decide⟩,
      fun k _ h => by cases h; exact ⟨entriesEx.flatMap entryEvents, by decide⟩⟩
theorem test_witness_StepKeepsInvariant :
    (Inv begun ∧ ∃ t, step begun = .next t) ∧ (Inv idleC20 ∧ ∃ t, step idleC20 = .next t)
      ∧ (Inv converting ∧ ∃ t, step (asking (.rd 4) converting) = .next t)
      ∧ (Inv sendingFrame ∧ ∃ t, step sendingFrame = .next t) :=
  ⟨⟨inv_begun, _, rfl⟩, ⟨inv_idleC20, _, rfl⟩, ⟨inv_converting, _, rfl⟩, inv_sendingFrame, _, rfl⟩
theorem test_witness_StepKeepsConfigurationAndTable : ∃ t, step (running .fetch 0) = .next t :=
  ⟨_, rfl⟩
theorem test_witness_TablePointerOnlyGrows :
    (running .fetch 0).status.busy = true
      ∧ gives (step (running .fetch 0)) (fun t => t.status.busy && !t.tpPast && t.tp == 1) = true := by
  decide
theorem test_witness_OnlyEndSetsReady :
    (running .fetch 43).status.ready = false
      ∧ gives (step (running .fetch 43)) (fun t => t.status.ready) = true := by decide
theorem test_witness_OnlyTheHostWritesTheBitmap :
    gives (step (asking (.wrb 0x10000 1) { idle with resets := [7] })) (fun t => t.bitmap != []) = true
      ∧ turn (asking (.wrb 0x10000 1) { idle with resets := [7] }) ≠ .reset := by decide
theorem test_witness_OnlyTheConverterWritesThePackedBuffer :
    (gives (step (asking (.wr 0 3) idleC20)) (fun t => t.packed != [] && t.status.done) = true
        ∧ turn (asking (.wr 0 3) idleC20) = .command 3 [])
      ∧ (Inv converting ∧ converting.status.op = .convert
        ∧ gives (step converting) (fun t => t.status.done) = true)
      ∧ (Inv sendingFrame ∧ sendingFrame.status.op = .refresh
        ∧ gives (step sendingFrame) (fun t => t.status.done) = true) :=
  ⟨by decide, ⟨inv_converting, by decide⟩, inv_sendingFrame, by decide⟩
theorem test_witness_TraceOnlyGrows :
    (turn { running .fetch 0 with resets := [7] } ≠ .reset
        ∧ gives (step { running .fetch 0 with resets := [7] }) (fun t => t.trace == [.rst false]) = true)
      ∧ (Inv converting ∧ converting.status.op = .convert ∧ turn converting ≠ .reset
        ∧ gives (step converting) (fun _ => true) = true)
      ∧ (Inv sendingFrame ∧ sendingFrame.status.op = .refresh ∧ turn sendingFrame ≠ .reset
        ∧ gives (step sendingFrame) (fun t => t.status.done) = true)
      ∧ (Inv idleC20 ∧ idleC20.status.busy = false
        ∧ gives (step (asking (.wr 0 1) idleC20)) (fun t => t.status.op == .init) = true)
      ∧ (Inv begun ∧ begun.initFrom []
        ∧ gives (step begun) (fun t => t.status.op == .init && t.trace == [.rst false]) = true)
      ∧ (Inv atEnd ∧ atEnd.initFrom [] ∧ gives (step atEnd) (fun t => t.status.ready) = true)
      ∧ (Inv failingCmd ∧ failingCmd.initFrom []
        ∧ gives (step failingCmd) (fun t => t.errinfo.code == some .bus) = true) :=
  ⟨by decide, ⟨inv_converting, by decide⟩, ⟨inv_sendingFrame, by decide⟩, ⟨inv_idleC20, by decide⟩,
    ⟨inv_begun, ⟨[], by decide, 0, by decide⟩, by decide⟩,
    ⟨inv_atEnd, ⟨entriesEx, by decide, 43, by decide⟩, by decide⟩,
    inv_failingCmd, ⟨entriesEx.take 4, by decide, 8, by decide⟩, by decide⟩
theorem test_witness_BlockWaitsForTheEnvironment :
    Quiet (running (.txn .opDraw) 8) ∧ (running (.txn .plDraw) 8).draws = []
      ∧ (running (.txn .opDraw) 8).ctl = .txn .opDraw
      ∧ (running (.txn .plDraw) 8).ctl = .txn .plDraw := by decide
theorem test_witness_IdleBlockHoldsItsState : Quiet ready ∧ ready.ctl = .idle := by decide

end Sys2Proof.Tests
end

section
/-! The checks of 00_scope.md rule R10, each as the rule words it, and what `build` makes of them. -/

namespace Sys2Proof

/-! ### The parts the checks are made of -/

@[simp] theorem allBytes_eq_true_iff (ns : List Nat) : allBytes ns = true ↔ ∀ b ∈ ns, b < 256 := by
  simp [allBytes]

theorem CfgEntry.bytesOk_iff (e : CfgEntry) :
    e.bytesOk = true ↔ ∀ op pl, e = .cmd op pl → op < 256 ∧ ∀ b ∈ pl, b < 256 := by
  cases e <;> simp [CfgEntry.bytesOk]

theorem CfgEntry.delayOk_iff (e : CfgEntry) :
    e.delayOk = true ↔ ∀ ms, e = .delay ms → ms < 65536 := by
  cases e <;> simp [CfgEntry.delayOk]

theorem CfgEntry.isCmdOrDelay_iff (e : CfgEntry) :
    e.isCmdOrDelay = true ↔ (∃ op pl, e = .cmd op pl) ∨ ∃ ms, e = .delay ms := by
  cases e <;> simp [CfgEntry.isCmdOrDelay]

theorem CfgEntry.isCmd_iff (e : CfgEntry) : e.isCmd = true ↔ ∃ op pl, e = .cmd op pl := by
  cases e <;> simp [CfgEntry.isCmd]

/-- CFG-PLLEN for one entry looks at the payload that the entry has in the table. -/
theorem CfgEntry.plLenOk_iff (e : CfgEntry) :
    e.plLenOk = true ↔ ∀ op pl, e.instr = .cmd op pl → pl.length ≤ 63 := by
  cases e <;> simp [CfgEntry.plLenOk, CfgEntry.instr, bytesOf]

/-- The CMD entries that INIT_TABLE(cfg) holds whatever CONFIG_ENTRIES is (R160). -/
def Cfg.fixedCmds (c : Cfg) : List Instr :=
  [.cmd 0x11 [], .cmd 0x36 (bytesOf c.madctlPl), .cmd 0x3A (bytesOf c.colmodPl),
    .cmd 0x2A [byteOf c.winCs0, byteOf c.winCe0], .cmd 0x2B [byteOf c.winRs0, byteOf c.winRe0],
    .cmd (byteOf c.pmOpcode') (bytesOf c.pmPl), .cmd 0x29 []]

theorem cmd_mem_initTable_iff (c : Cfg) (op : Byte) (pl : List Byte) :
    .cmd op pl ∈ initTable c ↔
      (∃ e ∈ c.configEntries', e.instr = .cmd op pl) ∨ .cmd op pl ∈ c.fixedCmds := by
  simp [initTable, resetPulse, sleepOutThen, windowEntries, displayOnThen, Cfg.fixedCmds]

/-- Of the fixed entries only three have a payload whose length is open. -/
theorem Cfg.fixedCmds_fit_iff (c : Cfg) :
    (∀ op pl, .cmd op pl ∈ c.fixedCmds → pl.length ≤ 63) ↔
      c.madctlPl.length ≤ 63 ∧ c.colmodPl.length ≤ 63 ∧ c.pmPl.length ≤ 63 := by
  simp [Cfg.fixedCmds, or_imp, forall_and, bytesOf]

/-! ### The seven checks -/

theorem Cfg.passes_bytes_iff (c : Cfg) :
    c.passes .bytes = true ↔
      (∀ op pl, CfgEntry.cmd op pl ∈ c.configEntries → op < 256 ∧ ∀ b ∈ pl, b < 256)
        ∧ (∀ b ∈ c.madctlPl ++ c.colmodPl ++ c.pmPl, b < 256)
        ∧ (c.winCs0 < 256 ∧ c.winCe0 < 256 ∧ c.winRs0 < 256 ∧ c.winRe0 < 256 ∧ c.pmOpcode < 256)
        ∧ ∀ p ∈ c.frOptions, p.1 < 256 ∧ ∀ b ∈ p.2, b < 256 := by
  have hentries : (∀ e ∈ c.configEntries, e.bytesOk = true) ↔
      ∀ op pl, CfgEntry.cmd op pl ∈ c.configEntries → op < 256 ∧ ∀ b ∈ pl, b < 256 := by
    simp only [CfgEntry.bytesOk_iff]
    exact ⟨fun h op pl hm => h _ hm op pl rfl, fun h e hm op pl he => h op pl (he ▸ hm)⟩
  simp only [Cfg.passes, Bool.and_eq_true, List.all_eq_true, hentries, allBytes_eq_true_iff,
    decide_eq_true_eq, List.forall_mem_append, List.forall_mem_cons, List.not_mem_nil,
    false_implies, implies_true, and_true]
  tauto

theorem Cfg.passes_delay_iff (c : Cfg) :
    c.passes .delay = true ↔
      (c.tRstLow < 65536 ∧ c.tRstSettle < 65536 ∧ c.tSleepout < 65536 ∧ c.tDispon < 65536)
        ∧ ∀ ms, CfgEntry.delay ms ∈ c.configEntries → ms < 65536 := by
  have hentries : (∀ e ∈ c.configEntries, e.delayOk = true) ↔
      ∀ ms, CfgEntry.delay ms ∈ c.configEntries → ms < 65536 := by
    simp only [CfgEntry.delayOk_iff]
    exact ⟨fun h ms hm => h _ hm ms rfl, fun h e hm ms he => h ms (he ▸ hm)⟩
  simp [Cfg.passes, hentries]

theorem Cfg.passes_plLen_iff (c : Cfg) :
    c.passes .plLen = true ↔ ∀ op pl, Instr.cmd op pl ∈ initTable c → pl.length ≤ 63 := by
  have hentries : (∀ e ∈ c.configEntries', e.plLenOk = true) ↔
      ∀ op pl, (∃ e ∈ c.configEntries', e.instr = .cmd op pl) → pl.length ≤ 63 := by
    simp only [CfgEntry.plLenOk_iff]
    exact ⟨fun h op pl ⟨e, hm, he⟩ => h e hm op pl he, fun h e hm op pl he => h op pl ⟨e, hm, he⟩⟩
  simp only [cmd_mem_initTable_iff, or_imp, forall_and, ← hentries, c.fixedCmds_fit_iff]
  simp [Cfg.passes, and_assoc]

theorem Cfg.passes_config_iff (c : Cfg) :
    c.passes .config = true ↔
      ∀ e ∈ c.configEntries, (∃ op pl, e = .cmd op pl) ∨ ∃ ms, e = .delay ms := by
  simp only [Cfg.passes, List.all_eq_true, CfgEntry.isCmdOrDelay_iff]

/-- With FR_SEL present FR_OPTIONS is not empty, because FR_SEL is an index into it. -/
theorem Cfg.passes_fr_iff (c : Cfg) :
    c.passes .fr = true ↔
      (c.frSel = none ↔ c.frOptions = [])
        ∧ ∀ k, c.frSel = some k → k < c.frOptions.length
          ∧ ∃ j op pl, c.frIndex = some j ∧ c.configEntries[j]? = some (.cmd op pl) := by
  simp only [Cfg.passes, Cfg.frOk]
  cases hsel : c.frSel with
  | none => simp
  | some k =>
    have hne : k < c.frOptions.length → c.frOptions ≠ [] := fun hk =>
      List.ne_nil_of_length_pos (Nat.zero_lt_of_lt hk)
    cases hidx : c.frIndex with
    | none => simp
    | some j =>
      cases hentry : c.configEntries[j]? with
      | none => simp [hentry]
      | some e => simpa [hentry, CfgEntry.isCmd_iff] using fun hk _ _ _ => hne hk

theorem Cfg.passes_tbl_iff (c : Cfg) :
    c.passes .tbl = true ↔ (encodeTable (initTable c)).length ≤ 65536 :=
  decide_eq_true_iff

theorem Cfg.passes_dim_iff (c : Cfg) : c.passes .dim = true ↔ c.w < 65536 ∧ c.h < 65536 := by
  simp only [Cfg.passes, Bool.and_eq_true, decide_eq_true_eq]

/-! ### The check that refuses -/

/-- R10's list leaves no check out. -/
theorem mem_cfgChecks (k : CfgCheck) : k ∈ cfgChecks := by
  cases k <;> decide

theorem Cfg.failure_eq_none_iff (c : Cfg) : c.failure = none ↔ ∀ k, c.passes k = true := by
  simp [Cfg.failure, mem_cfgChecks]

theorem Cfg.passes_of_failure_eq_some {c : Cfg} {k : CfgCheck} (h : c.failure = some k) :
    c.passes k = false := by
  simpa using List.find?_some h

end Sys2Proof

namespace Sys2Proof.Machine

theorem build_of_passes {c : Cfg} (h : ∀ k, c.passes k = true) :
    build c = .ok (State.resetWith c (tableRom c) 0) := by
  simp only [build, c.failure_eq_none_iff.2 h]

theorem build_of_not_passes {c : Cfg} {k : CfgCheck} (h : c.passes k = false) :
    ∃ k', build c = .error k' ∧ c.passes k' = false := by
  cases hf : c.failure with
  | none => simp [c.failure_eq_none_iff.1 hf k] at h
  | some k' => exact ⟨k', by simp only [build, hf], Cfg.passes_of_failure_eq_some hf⟩

/-- Settles O6: one lemma for each check, and one for each answer of `build`. -/
theorem onlyAdmittedConfigurationsAreBuilt : Obligations.OnlyAdmittedConfigurationsAreBuilt :=
  fun c => ⟨c.passes_bytes_iff, c.passes_delay_iff, c.passes_plLen_iff, c.passes_config_iff,
    c.passes_fr_iff, c.passes_tbl_iff, c.passes_dim_iff, build_of_passes,
    fun _ => build_of_not_passes⟩

end Sys2Proof.Machine
end

section
/-! What an entry and a host access come to, and what the run of micro-steps and a step leave unchanged: the
configuration and T (R21, R37), and B (R35). -/

namespace Sys2Proof.Machine

/-! ### What an entry, a command and a host access come to -/

theorem fetchEntry_eq_ok {s : State} {p : Instr × Nat} (hf : fetchEntry s = .ok p) :
    s.tpPast = false ∧ decodeEntry (s.rom.drop s.tp.toNat) = .ok p := by
  unfold fetchEntry at hf
  split_ifs at hf with hp
  exact ⟨by simpa using hp, hf⟩

/-- The length the decoder gives an entry is that of its row (R92). -/
theorem decodeEntry_len {bs : List Byte} {i : Instr} {len : Nat}
    (h : decodeEntry bs = .ok (i, len)) : len = entryLen i := by
  unfold decodeEntry at h
  split at h
  · simp at h
  · split_ifs at h <;> (try split at h) <;> (try split_ifs at h) <;> simp at h <;>
      obtain ⟨rfl, rfl⟩ := h <;> simp [entryLen]
    omega

theorem fetchEntry_len {s : State} {i : Instr} {len : Nat} (hf : fetchEntry s = .ok (i, len)) :
    len = entryLen i :=
  decodeEntry_len (fetchEntry_eq_ok hf).2

/-- The row of the entry that drives the panel reset to a level (R164, R165). -/
def resetEntry (v : Bool) : Instr := if v then .rstHigh else .rstLow

/-- Everything that running the entry at TP can be (R162 to R166, R243). -/
theorem exec_entry_cases {s t : State} {i : Instr} {len : Nat} (hf : fetchEntry s = .ok (i, len))
    (he : exec i s = .next t) :
    (∃ op pl, i = .cmd op pl ∧ t = tick (handOver op pl .entry { s with phase := nextPhase s.phase op }))
    ∨ (∃ ms, i = .delay ms ∧ t = startDelay ms s)
    ∨ (∃ v, i = resetEntry v ∧ t = driveReset v s)
    ∨ (i = .endEntry ∧ t = tick { finishOp s with
        phase := .active, status := { s.status.completed with ready := true } })
    ∨ ∃ h, t = tableError h s := by
  rcases fetchEntry_row hf with ⟨op, pl, rfl⟩ | ⟨ms, rfl⟩ | rfl | rfl | rfl | ⟨h, rfl⟩ | ⟨h, rfl⟩ <;>
    injection he with he <;> subst he
  · exact .inl ⟨op, pl, rfl, rfl⟩
  · exact .inr (.inl ⟨ms, rfl, rfl⟩)
  · exact .inr (.inr (.inl ⟨false, rfl, rfl⟩))
  · exact .inr (.inr (.inl ⟨true, rfl, rfl⟩))
  · exact .inr (.inr (.inr (.inl ⟨rfl, rfl⟩)))
  · exact .inr (.inr (.inr (.inr ⟨h, rfl⟩)))
  · exact .inr (.inr (.inr (.inr ⟨h, rfl⟩)))

theorem regionOf_eq_bitmap {a i : Nat} (h : regionOf a = some (.bitmap i)) :
    a = 0x10000 + i ∧ i < 65536 := by
  unfold regionOf at h
  split_ifs at h <;> simp at h
  omega

/-- Everything a host access that is no CTRL write can do: nothing but its record in the queue and the answers,
a write to STATUS, or a byte written inside the bitmap window (R64 to R67, R222). -/
theorem hostAccess_cases {s t : State} {x : HostAccess} (h : hostAccess x s = .next t) :
    (∃ q as, t = { s with hostQ := q, answers := as })
      ∨ (∃ v, t = { s with status := s.status.w1c v })
      ∨ ∃ i v, x = .wrb (0x10000 + i) v ∧ i < 65536 ∧ i < s.cfg.n
          ∧ t = { s with bitmap := s.bitmap.write i v } := by
  cases x with
  | rd a =>
    simp only [hostAccess] at h
    split at h <;> simp at h
    exact .inl ⟨_, _, h.symm⟩
  | rdb a =>
    simp only [hostAccess] at h
    split at h <;> simp at h
    exact .inl ⟨_, _, h.symm⟩
  | poll a bit b =>
    simp only [hostAccess] at h
    split at h <;> (try split at h) <;> simp at h <;> exact .inl ⟨_, _, h.symm⟩
  | wr a v =>
    simp only [hostAccess, writeWord, writeRegister] at h
    split at h <;> (try split_ifs at h) <;> simp at h
    · exact .inr (.inl ⟨v, h.symm⟩)
    · exact .inl ⟨_, _, h.symm⟩
    · exact .inl ⟨_, _, h.symm⟩
  | wrb a v =>
    simp only [hostAccess, writeByte] at h
    split at h <;> simp at h
    case h_3 i hreg =>
      obtain ⟨rfl, hi⟩ := regionOf_eq_bitmap hreg
      split_ifs at h with hn
      · exact .inr (.inr ⟨i, v, rfl, hi, hn, h.symm⟩)
      · exact .inl ⟨_, _, h.symm⟩
    · exact .inl ⟨_, _, h.symm⟩
    · exact .inl ⟨_, _, h.symm⟩

/-- A byte write of the bitmap window has its turn only while no op runs (R70). -/
theorem not_busy_of_bitmapWrite {s : State} {i : Nat} {v : Byte} {rest : List HostReq}
    (hi : i < 65536) (ht : HostTurn s (.wrb (0x10000 + i) v) rest) : s.status.busy = false := by
  obtain ⟨_, hd, n, hq⟩ := ht
  simp only [hostDue, hq, held, isBufferAccess, regionOf_bitmap i hi, Bool.and_true,
    Bool.and_eq_true, Bool.not_eq_true'] at hd
  exact hd.1

/-! ### The block itself writes neither the configuration nor T nor B -/

/-- `t` has the configuration, the table and the bitmap of `s`. -/
structure SameSource (s t : State) : Prop where
  cfg : t.cfg = s.cfg
  rom : t.rom = s.rom
  bitmap : t.bitmap = s.bitmap

theorem SameSource.trans {s t u : State} (h : SameSource s t) (h' : SameSource t u) :
    SameSource s u :=
  ⟨h'.cfg.trans h.cfg, h'.rom.trans h.rom, h'.bitmap.trans h.bitmap⟩

theorem sameSource_raiseError (k : ErrKind) (loc : Half) (opc : Byte) (s : State) :
    SameSource s (raiseError k loc opc s) :=
  ⟨by simp, by simp, by simp⟩

theorem sameSource_advanceTp (len : Nat) (s : State) : SameSource s (advanceTp len s) :=
  ⟨by simp, by simp, by simp⟩

theorem sameSource_returnStep (ok : Bool) (s : State) : SameSource s (returnStep ok s) := by
  unfold returnStep
  split
  · exact sameSource_advanceTp _ s
  · exact ⟨rfl, rfl, rfl⟩
  · exact ⟨rfl, rfl, rfl⟩
  · exact ⟨rfl, rfl, rfl⟩
  · exact sameSource_raiseError _ _ _ s
  · exact sameSource_raiseError _ _ _ s

theorem sameSource_convertDone (s : State) : SameSource s (convertDone s) := by
  unfold convertDone
  split <;> exact ⟨rfl, rfl, rfl⟩

theorem sameSource_convertStep (s : State) : SameSource s (convertStep s) := by
  unfold convertStep
  split_ifs
  · exact ⟨rfl, rfl, rfl⟩
  · exact (show SameSource s (convertByte s) from ⟨rfl, rfl, rfl⟩).trans (sameSource_convertDone _)
  · exact sameSource_convertDone s

theorem sameSource_drawBus (next : TxnStage) (s : State) : SameSource s (drawBus next s) := by
  unfold drawBus
  split <;> exact ⟨rfl, rfl, rfl⟩

theorem sameSource_sendByte (s : State) : SameSource s (sendByte s) := by
  unfold sendByte
  split <;> exact ⟨rfl, rfl, rfl⟩

theorem sameSource_txnStep (st : TxnStage) (s : State) : SameSource s (txnStep st s) := by
  cases st with
  | opDraw => exact sameSource_drawBus _ s
  | plDraw => exact sameSource_drawBus _ s
  | payload => exact sameSource_sendByte s
  | _ => exact ⟨rfl, rfl, rfl⟩

theorem sameSource_delayStep (s : State) : SameSource s (delayStep s) := by
  unfold delayStep
  split
  · exact sameSource_advanceTp _ s
  · exact ⟨rfl, rfl, rfl⟩

theorem sameSource_line (s : State) : SameSource s (line s) := by
  unfold line
  cases s.ctl with
  | delay => exact sameSource_delayStep s
  | advance len => exact sameSource_advanceTp len s
  | txn st => exact sameSource_txnStep st s
  | ret ok => exact sameSource_returnStep ok s
  | convert => exact sameSource_convertStep s
  | _ => exact ⟨rfl, rfl, rfl⟩

theorem sameSource_micro (s : State) : SameSource s (micro s) :=
  (sameSource_line s).trans ⟨rfl, rfl, rfl⟩

theorem sameSource_runOn (s : State) : SameSource s (runOn s) :=
  runOn_keeps (SameSource s) (fun u h _ => h.trans (sameSource_micro u)) s ⟨rfl, rfl, rfl⟩

/-- What comes before a run of micro-steps joins it. -/
theorem SameSource.run {s t : State} (h : SameSource s t) : SameSource s (runOn t) :=
  h.trans (sameSource_runOn t)

/-- A command changes none of the three, whatever becomes of it (R220). -/
theorem sameSource_command {s t : State} {v : Word} (he : exec (decodeCtrl v) s = .next t) :
    SameSource s t := by
  rcases exec_decodeCtrl_cases he with rfl | ⟨w, rfl⟩ | ⟨_, rfl | ⟨_, _, rfl⟩ | ⟨_, rfl⟩⟩
  · exact ⟨rfl, rfl, rfl⟩
  · exact sameSource_raiseError ..
  · unfold startInit
    split <;> exact ⟨by simp, by simp, by simp⟩
  · exact SameSource.run ⟨rfl, rfl, rfl⟩
  · unfold startConvertOp
    split
    · exact SameSource.run ⟨rfl, rfl, rfl⟩
    · exact ⟨by simp, by simp, by simp⟩

theorem sameSource_tableError (opc : Byte) (s : State) : SameSource s (tableError opc s) :=
  (sameSource_raiseError .tbl s.tp opc s).trans ⟨rfl, rfl, rfl⟩

theorem sameSource_entry {s t : State} {i : Instr} {len : Nat} (hf : fetchEntry s = .ok (i, len))
    (he : exec i s = .next t) : SameSource s t := by
  rcases exec_entry_cases hf he with
    ⟨op, pl, _, rfl⟩ | ⟨ms, _, rfl⟩ | ⟨v, _, rfl⟩ | ⟨_, rfl⟩ | ⟨h, rfl⟩
  · exact ⟨rfl, rfl, rfl⟩
  · exact ⟨rfl, rfl, rfl⟩
  · exact SameSource.run ⟨rfl, rfl, rfl⟩
  · exact ⟨rfl, rfl, rfl⟩
  · exact sameSource_tableError h s

/-- Every step but a block reset and a host access keeps the configuration, T and B. -/
theorem step_sameSource {s t : State} (h : step s = .next t) :
    (turn s = .reset ∧ t = blockReset s)
      ∨ (∃ x rest, turn s = .access x rest ∧ hostAccess x (takeAccess rest s) = .next t)
      ∨ SameSource s t := by
  rcases step_cases h with h | ⟨v, rest, _, he⟩ | h | ⟨_, rfl⟩ | ⟨i, len, _, hf, he⟩ | ⟨e, _, _, rfl⟩
    | ⟨_, he⟩ | ⟨_, rfl⟩
  · exact .inl h
  · exact .inr (.inr ((show SameSource s (takeAccess rest s) from ⟨rfl, rfl, rfl⟩).trans
      (sameSource_command he)))
  · exact .inr (.inl h)
  · exact .inr (.inr ⟨rfl, rfl, rfl⟩)
  · exact .inr (.inr (sameSource_entry hf he))
  · exact .inr (.inr (sameSource_tableError _ s))
  · rw [exec_decodeWire] at he
    injection he with he
    subst he
    exact .inr (.inr (SameSource.run ⟨rfl, rfl, rfl⟩))
  · exact .inr (.inr (sameSource_micro s).run)

/-- Settles O51: a block reset and a host access keep both, and every other step keeps more. -/
theorem stepKeepsConfigurationAndTable : Obligations.StepKeepsConfigurationAndTable := by
  intro s t h
  rcases step_sameSource h with ⟨_, rfl⟩ | ⟨x, rest, _, ha⟩ | h
  · exact ⟨rfl, rfl⟩
  · rw [hostAccess_keeps ha]
    exact ⟨rfl, rfl⟩
  · exact ⟨h.cfg, h.rom⟩

/-- Settles O55: only a block reset or a byte write of the window can change B, and the write has its turn only
while no op runs. -/
theorem onlyTheHostWritesTheBitmap : Obligations.OnlyTheHostWritesTheBitmap := by
  intro s t h hb
  rcases step_sameSource h with ⟨hr, _⟩ | ⟨x, rest, ht, ha⟩ | h
  · exact .inl hr
  · rcases hostAccess_cases ha with ⟨_, _, rfl⟩ | ⟨_, rfl⟩ | ⟨i, v, rfl, hi, hn, _⟩
    · exact absurd rfl hb
    · exact absurd rfl hb
    · exact .inr ⟨i, v, rest, ht, hi, hn, not_busy_of_bitmapWrite hi (turn_access ht).1⟩
  · exact absurd h.bitmap hb

end Sys2Proof.Machine
end

section
/-! `Inv` is kept by every step: one lemma for each line of the engine, for the run of
lines, and for each way an instruction, a command, a host access or a block reset begins. -/

namespace Sys2Proof.Machine

/-! ### Updates that the invariant hardly reads -/

/-- OP, BUSY and READY decide the invariant; of DONE it asks only that nothing sets it, and of the error flags,
ERRINFO, the inputs and the answers nothing. -/
theorem inv_of_same {s : State} (h : Inv s) (st : Status) (e : ErrInfo) (q : List HostReq)
    (rs : List Nat) (as : List Answer) (ho : st.op = s.status.op)
    (hb : st.busy = s.status.busy) (hr : st.ready = s.status.ready)
    (hd : st.done = true → s.status.done = true) :
    Inv { s with status := st, errinfo := e, hostQ := q, resets := rs, answers := as } := by
  refine ⟨⟨h.bitmapWf, h.packedWf, h.bitmapIn, h.packedIn, ?_, ?_, ?_, ?_, ?_, ?_, ?_, ?_, ?_, h.lines,
      h.selectedTx, h.csPlace⟩,
    opInv_of_same h.toOpInv st ho hr s.phase e s.lines q rs s.draws as s.trace,
    traceInv_of_same h.toTraceInv st ho hr s.phase e s.lines s.fresh q rs s.draws as⟩
  · simpa only [ho, hb] using h.busyOp
  · simpa only [ho] using h.place
  · intro hbusy
    have hdone := h.doneLate (hb ▸ hbusy)
    by_contra hne
    simp [hd (by simpa using hne)] at hdone
  · simpa only [hr] using h.readyActive
  · simpa only [hr] using h.readyGeom
  · simpa only [ho] using h.initPhase
  · simpa only [ho] using h.phaseInit
  · simpa only [ho, hr] using h.refreshReady
  · simpa only [hb] using h.opGeom

theorem inv_tick {s : State} (h : Inv s) : Inv (tick s) :=
  inv_of_same h s.status s.errinfo _ _ s.answers rfl rfl rfl id

theorem inv_takeAccess {s : State} (h : Inv s) (rest : List HostReq) : Inv (takeAccess rest s) :=
  inv_of_same h s.status s.errinfo _ _ s.answers rfl rfl rfl id

theorem inv_cmdError {s : State} (h : Inv s) (v : Word) : Inv (cmdError v s) := by
  rw [cmdError_eq]
  exact inv_of_same h _ _ s.hostQ s.resets s.answers rfl rfl rfl id

/-! ### One line of the engine -/

/-- What has been emitted at the end of an op is whole items when an error ends the op outside a write phase. -/
theorem inv_raiseError {s : State} (h : Inv s) {k : ErrKind} (hk : k ≠ .cmd) (loc : Half)
    (opc : Byte) (hs : s.ctl.selected = false)
    (hit : ∃ items : List TraceItem, items.flatMap TraceItem.events = s.openEvents) :
    Inv (raiseError k loc opc s) := by
  obtain ⟨ho, ht⟩ : OpInv (raiseError k loc opc s) ∧ TraceInv (raiseError k loc opc s) := by
    rw [raiseError_abort k loc opc s hk]
    refine opTrace_end h.toOpInv h.toTraceInv rfl rfl ?_ rfl rfl rfl rfl rfl rfl hit
    intro hr
    by_contra hn
    simp [hn] at hr
  exact ⟨blockInv_raiseError h.toBlockInv k loc opc hk hs, ho, ht⟩

theorem inv_finishOp {s : State} (h : Inv s) (hs : s.ctl.selected = false)
    (hi : s.status.op ≠ .init)
    (hit : ∃ items : List TraceItem, items.flatMap TraceItem.events = s.openEvents) :
    Inv (finishOp s) := by
  obtain ⟨ho, ht⟩ := opTrace_end (u := finishOp s) h.toOpInv h.toTraceInv rfl rfl id rfl rfl rfl rfl
    rfl rfl hit
  exact ⟨blockInv_finishOp h.toBlockInv hs hi, ho, ht⟩

/-- TP moves past the entry at TP, which has emitted its events (R161). -/
theorem inv_advanceTp {s : State} (h : Inv s) (hs : s.ctl.selected = false)
    (hi : s.status.op = .init) {i : Instr} {len : Nat} (hf : fetchEntry s = .ok (i, len))
    (hp : passedEntry i = true) (hop : s.openEvents = entryEvents i)
    (hit : ∃ it : TraceItem, it.events = entryEvents i) : Inv (advanceTp len s) := by
  obtain ⟨ho, ht⟩ := opTrace_advance h hi hf hp hop hit
  exact ⟨blockInv_advanceTp h.toBlockInv len hs hi, ho, ht⟩

/-- At a place where INIT alone runs, INIT runs. -/
theorem init_of_place {s : State} (h : Inv s) {c : Control} (hc : s.ctl = c)
    (hr : ∀ k, c.runs s.framer.caller k = (k == .init)) : s.status.op = .init := by
  have hp := h.place
  rw [hc, hr] at hp
  simpa using hp

theorem inv_delayStep {s : State} (h : Inv s) (hc : s.ctl = .delay) : Inv (delayStep s) := by
  obtain ⟨ms, hf, hn⟩ := h.delaying hc
  unfold delayStep
  split
  · exact inv_advanceTp h (by rw [hc]; rfl) (init_of_place h hc fun _ => rfl) hf rfl
      (by simp [State.openEvents, hc, State.entryHere, hf]) ⟨.wait ms, rfl⟩
  · exact ⟨blockInv_of_same h.toBlockInv rfl rfl rfl rfl rfl h.place h.lines h.selectedTx h.csPlace,
      ⟨h.window, h.converting, h.converted, h.entryTxn, h.refreshTxn, h.counts,
        fun _ => ⟨ms, hf, (Nat.sub_le _ _).trans hn⟩, h.advancing⟩,
      ⟨h.framed, h.initTrace, h.readyTrace, h.refreshTrace⟩⟩

theorem inv_advance {s : State} (h : Inv s) {len : Nat} (hc : s.ctl = .advance len) :
    Inv (advanceTp len s) := by
  have hs : s.ctl.selected = false := by rw [hc]; rfl
  have hi : s.status.op = .init := init_of_place h hc fun _ => rfl
  rcases h.advancing len hc with hf | hf
  · exact inv_advanceTp h hs hi hf rfl (by simp [State.openEvents, hc, State.entryHere, hf])
      ⟨.rst false, rfl⟩
  · exact inv_advanceTp h hs hi hf rfl (by simp [State.openEvents, hc, State.entryHere, hf])
      ⟨.rst true, rfl⟩

/-- What stands before transaction 1 or 2 of REFRESH is what stood before the last one, and that one (R214). -/
theorem framesBefore_next {s : State} {k : Fin 3} (hk : k ≠ 2) :
    s.framesBefore (k + 1) = s.framesBefore k ++ okFrame (refreshOp k) (s.refreshPayload k) := by
  match k with
  | 0 => rfl
  | 1 => rfl
  | 2 => exact absurd rfl hk

/-- They hold WIN's bytes and nothing else of the state. -/
theorem framesBefore_congr {s u : State} (hw : u.win = s.win) (k : Fin 3) :
    u.framesBefore k = s.framesBefore k := by
  match k with
  | 0 => rfl
  | 1 => simp only [State.framesBefore, State.refreshPayload, hw]
  | 2 => simp only [State.framesBefore, State.refreshPayload, hw]

/-- REFRESH goes on with its next transaction after one that succeeded (R214). -/
theorem inv_handNext {s : State} (h : Inv s) (hc : s.ctl = .ret true) {k : Fin 3}
    (hcal : s.framer.caller = .refresh k) (hk : k ≠ 2) : Inv (handRefresh (k + 1) s) := by
  have hin : s.ctl.inTxn = true := by rw [hc]; rfl
  have hop : s.status.op = .refresh := by simpa [hc, hcal, Control.runs] using h.place
  have hoe : s.openEvents = okFrame s.framer.op s.framer.pl := by simp [State.openEvents, hc]
  obtain ⟨hfo, hfp⟩ := h.refreshTxn k hin hcal
  obtain ⟨before, htr⟩ := h.refreshTrace k hin hcal
  obtain ⟨ho, ht⟩ := opTrace_handRefresh h.toOpInv h.toTraceInv (k + 1) hop
    (h.converted (.inl hop) (by simp [hc])) ⟨[.sent s.framer.op s.framer.pl], by simp [hoe, TraceItem.events]⟩
    ⟨before, by rw [htr, hoe, hfo, hfp, framesBefore_next hk, List.append_assoc]⟩
  exact ⟨blockInv_handRefresh h.toBlockInv _ (by rw [hc]; rfl) hop, ho, ht⟩

theorem inv_returnStep {s : State} (h : Inv s) {ok : Bool} (hc : s.ctl = .ret ok) :
    Inv (returnStep ok s) := by
  have hs : s.ctl.selected = false := by rw [hc]; rfl
  cases ok with
  | false =>
    have hn := h.counts
    rw [hc] at hn
    obtain ⟨it, hit⟩ := failed_item hn
    rw [returnStep_fail]
    exact inv_raiseError h (by decide) _ _ hs ⟨[it], by simp [State.openEvents, hc, hit]⟩
  | true =>
    have hoe : s.openEvents = okFrame s.framer.op s.framer.pl := by simp [State.openEvents, hc]
    cases hcal : s.framer.caller with
    | entry =>
      rw [returnStep_entry s hcal]
      exact inv_advanceTp h hs (by simpa [hc, hcal, Control.runs] using h.place)
        (h.entryTxn (by rw [hc]; rfl) hcal) rfl hoe ⟨.sent s.framer.op s.framer.pl, rfl⟩
    | refresh k =>
      rw [returnStep_refresh s k hcal]
      split_ifs with h0 h1
      · subst h0
        exact inv_handNext h hc hcal (by decide)
      · subst h1
        exact inv_handNext h hc hcal (by decide)
      · have hop : s.status.op = .refresh := by simpa [hc, hcal, Control.runs] using h.place
        exact inv_finishOp h hs (by simp [hop]) ⟨[.sent s.framer.op s.framer.pl], by simp [hoe, TraceItem.events]⟩

/-- Every line of the engine keeps the invariant. -/
theorem inv_line {s : State} (h : Inv s) : Inv (line s) := by
  unfold line
  cases hc : s.ctl with
  | idle => exact h
  | fetch => exact h
  | present => exact h
  | delay => exact inv_delayStep h hc
  | advance len => exact inv_advance h hc
  | txn st =>
    obtain ⟨ho, ht⟩ := opTrace_txnStep h st hc
    exact ⟨blockInv_txnStep h.toBlockInv st hc, ho, ht⟩
  | ret ok => exact inv_returnStep h hc
  | convert =>
    have hb := blockInv_line h.toBlockInv
    simp only [line, hc] at hb
    obtain ⟨ho, ht⟩ := opTrace_convertStep h hc
    exact ⟨hb, ho, ht⟩
  | finish =>
    have hop : s.status.op = .convert := by simpa [hc, Control.runs] using h.place
    exact inv_finishOp h (by rw [hc]; rfl) (by simp [hop]) ⟨[], by simp [State.openEvents, hc]⟩

theorem inv_micro {s : State} (h : Inv s) : Inv (micro s) := inv_tick (inv_line h)

theorem inv_runOn {s : State} (h : Inv s) : Inv (runOn s) :=
  runOn_keeps Inv (fun _ h _ => inv_micro h) s h

/-! ### Block reset and the host's accesses -/

theorem inv_blockReset (s : State) : Inv (blockReset s) := by
  refine ⟨⟨rfl, rfl, fun _ _ => rfl, fun _ _ => rfl, by simp [Status.reset], rfl, by simp [Status.reset],
      by simp [Status.reset], by simp [Status.reset], by simp [Status.reset], by simp [Phase.ofInit],
      by simp [Status.reset], by simp [Status.reset], rfl, rfl, rfl⟩,
    opInv_idle rfl rfl (by simp [Status.reset]),
    ⟨⟨[], rfl, rfl⟩, by simp [Status.reset], by simp [Status.reset], by simp [Control.inTxn]⟩⟩

/-- With no op running nothing is said of B but that it stays inside its window (R65). -/
theorem inv_bitmapWrite {s : State} (h : Inv s) (hb : s.status.busy = false) {i : Nat}
    (hi : i < s.cfg.n) (v : Byte) : Inv { s with bitmap := s.bitmap.write i v } := by
  obtain ⟨hop, hc⟩ := idle_of_not_busy h.toBlockInv hb
  refine ⟨⟨Memory.wf_write _ _ _ h.bitmapWf, h.packedWf, ?_, h.packedIn, h.busyOp, h.place, h.doneLate,
      h.readyActive, h.readyGeom, h.initPhase, h.phaseInit, h.refreshReady, h.opGeom, h.lines,
      h.selectedTx, h.csPlace⟩,
    opInv_idle hc hop fun hr => h.window (.inl hr),
    ⟨h.framed, h.initTrace, h.readyTrace, h.refreshTrace⟩⟩
  intro k (hk : s.cfg.n ≤ k)
  rw [Memory.read_write, if_neg (by omega)]
  exact h.bitmapIn k hk

theorem inv_hostAccess {s t : State} {x : HostAccess} {rest : List HostReq} (h : Inv s)
    (ht : HostTurn s x rest) (ha : hostAccess x (takeAccess rest s) = .next t) : Inv t := by
  have h' := inv_takeAccess h rest
  rcases hostAccess_cases ha with ⟨q, as, rfl⟩ | ⟨v, rfl⟩ | ⟨i, v, rfl, hi, hn, rfl⟩
  · exact inv_of_same h' _ _ q _ as rfl rfl rfl id
  · exact inv_of_same h' _ _ _ _ _ rfl rfl rfl (by simp +contextual [Status.w1c])
  · have hb : s.status.busy = false := not_busy_of_bitmapWrite hi ht
    exact inv_bitmapWrite h' hb hn v

/-! ### Commands -/

/-- With no op running the trace is whole items (R191). -/
theorem whole_of_idle {s : State} (h : Inv s) (hc : s.ctl = .idle) :
    ∃ items : List TraceItem, s.trace = items.flatMap TraceItem.events := by
  obtain ⟨items, e, _⟩ := h.framed
  exact ⟨items, by rw [e, openEvents_idle hc, List.append_nil]⟩

/-- A geometry error ends a command that never became an op (R212, R217). -/
theorem inv_geomError {s : State} (h : Inv s) (hc : s.ctl = .idle) :
    Inv (raiseError .geom 0 0 s) :=
  inv_raiseError h (by decide) 0 0 (by rw [hc]; rfl) ⟨[], by simp [openEvents_idle hc]⟩

/-- A refused geometry leaves INIT with READY = 0 and PHASE = FAULT, and no op (R212). -/
theorem inv_initRefused {s : State} (h : Inv s) (hb : s.status.busy = false) :
    Inv { s with status := { s.status with done := false, ready := false }, phase := .fault } := by
  obtain ⟨hop, hc⟩ := idle_of_not_busy h.toBlockInv hb
  exact ⟨⟨h.bitmapWf, h.packedWf, h.bitmapIn, h.packedIn, h.busyOp, h.place, fun _ => rfl, by simp,
      by simp, by simp [hop], by simp [Phase.ofInit], by simp [hop], h.opGeom, h.lines, h.selectedTx,
      h.csPlace⟩,
    opInv_idle hc hop (by simp),
    ⟨h.framed, by simp [hop], by simp, h.refreshTrace⟩⟩

/-- INIT begins at address 0 with none of the table's entries run (R211). -/
theorem inv_startInit {s : State} (h : Inv s) (hb : s.status.busy = false) : Inv (startInit s) := by
  obtain ⟨hop, hc⟩ := idle_of_not_busy h.toBlockInv hb
  unfold startInit
  split_ifs with hg
  · obtain ⟨items, hitems⟩ := whole_of_idle h hc
    have ho : OpInv { s with
        status := { s.status.accepted .init with ready := false }, win := cfgWindow s.cfg, tp := 0
        tpPast := false, phase := .reset, ctl := .fetch } := by
      refine ⟨fun _ => rfl, ?_, ?_, ?_, ?_, trivial, ?_, ?_⟩ <;>
        simp [Status.accepted, Control.inTxn]
    refine ⟨⟨h.bitmapWf, h.packedWf, h.bitmapIn, h.packedIn, by simp [Status.accepted], rfl,
        fun _ => rfl, by simp, by simp, fun _ => rfl, fun _ => rfl, by simp [Status.accepted],
        fun _ => hg, h.lines, h.selectedTx, csPlace_move h.toBlockInv rfl (by rw [hc]; rfl) rfl⟩,
      ho, framed_bytes ho ⟨items, by simp [State.openEvents, hitems]⟩, fun _ => ⟨s.trace, [], ?_, 0, rfl, rfl⟩,
      by simp, by simp [Control.inTxn]⟩
    simp [State.openEvents]
  · exact inv_geomError (inv_initRefused h hb) hc

/-- REFRESH or CONVERT begins its conversion with nothing of P promised (R136, R214, R217). -/
theorem inv_startConvert {s : State} (h : Inv s) (hb : s.status.busy = false) {k : OpKind}
    (hk : k = .refresh ∧ s.status.ready = true ∨ k = .convert) (hg : s.cfg.geomOk = true) :
    Inv (startConvert { s with status := s.status.accepted k }) := by
  obtain ⟨hop, hc⟩ := idle_of_not_busy h.toBlockInv hb
  obtain ⟨items, hitems⟩ := whole_of_idle h hc
  obtain ⟨hncp, hnb, _⟩ := geomOk_numbers s.cfg hg
  have hk' : (k = .refresh ∨ k = .convert) ∧ (k = .refresh → s.status.ready = true) := by
    rcases hk with ⟨rfl, hr⟩ | rfl <;> simp [*]
  obtain ⟨hkind, hready⟩ := hk'
  have hni : k ≠ .init := by rcases hkind with rfl | rfl <;> decide
  have ho : OpInv (startConvert { s with status := s.status.accepted k }) := by
    refine ⟨?_, fun _ => ⟨by simp [Conv.inRange, hncp, hnb], by simp [Latched], by simp [dstIndex]⟩,
      fun _ hne => absurd rfl hne, ?_, ?_, trivial, ?_, ?_⟩ <;> simp [Control.inTxn, Status.accepted]
    rintro (hr | hi)
    · exact h.window (.inl hr)
    · exact absurd hi hni
  refine ⟨⟨h.bitmapWf, h.packedWf, h.bitmapIn, h.packedIn, ?_, ?_, fun _ => rfl, h.readyActive,
      h.readyGeom, ?_, ?_, hready, fun _ => hg, h.lines, h.selectedTx,
      csPlace_move h.toBlockInv rfl (by rw [hc]; rfl) rfl⟩,
    ho, framed_bytes ho ⟨items, by simp [State.openEvents, hitems]⟩, fun hi => absurd hi hni,
    h.readyTrace, by simp [Control.inTxn]⟩
  · rcases hkind with rfl | rfl <;> simp [Status.accepted]
  · rcases hkind with rfl | rfl <;> rfl
  · exact fun hi => absurd hi hni
  · intro hp
    have := h.phaseInit hp
    simp [hop] at this

theorem inv_startConvertOp {s : State} (h : Inv s) (hb : s.status.busy = false) :
    Inv (startConvertOp s) := by
  unfold startConvertOp
  split_ifs with hg
  · exact inv_runOn (inv_startConvert h hb (.inr rfl) hg)
  · exact inv_geomError
      (inv_of_same h { s.status with done := false } s.errinfo s.hostQ s.resets s.answers rfl rfl rfl
        (by simp))
      (idle_of_not_busy h.toBlockInv hb).2

theorem inv_command {s t : State} {v : Word} (h : Inv s) (he : exec (decodeCtrl v) s = .next t) :
    Inv t := by
  rcases exec_decodeCtrl_cases he with rfl | ⟨w, rfl⟩ | ⟨hb, rfl | ⟨_, hr, rfl⟩ | ⟨_, rfl⟩⟩
  · exact h
  · exact inv_cmdError h w
  · exact inv_startInit h hb
  · exact inv_runOn (inv_startConvert h hb (.inl ⟨rfl, hr⟩) (h.readyGeom hr))
  · exact inv_startConvertOp h hb

/-! ### The trace grows with the part under way -/

/-- The trace's part is kept where the trace grows by what the part under way has emitted more, and the op, WIN, T
and TP stay; READY may fall, and no transaction of REFRESH is new. -/
theorem traceInv_grow {s u : State} (h : TraceInv s) (ho : OpInv u) (more : List Event)
    (ht : u.trace = s.trace ++ more) (hopen : u.openEvents = s.openEvents ++ more)
    (hop : u.status.op = s.status.op) (hr : u.status.ready = true → s.status.ready = true)
    (h1 : u.rom = s.rom) (h2 : u.tp = s.tp) (h3 : u.tpPast = s.tpPast) (hw : u.win = s.win)
    (hcal : ∀ k, u.ctl.inTxn = true → u.framer.caller = .refresh k →
      s.ctl.inTxn = true ∧ s.framer.caller = .refresh k) : TraceInv u := by
  refine ⟨framed_bytes ho ?_, fun hi => ?_, readyTrace_keeps h more ht hr h1 h2 h3, fun k hin hk => ?_⟩
  · obtain ⟨items, e, _⟩ := h.framed
    exact ⟨items, by rw [ht, hopen, e, List.append_assoc]⟩
  · obtain ⟨before, es, e, hran⟩ := h.initTrace (hop ▸ hi)
    refine ⟨before, es, by rw [ht, hopen, e, List.append_assoc], ?_⟩
    unfold State.ranEntries
    rw [h1, h2, h3]
    exact hran
  · obtain ⟨hin, hk⟩ := hcal k hin hk
    obtain ⟨before, e⟩ := h.refreshTrace k hin hk
    exact ⟨before, by rw [ht, hopen, framesBefore_congr hw, e, List.append_assoc]⟩

/-! ### Entries of the table -/

theorem nextPhase_ofInit {p : Phase} (hp : p.ofInit = true) (op : Byte) :
    (nextPhase p op).ofInit = true := by
  unfold nextPhase
  split_ifs
  · rfl
  · rfl
  · rfl
  · exact hp

/-- While INIT runs PHASE may move inside INIT's phases (R167). -/
theorem inv_phase {s : State} (h : Inv s) (hi : s.status.op = .init) {p : Phase}
    (hp : p.ofInit = true) : Inv { s with phase := p } := by
  have hr := init_not_ready h.toBlockInv hi
  have hne : p ≠ .active := by rintro rfl; simp [Phase.ofInit] at hp
  exact ⟨⟨h.bitmapWf, h.packedWf, h.bitmapIn, h.packedIn, h.busyOp, h.place, h.doneLate,
      by simp [hr, hne], h.readyGeom, fun _ => hp, fun _ => hi, h.refreshReady, h.opGeom, h.lines,
      h.selectedTx, h.csPlace⟩,
    opInv_of_same h.toOpInv s.status rfl rfl p s.errinfo s.lines s.hostQ s.resets s.draws s.answers
      s.trace,
    traceInv_of_same h.toTraceInv s.status rfl rfl p s.errinfo s.lines s.fresh s.hostQ s.resets
      s.draws s.answers⟩

/-- INIT hands the transaction of the CMD entry at TP to the framer (R162). -/
theorem inv_handEntry {s : State} (h : Inv s) (hc : s.ctl = .fetch) {op : Byte} {pl : List Byte}
    (hf : fetchEntry s = .ok (.cmd op pl, 2 + pl.length)) : Inv (handOver op pl .entry s) := by
  have hi : s.status.op = .init := init_of_place h hc fun _ => rfl
  have ho : OpInv (handOver op pl .entry s) := by
    refine ⟨h.window, ?_, ?_, fun _ _ => hf, ?_, rfl, ?_, ?_⟩ <;> simp [hi]
  exact ⟨blockInv_of_same h.toBlockInv rfl rfl rfl rfl rfl (by simp [Control.runs, hi]) h.lines
      h.selectedTx (csPlace_move h.toBlockInv rfl (by rw [hc]; rfl) rfl),
    ho, traceInv_grow h.toTraceInv ho [] (by simp) (by simp [State.openEvents, hc]) rfl id rfl rfl rfl rfl
      (by simp)⟩

/-- A DELAY or a reset entry begins with its one event, which leaves CS alone and is no byte (R163 to R165). -/
theorem inv_entryEvent {s : State} (h : Inv s) (hc : s.ctl = .fetch) {e : Event}
    (he : (∃ ms, e = .wait ms) ∨ ∃ v, e = .rst v) {n m : Nat} {c : Control}
    (hplace : c = .delay ∨ ∃ len, c = .advance len)
    (ho : OpInv { emit e s with delayCtr := n, fresh := m, ctl := c })
    (hopen : ({ emit e s with delayCtr := n, fresh := m, ctl := c } : State).openEvents = [e]) :
    Inv { emit e s with delayCtr := n, fresh := m, ctl := c } := by
  have hi : s.status.op = .init := init_of_place h hc fun _ => rfl
  have hs : s.ctl.selected = false := by rw [hc]; rfl
  have hcs : (s.lines.drive e).cs = s.lines.cs := by rcases he with ⟨_, rfl⟩ | ⟨_, rfl⟩ <;> rfl
  have htx : ∀ b, e = .tx b → s.lines.cs = false := by
    rcases he with ⟨_, rfl⟩ | ⟨_, rfl⟩ <;> simp
  obtain ⟨hruns, hsel, hin⟩ : c.runs s.framer.caller s.status.op = true ∧ c.selected = false
      ∧ c.inTxn = false := by
    rcases hplace with rfl | ⟨_, rfl⟩ <;> exact ⟨by simp [Control.runs, hi], rfl, rfl⟩
  obtain ⟨hlines, htrace⟩ := emit_agrees h.toBlockInv e
  exact ⟨blockInv_of_same h.toBlockInv rfl rfl rfl rfl rfl hruns hlines (htrace htx)
      (by simp [hcs, hsel, h.csPlace, hs]),
    ho, traceInv_grow h.toTraceInv ho [e] rfl (by rw [hopen]; simp [State.openEvents, hc]) rfl id
      rfl rfl rfl rfl (by simp [hin])⟩

/-- The counter is loaded with what its bound allows (log entry 10). -/
theorem inv_startDelay {s : State} (h : Inv s) (hc : s.ctl = .fetch) {ms : Half} {len : Nat}
    (hf : fetchEntry s = .ok (.delay ms, len)) : Inv (startDelay ms s) := by
  have hi : s.status.op = .init := init_of_place h hc fun _ => rfl
  obtain rfl : len = 3 := fetchEntry_len hf
  have hhere : s.entryHere = [.wait ms] := by simp [State.entryHere, hf, entryEvents]
  refine inv_tick (inv_entryEvent h hc (.inl ⟨ms, rfl⟩) (.inl rfl) ?_ hhere)
  exact ⟨h.window, by simp, by simp [hi], by simp [Control.inTxn], by simp [Control.inTxn], trivial,
    fun _ => ⟨ms, hf, le_refl _⟩, by simp⟩

theorem inv_driveReset {s : State} (h : Inv s) (hc : s.ctl = .fetch) {v : Bool} {len : Nat}
    (hf : fetchEntry s = .ok (resetEntry v, len)) : Inv (driveReset v s) := by
  have hi : s.status.op = .init := init_of_place h hc fun _ => rfl
  obtain rfl : len = 1 := (fetchEntry_len hf).trans (by cases v <;> rfl)
  have hhere : s.entryHere = [.rst v] := by cases v <;> simp [State.entryHere, hf, resetEntry, entryEvents]
  have hrow : fetchEntry s = .ok (.rstLow, 1) ∨ fetchEntry s = .ok (.rstHigh, 1) := by
    cases v
    · exact .inl hf
    · exact .inr hf
  refine inv_runOn (inv_tick (inv_entryEvent (n := s.delayCtr) (m := s.fresh) h hc (.inr ⟨v, rfl⟩)
    (.inr ⟨1, rfl⟩) ?_ hhere))
  refine ⟨h.window, by simp, by simp [hi], by simp [Control.inTxn], by simp [Control.inTxn], trivial,
    by simp, ?_⟩
  rintro _ ⟨⟩
  exact hrow

/-- END: the trace holds the whole table's events, and TP stays at END (R166, R168). -/
theorem inv_end {s : State} (h : Inv s) (hc : s.ctl = .fetch) {len : Nat}
    (hf : fetchEntry s = .ok (.endEntry, len)) :
    Inv { finishOp s with
      phase := .active, status := { s.status.completed with ready := true } } := by
  have hi : s.status.op = .init := init_of_place h hc fun _ => rfl
  have hoe : s.openEvents = [] := by simp [State.openEvents, hc]
  have hlen : len = 1 := fetchEntry_len hf
  subst hlen
  have ho : OpInv { finishOp s with
      phase := .active, status := { s.status.completed with ready := true } } :=
    opInv_idle rfl rfl fun _ => h.window (.inr hi)
  refine ⟨⟨h.bitmapWf, h.packedWf, h.bitmapIn, h.packedIn, by simp [Status.completed], rfl,
      by simp [Status.completed], by simp, fun _ => h.opGeom (h.busyOp.2 (by simp [hi])),
      by simp [Status.completed], by simp [Phase.ofInit], by simp [Status.completed],
      by simp [Status.completed], h.lines, h.selectedTx,
      csPlace_move h.toBlockInv rfl (by rw [hc]; rfl) rfl⟩,
    ho, framed_bytes ho ?_, by simp [Status.completed], fun _ => ?_, by simp [Control.inTxn]⟩
  · obtain ⟨items, e, _⟩ := h.framed
    rw [hoe] at e
    exact ⟨items, e⟩
  · obtain ⟨before, es, e, hr⟩ := h.initTrace hi
    rw [hoe] at e
    exact ⟨before, es, [], e, hr, hf⟩

theorem inv_tableError {s : State} (h : Inv s) (hc : s.ctl = .fetch) (opc : Byte) :
    Inv (tableError opc s) :=
  inv_tick (inv_raiseError h (by decide) s.tp opc (by rw [hc]; rfl)
    ⟨[], by simp [State.openEvents, hc]⟩)

theorem inv_entry {s t : State} (h : Inv s) (hc : s.ctl = .fetch) {i : Instr} {len : Nat}
    (hf : fetchEntry s = .ok (i, len)) (he : exec i s = .next t) : Inv t := by
  have hi : s.status.op = .init := init_of_place h hc fun _ => rfl
  rcases exec_entry_cases hf he with
    ⟨op, pl, rfl, rfl⟩ | ⟨ms, rfl, rfl⟩ | ⟨v, rfl, rfl⟩ | ⟨rfl, rfl⟩ | ⟨opc, rfl⟩
  · obtain rfl : len = 2 + pl.length := fetchEntry_len hf
    exact inv_tick (inv_handEntry (inv_phase h hi (nextPhase_ofInit (h.initPhase hi) op)) hc hf)
  · exact inv_startDelay h hc hf
  · exact inv_driveReset h hc hf
  · exact inv_tick (inv_end h hc hf)
  · exact inv_tableError h hc opc

/-! ### Transactions -/

/-- The framer begins the transaction it holds: CS goes to 0 (R191). -/
theorem inv_beginTxn {s : State} (h : Inv s) (hc : s.ctl = .present) :
    Inv (beginTxn s.framer.op s.framer.pl s) := by
  have hin : s.ctl.inTxn = true := by rw [hc]; rfl
  have hnc : s.ctl ≠ .convert := by simp [hc]
  have hoe : s.openEvents = [] := by simp [State.openEvents, hc]
  have em := emit_agrees h.toBlockInv (.cs false)
  have ho : OpInv { emit (.cs false) s with
      framer := ⟨s.framer.op, s.framer.pl, 0, s.framer.caller⟩, ctl := .txn .command } :=
    ⟨h.window, by simp, fun hx _ => h.converted hx hnc, fun _ => h.entryTxn hin,
      fun k _ => h.refreshTxn k hin, rfl, by simp, by simp⟩
  exact inv_tick ⟨blockInv_of_same h.toBlockInv rfl rfl rfl rfl rfl
      (by simpa [hc, Control.runs] using h.place) em.1 (em.2 (by simp)) rfl,
    ho, traceInv_grow h.toTraceInv ho [.cs false] rfl (by rw [hoe]; rfl) rfl id rfl rfl rfl rfl
      fun k _ hk => ⟨hin, hk⟩⟩

theorem inv_sendTxn {s : State} (h : Inv s) (hc : s.ctl = .present) :
    Inv (sendTxn s.framer.op s.framer.pl s) :=
  inv_runOn (inv_beginTxn h hc)

/-- SLEEP_OUT moves PHASE only where a CMD entry of a running INIT sends it (R102). -/
theorem inv_wirePhase {s : State} (h : Inv s) (hc : s.ctl = .present) (op : Byte) :
    Inv { s with
      phase := if op = 0x11 ∧ s.framer.caller = .entry then .sleepout else s.phase } := by
  split_ifs with hcal
  · exact inv_phase h (by simpa [hc, Control.runs, hcal.2] using h.place) rfl
  · exact h

/-- Settles O49: each of the eight things a step can be keeps the invariant. -/
theorem stepKeepsInvariant : Obligations.StepKeepsInvariant := by
  intro s t h hstep
  rcases step_cases hstep with ⟨_, rfl⟩ | ⟨v, rest, _, he⟩ | ⟨x, rest, ht, ha⟩ | ⟨_, rfl⟩
    | ⟨i, len, ht, hf, he⟩ | ⟨e, ht, _, rfl⟩ | ⟨ht, he⟩ | ⟨_, rfl⟩
  · exact inv_blockReset s
  · exact inv_command (inv_takeAccess h rest) he
  · exact inv_hostAccess h (turn_access ht).1 ha
  · exact h
  · exact inv_entry h (turn_entry ht).1 hf he
  · exact inv_tableError h (turn_entry ht).1 _
  · have hc := (turn_wire ht).1
    rw [exec_decodeWire] at he
    injection he with he
    subst he
    exact inv_sendTxn (inv_wirePhase h hc s.framer.op) hc
  · exact inv_runOn (inv_micro h)

end Sys2Proof.Machine
end

section
/-! Only a conversion writes P (R36), and the step that ends a REFRESH or a CONVERT leaves P = conv(B) (R214,
R217). -/

namespace Sys2Proof.Machine

/-! ### Outside a conversion P stays -/

/-- The engine is in no conversion and P holds what it holds in `s`. -/
def KeepsPacked (s u : State) : Prop := u.ctl ≠ .convert ∧ u.packed = s.packed

theorem keepsPacked_raiseError {s u : State} (h : KeepsPacked s u) (k : ErrKind) (loc : Half)
    (opc : Byte) : KeepsPacked s (raiseError k loc opc u) := by
  refine ⟨?_, by simpa using h.2⟩
  unfold raiseError
  split_ifs
  · exact h.1
  · simp

theorem keepsPacked_advanceTp {s u : State} (h : KeepsPacked s u) (len : Nat) :
    KeepsPacked s (advanceTp len u) :=
  ⟨by simp, by simpa using h.2⟩

theorem keepsPacked_returnStep {s u : State} (h : KeepsPacked s u) (ok : Bool) :
    KeepsPacked s (returnStep ok u) := by
  unfold returnStep
  split
  · exact keepsPacked_advanceTp h _
  · exact ⟨by simp, h.2⟩
  · exact ⟨by simp, h.2⟩
  · exact ⟨by simp, h.2⟩
  · exact keepsPacked_raiseError h _ _ _
  · exact keepsPacked_raiseError h _ _ _

theorem keepsPacked_delayStep {s u : State} (h : KeepsPacked s u) : KeepsPacked s (delayStep u) := by
  unfold delayStep
  split
  · exact keepsPacked_advanceTp h 3
  · exact h

theorem keepsPacked_drawBus {s u : State} (h : KeepsPacked s u) (next : TxnStage) :
    KeepsPacked s (drawBus next u) := by
  unfold drawBus
  split
  · exact h
  · exact ⟨by simp, h.2⟩
  · exact ⟨by simp, h.2⟩

theorem keepsPacked_sendByte {s u : State} (h : KeepsPacked s u) : KeepsPacked s (sendByte u) := by
  unfold sendByte
  split <;> exact ⟨by simp, h.2⟩

theorem keepsPacked_txnStep {s u : State} (h : KeepsPacked s u) (st : TxnStage) :
    KeepsPacked s (txnStep st u) := by
  cases st with
  | opDraw => exact keepsPacked_drawBus h _
  | plDraw => exact keepsPacked_drawBus h _
  | payload => exact keepsPacked_sendByte h
  | dataMode => exact ⟨by simp only [txnStep]; split_ifs <;> simp, h.2⟩
  | _ => exact ⟨by simp [txnStep], h.2⟩

theorem keepsPacked_line {s u : State} (h : KeepsPacked s u) : KeepsPacked s (line u) := by
  unfold line
  cases hc : u.ctl with
  | convert => exact absurd hc h.1
  | delay => exact keepsPacked_delayStep h
  | advance len => exact keepsPacked_advanceTp h len
  | txn st => exact keepsPacked_txnStep h st
  | ret ok => exact keepsPacked_returnStep h ok
  | finish => exact ⟨by simp, h.2⟩
  | _ => exact h

theorem keepsPacked_micro {s u : State} (h : KeepsPacked s u) : KeepsPacked s (micro u) :=
  keepsPacked_line h

/-- A run that begins outside a conversion leaves P as it is. -/
theorem runOn_packed {s u : State} (h : KeepsPacked s u) : (runOn u).packed = s.packed :=
  (runOn_keeps (KeepsPacked s) (fun _ h _ => keepsPacked_micro h) u h).2

theorem tableError_packed (opc : Byte) (s : State) : (tableError opc s).packed = s.packed := by
  simp [tableError]

theorem entry_packed {s t : State} {i : Instr} {len : Nat} (hf : fetchEntry s = .ok (i, len))
    (he : exec i s = .next t) : t.packed = s.packed := by
  rcases exec_entry_cases hf he with
    ⟨op, pl, _, rfl⟩ | ⟨ms, _, rfl⟩ | ⟨v, _, rfl⟩ | ⟨_, rfl⟩ | ⟨h, rfl⟩
  · rfl
  · rfl
  · exact runOn_packed ⟨by simp, rfl⟩
  · rfl
  · exact tableError_packed h s

/-- A command changes P only as a REFRESH or a CONVERT that is accepted (R220). -/
theorem command_packed {s t : State} {v : Word} (he : exec (decodeCtrl v) s = .next t)
    (hp : t.packed ≠ s.packed) :
    s.status.busy = false ∧ (v.extractLsb' 0 3 = 2 ∧ s.status.ready = true
      ∨ v.extractLsb' 0 3 = 3 ∧ s.cfg.geomOk = true) := by
  rcases exec_decodeCtrl_cases he with rfl | ⟨w, rfl⟩ | ⟨hb, rfl | ⟨hv, hr, rfl⟩ | ⟨hv, rfl⟩⟩
  · exact absurd rfl hp
  · exact absurd rfl hp
  · refine absurd ?_ hp
    unfold startInit
    split_ifs <;> simp
  · exact ⟨hb, .inl ⟨hv, hr⟩⟩
  · refine ⟨hb, .inr ⟨hv, ?_⟩⟩
    by_contra hg
    simp [startConvertOp, hg] at hp

theorem step_packed {s t : State} (h : step s = .next t) (hp : t.packed ≠ s.packed) :
    turn s = .reset ∨ (turn s = .block ∧ s.ctl = .convert)
      ∨ ∃ v rest, turn s = .command v rest ∧ s.status.busy = false
          ∧ ((v.extractLsb' 0 3 = 2 ∧ s.status.ready = true)
            ∨ (v.extractLsb' 0 3 = 3 ∧ s.cfg.geomOk = true)) := by
  rcases step_cases h with ⟨hr, _⟩ | ⟨v, rest, ht, he⟩ | ⟨x, rest, _, ha⟩ | ⟨_, rfl⟩
    | ⟨i, len, _, hf, he⟩ | ⟨e, _, _, rfl⟩ | ⟨_, he⟩ | ⟨ht, rfl⟩
  · exact .inl hr
  · exact .inr (.inr ⟨v, rest, ht, command_packed (s := takeAccess rest s) he hp⟩)
  · rw [hostAccess_keeps ha] at hp
    exact absurd rfl hp
  · exact absurd rfl hp
  · exact absurd (entry_packed hf he) hp
  · exact absurd (tableError_packed _ s) hp
  · rw [exec_decodeWire] at he
    injection he with he
    subst he
    exact absurd (runOn_packed ⟨by simp [beginTxn], rfl⟩) hp
  · refine .inr (.inl ⟨ht, ?_⟩)
    by_contra hc
    exact hp (runOn_packed (keepsPacked_micro ⟨hc, rfl⟩))

/-! ### At the end of REFRESH and CONVERT P = conv(B) -/

/-- REFRESH or CONVERT runs. -/
def State.converts (s : State) : Prop := s.status.op = .refresh ∨ s.status.op = .convert

/-- P holds all of conv(B) (R130, R214). -/
def State.convDone (s : State) : Prop :=
  ∀ k, k < s.cfg.n → s.packedByte k = convByte s.cfg s.bitmapByte k

/-- In a run that begins in REFRESH or CONVERT: the op runs, or it has ended and P = conv(B). -/
def ConvOrDone (s : State) : Prop := s.converts ∨ s.status.op = .none ∧ s.convDone

theorem convertDone_status (s : State) : (convertDone s).status = s.status := by
  unfold convertDone
  split <;> rfl

theorem convertStep_status (s : State) : (convertStep s).status = s.status := by
  unfold convertStep
  split_ifs
  · rfl
  · exact convertDone_status (convertByte s)
  · exact convertDone_status s

theorem drawBus_status (next : TxnStage) (s : State) : (drawBus next s).status = s.status := by
  unfold drawBus
  split <;> rfl

theorem sendByte_status (s : State) : (sendByte s).status = s.status := by
  unfold sendByte
  split <;> rfl

theorem txnStep_status (st : TxnStage) (s : State) : (txnStep st s).status = s.status := by
  cases st with
  | opDraw => exact drawBus_status _ s
  | plDraw => exact drawBus_status _ s
  | payload => exact sendByte_status s
  | _ => rfl

theorem delayStep_status (s : State) : (delayStep s).status = s.status := by
  unfold delayStep
  split_ifs
  · exact advanceTp_status 3 s
  · rfl

/-- STATUS moves only at the end of a transaction and at the end of CONVERT. -/
theorem line_status {s : State} (hr : ∀ ok, s.ctl ≠ .ret ok) (hf : s.ctl ≠ .finish) :
    (line s).status = s.status := by
  unfold line
  cases hc : s.ctl with
  | ret ok => exact absurd hc (hr ok)
  | finish => exact absurd hc hf
  | delay => exact delayStep_status s
  | advance len => exact advanceTp_status len s
  | txn st => exact txnStep_status st s
  | convert => exact convertStep_status s
  | _ => rfl

/-- The return of REFRESH's transaction goes on with the op, or ends it after the conversion (R214, R242). -/
theorem convOrDone_returnStep {s : State} (hop : s.converts) (hd : s.convDone) (ok : Bool) :
    ConvOrDone (returnStep ok s) := by
  cases ok with
  | false =>
    rw [returnStep_fail, raiseError_abort _ _ _ _ (by decide)]
    exact .inr ⟨rfl, hd⟩
  | true =>
    cases hcal : s.framer.caller with
    | entry =>
      rw [returnStep_entry s hcal]
      exact .inl (by simpa [State.converts] using hop)
    | refresh k =>
      rw [returnStep_refresh s k hcal]
      split_ifs
      · exact .inl hop
      · exact .inl hop
      · exact .inr ⟨rfl, hd⟩

/-- The line that ends a REFRESH or a CONVERT comes after the conversion (R214, R217, R242). -/
theorem convOrDone_line {s : State} (h : Inv s) (hop : s.converts) : ConvOrDone (line s) := by
  by_cases hr : ∃ ok, s.ctl = .ret ok
  · obtain ⟨ok, hc⟩ := hr
    have e : line s = returnStep ok s := by simp [line, hc]
    rw [e]
    exact convOrDone_returnStep hop (h.converted hop (by simp [hc])) ok
  · by_cases hf : s.ctl = .finish
    · have e : line s = finishOp s := by simp [line, hf]
      rw [e]
      exact .inr ⟨rfl, h.converted hop (by simp [hf])⟩
    · have e := line_status (fun ok hc => hr ⟨ok, hc⟩) hf
      exact .inl (by simpa [State.converts, e] using hop)

theorem not_busy_of_none {s : State} (h : Inv s) (ho : s.status.op = .none) :
    s.status.busy = false := by
  by_contra hb
  exact h.busyOp.1 (by simpa using hb) ho

theorem convOrDone_micro {s : State} (h : Inv s) (hc : ConvOrDone s) : ConvOrDone (micro s) := by
  rcases hc with hop | ⟨ho, hd⟩
  · exact convOrDone_line h hop
  · have hidle := (idle_of_not_busy h.toBlockInv (not_busy_of_none h ho)).2
    have e : line s = s := by simp [line, hidle]
    unfold micro
    rw [e]
    exact .inr ⟨ho, hd⟩

theorem convOrDone_runOn {s : State} (h : Inv s) (hc : ConvOrDone s) : ConvOrDone (runOn s) :=
  (runOn_keeps (fun u => Inv u ∧ ConvOrDone u)
    (fun _ h _ => ⟨inv_micro h.1, convOrDone_micro h.1 h.2⟩) s ⟨h, hc⟩).2

/-- DONE = 1 is the end of the op. -/
theorem convDone_of_done {t : State} (h : Inv t) (hc : ConvOrDone t) (hd : t.status.done = true) :
    t.convDone := by
  rcases hc with hop | ⟨_, hc⟩
  · have hb : t.status.busy = true := h.busyOp.2 (by rcases hop with e | e <;> simp [e])
    simp [h.doneLate hb] at hd
  · exact hc

/-- A CONVERT written while no op runs is started (R220). -/
theorem exec_convert {s t : State} {v : Word} (hb : s.status.busy = false)
    (hv : v.extractLsb' 0 3 = 3) (he : exec (decodeCtrl v) s = .next t) : t = startConvertOp s := by
  have hrow : decodeCtrl v = .convert (v.extractLsb' 3 29) := by simp [decodeCtrl, hv]
  rw [hrow] at he
  injection he with he
  simpa [acceptCommand, hb] using he.symm

/-- CONVERT's own CTRL write: it starts the conversion, or leaves DONE = 0 with GEOM_ERR (R217). -/
theorem convOrDone_startConvertOp {s : State} (h : Inv s) (hb : s.status.busy = false)
    (hd : (startConvertOp s).status.done = true) : ConvOrDone (startConvertOp s) := by
  unfold startConvertOp at hd ⊢
  split_ifs at hd ⊢ with hg
  · exact convOrDone_runOn (inv_startConvert h hb (.inr rfl) hg) (.inl (.inr rfl))
  · simp [raiseError_abort, Status.setErr] at hd

theorem convOrDone_command {s t : State} {v : Word} (h : Inv s)
    (he : exec (decodeCtrl v) s = .next t)
    (hop : s.converts ∨ s.status.busy = false ∧ v.extractLsb' 0 3 = 3)
    (hd : t.status.done = true) : ConvOrDone t := by
  rcases hop with hop | ⟨hb, hv⟩
  · have hbusy : s.status.busy = true := h.busyOp.2 (by rcases hop with e | e <;> simp [e])
    rcases exec_decodeCtrl_cases he with rfl | ⟨w, rfl⟩ | ⟨hb, _⟩
    · exact .inl hop
    · exact .inl hop
    · simp [hb] at hbusy
  · obtain rfl := exec_convert hb hv he
    exact convOrDone_startConvertOp h hb hd

theorem hostAccess_op {s t : State} {x : HostAccess} (ha : hostAccess x s = .next t) :
    t.status.op = s.status.op := by
  rcases hostAccess_cases ha with ⟨_, _, rfl⟩ | ⟨_, rfl⟩ | ⟨_, _, _, _, _, rfl⟩ <;> rfl

/-- While REFRESH or CONVERT runs the sequencer decodes no entry. -/
theorem not_fetch_of_converts {s : State} (h : Inv s) (hop : s.converts) : s.ctl ≠ .fetch := by
  intro hc
  have hi := init_of_place h hc fun _ => rfl
  rcases hop with e | e <;> simp [hi] at e

/-- The step in which a REFRESH or a CONVERT ends with DONE leaves P = conv(B). -/
theorem step_convDone {s t : State} (h : Inv s) (hstep : step s = .next t)
    (hop : s.converts
      ∨ ∃ v rest, turn s = .command v rest ∧ s.status.busy = false ∧ v.extractLsb' 0 3 = 3)
    (hd : t.status.done = true) : t.convDone := by
  refine convDone_of_done (stepKeepsInvariant s t h hstep) ?_ hd
  have running : (∀ v rest, turn s ≠ .command v rest) → s.converts := fun hne =>
    hop.resolve_right fun ⟨v, rest, ht, _⟩ => hne v rest ht
  rcases step_cases hstep with ⟨_, rfl⟩ | ⟨v, rest, ht, he⟩ | ⟨x, rest, ht, ha⟩ | ⟨ht, rfl⟩
    | ⟨i, len, ht, _, _⟩ | ⟨e, ht, _, rfl⟩ | ⟨ht, he⟩ | ⟨ht, rfl⟩
  · simp [Status.reset] at hd
  · refine convOrDone_command (inv_takeAccess h rest) he (hop.imp id ?_) hd
    rintro ⟨v', rest', ht', hb, hv⟩
    rw [ht] at ht'
    injection ht' with e1 e2
    exact ⟨hb, e1 ▸ hv⟩
  · have e := hostAccess_op ha
    exact .inl (by simpa [State.converts, e] using running (by simp [ht]))
  · exact .inl (running (by simp [ht]))
  · exact absurd (turn_entry ht).1 (not_fetch_of_converts h (running (by simp [ht])))
  · exact absurd (turn_entry ht).1 (not_fetch_of_converts h (running (by simp [ht])))
  · have hc := (turn_wire ht).1
    rw [exec_decodeWire] at he
    injection he with he
    subst he
    exact convOrDone_runOn (inv_beginTxn (inv_wirePhase h hc s.framer.op) hc)
      (.inl (running (by simp [ht])))
  · have hconv := convOrDone_micro h (.inl (running (by simp [ht])))
    exact convOrDone_runOn (inv_micro h) hconv

/-- Settles O56: one lemma for what writes P, and one for what P is at the end. -/
theorem onlyTheConverterWritesThePackedBuffer :
    Obligations.OnlyTheConverterWritesThePackedBuffer :=
  fun _ _ h => ⟨step_packed h, fun hinv hop hd => step_convDone hinv h (or_assoc.2 hop) hd⟩

end Sys2Proof.Machine
end

section
/-! No rule reads the TE line (R39): every function of the machine does the same at either level of it and leaves
the level alone. -/

namespace Sys2Proof.Machine

/-- The state with the TE line at a level. -/
def State.setTe (b : Bool) (s : State) : State := { s with lines := { s.lines with te := b } }

/-- An outcome with the TE line of its next state at a level. -/
def setTeAfter (b : Bool) : Host.Outcome State Fault Refusal → Host.Outcome State Fault Refusal
  | .next t => .next (t.setTe b)
  | .fault f => .fault f
  | .refused r => .refused r

section
variable (b : Bool)

/-! ### The shared operations -/

theorem raiseError_setTe (k : ErrKind) (loc : Half) (opc : Byte) (s : State) :
    raiseError k loc opc (s.setTe b) = (raiseError k loc opc s).setTe b := by
  unfold raiseError
  split_ifs <;> rfl

theorem advanceTp_setTe (len : Nat) (s : State) :
    advanceTp len (s.setTe b) = (advanceTp len s).setTe b := by
  unfold advanceTp
  rw [apply_ite (State.setTe b)]
  rfl

theorem delayStep_setTe (s : State) : delayStep (s.setTe b) = (delayStep s).setTe b := by
  unfold delayStep
  rw [apply_ite (State.setTe b), ← advanceTp_setTe]
  rfl

theorem returnStep_setTe (ok : Bool) (s : State) :
    returnStep ok (s.setTe b) = (returnStep ok s).setTe b := by
  have hc : (s.setTe b).framer.caller = s.framer.caller := rfl
  cases ok with
  | false =>
    rw [returnStep_fail, returnStep_fail, ← raiseError_setTe, hc]
    rfl
  | true =>
    cases hcal : s.framer.caller with
    | entry =>
      rw [returnStep_entry _ (hc.trans hcal), returnStep_entry s hcal, ← advanceTp_setTe]
      rfl
    | refresh k =>
      rw [returnStep_refresh _ k (hc.trans hcal), returnStep_refresh s k hcal]
      split_ifs <;> rfl

theorem convertDone_setTe (s : State) : convertDone (s.setTe b) = (convertDone s).setTe b := by
  unfold convertDone
  rw [apply_ite (State.setTe b)]
  rfl

theorem convertStep_setTe (s : State) : convertStep (s.setTe b) = (convertStep s).setTe b := by
  unfold convertStep
  rw [apply_ite (State.setTe b), apply_ite (State.setTe b), ← convertDone_setTe, ← convertDone_setTe]
  rfl

theorem drawBus_setTe (next : TxnStage) (s : State) :
    drawBus next (s.setTe b) = (drawBus next s).setTe b := by
  have hd : (s.setTe b).draws = s.draws := rfl
  unfold drawBus
  rw [hd]
  split <;> rfl

theorem sendByte_setTe (s : State) : sendByte (s.setTe b) = (sendByte s).setTe b := by
  have hf : (s.setTe b).framer = s.framer := rfl
  unfold sendByte
  rw [hf]
  split <;> rfl

theorem txnStep_setTe (st : TxnStage) (s : State) :
    txnStep st (s.setTe b) = (txnStep st s).setTe b := by
  cases st with
  | opDraw => exact drawBus_setTe b _ s
  | plDraw => exact drawBus_setTe b _ s
  | payload => exact sendByte_setTe b s
  | _ => rfl

/-! ### The engine -/

theorem line_setTe (s : State) : line (s.setTe b) = (line s).setTe b := by
  have hc : (s.setTe b).ctl = s.ctl := rfl
  unfold line
  rw [hc]
  cases s.ctl with
  | delay => exact delayStep_setTe b s
  | advance len => exact advanceTp_setTe b len s
  | txn st => exact txnStep_setTe b st s
  | ret ok => exact returnStep_setTe b ok s
  | convert => exact convertStep_setTe b s
  | _ => rfl

theorem micro_setTe (s : State) : micro (s.setTe b) = (micro s).setTe b :=
  congrArg tick (line_setTe b s)

theorem runLines_setTe (n : Nat) :
    ∀ s : State, runLines n (s.setTe b) = (runLines n s).setTe b := by
  induction n with
  | zero => exact fun _ => rfl
  | succ n ih =>
    intro s
    have hm : mayRun (s.setTe b) = mayRun s := rfl
    simp only [runLines, hm, micro_setTe, ih]
    split_ifs <;> rfl

theorem runOn_setTe (s : State) : runOn (s.setTe b) = (runOn s).setTe b := runLines_setTe b _ s

/-! ### Instructions, host accesses and the step -/

theorem acceptCommand_setTe (v : Word) (allowed : Bool) (start : State → State) (s : State)
    (h : start (s.setTe b) = (start s).setTe b) :
    acceptCommand v allowed start (s.setTe b) = (acceptCommand v allowed start s).setTe b := by
  unfold acceptCommand
  rw [apply_ite (State.setTe b), h]
  rfl

theorem startInit_setTe (s : State) : startInit (s.setTe b) = (startInit s).setTe b := by
  unfold startInit
  rw [apply_ite (State.setTe b), ← raiseError_setTe]
  rfl

theorem startRefresh_setTe (s : State) : startRefresh (s.setTe b) = (startRefresh s).setTe b :=
  runOn_setTe b (startConvert { s with status := s.status.accepted .refresh })

theorem startConvertOp_setTe (s : State) :
    startConvertOp (s.setTe b) = (startConvertOp s).setTe b := by
  unfold startConvertOp
  rw [apply_ite (State.setTe b), ← raiseError_setTe, ← runOn_setTe]
  rfl

theorem driveReset_setTe (v : Bool) (s : State) :
    driveReset v (s.setTe b) = (driveReset v s).setTe b :=
  runOn_setTe b (tick { emit (.rst v) s with ctl := .advance 1 })

theorem sendTxn_setTe (op : Byte) (pl : List Byte) (s : State) :
    sendTxn op pl (s.setTe b) = (sendTxn op pl s).setTe b :=
  runOn_setTe b (beginTxn op pl s)

theorem tableError_setTe (opc : Byte) (s : State) :
    tableError opc (s.setTe b) = (tableError opc s).setTe b :=
  congrArg tick (raiseError_setTe b .tbl s.tp opc s)

theorem exec_setTe (i : Instr) (s : State) : exec i (s.setTe b) = setTeAfter b (exec i s) := by
  cases i with
  | cmd op pl => rfl
  | delay ms => rfl
  | rstLow => exact congrArg Host.Outcome.next (driveReset_setTe b false s)
  | rstHigh => exact congrArg Host.Outcome.next (driveReset_setTe b true s)
  | endEntry => rfl
  | reservedEntryLow h => exact congrArg Host.Outcome.next (tableError_setTe b h s)
  | reservedEntryHigh h => exact congrArg Host.Outcome.next (tableError_setTe b h s)
  | nop ign => rfl
  | init ign => exact congrArg Host.Outcome.next (acceptCommand_setTe b _ _ _ s (startInit_setTe b s))
  | refresh ign => exact congrArg Host.Outcome.next (acceptCommand_setTe b _ _ _ s (startRefresh_setTe b s))
  | convert ign => exact congrArg Host.Outcome.next (acceptCommand_setTe b _ _ _ s (startConvertOp_setTe b s))
  | reservedCtrl ign low => exact congrArg Host.Outcome.next (acceptCommand_setTe b _ _ (fun t => t) s rfl)
  | sleepOut pl =>
    exact congrArg Host.Outcome.next (sendTxn_setTe b 0x11 pl
      { s with phase := if s.framer.caller = .entry then .sleepout else s.phase })
  | displayOn pl => exact congrArg Host.Outcome.next (sendTxn_setTe b 0x29 pl s)
  | colAddrSet pl => exact congrArg Host.Outcome.next (sendTxn_setTe b 0x2A pl s)
  | rowAddrSet pl => exact congrArg Host.Outcome.next (sendTxn_setTe b 0x2B pl s)
  | memWrite pl => exact congrArg Host.Outcome.next (sendTxn_setTe b 0x2C pl s)
  | memAccessCtrl pl => exact congrArg Host.Outcome.next (sendTxn_setTe b 0x36 pl s)
  | pixelFormat pl => exact congrArg Host.Outcome.next (sendTxn_setTe b 0x3A pl s)
  | opaqueOp op pl => exact congrArg Host.Outcome.next (sendTxn_setTe b op pl s)

theorem writeRegister_setTe (off : Nat) (v : Word) (s : State) :
    writeRegister off v (s.setTe b) = (writeRegister off v s).setTe b := by
  unfold writeRegister
  split_ifs <;> rfl

theorem hostAccess_setTe (x : HostAccess) (s : State) :
    hostAccess x (s.setTe b) = setTeAfter b (hostAccess x s) := by
  cases x with
  | rd a =>
    have hr : readWord a (s.setTe b) = readWord a s := rfl
    simp only [hostAccess, hr]
    split <;> rfl
  | rdb a =>
    have hr : readByte a (s.setTe b) = readByte a s := rfl
    simp only [hostAccess, hr]
    split <;> rfl
  | poll a bit v =>
    have hr : readWord a (s.setTe b) = readWord a s := rfl
    simp only [hostAccess, hr]
    split <;> (try split_ifs) <;> rfl
  | wr a v =>
    simp only [hostAccess, writeWord, writeRegister_setTe]
    split <;> (try split_ifs) <;> rfl
  | wrb a v =>
    have hn : (s.setTe b).cfg = s.cfg := rfl
    simp only [hostAccess, writeByte, hn]
    split <;> (try split_ifs) <;> rfl

theorem step_setTe (s : State) : step (s.setTe b) = setTeAfter b (step s) := by
  have ht : turn (s.setTe b) = turn s := rfl
  have hf : fetchEntry (s.setTe b) = fetchEntry s := rfl
  unfold step
  rw [ht, hf]
  cases turn s with
  | command v rest => exact exec_setTe b _ (takeAccess rest s)
  | access x rest => exact hostAccess_setTe b x (takeAccess rest s)
  | entry =>
    cases fetchEntry s with
    | ok p => exact exec_setTe b p.1 s
    | error e => exact congrArg Host.Outcome.next (tableError_setTe b (decodeErrorOpc e) s)
  | wire => exact exec_setTe b _ s
  | block =>
    refine congrArg Host.Outcome.next ?_
    rw [micro_setTe, runOn_setTe]
  | _ => rfl

end

/-- Settles O52: the step commutes with setting the level of the TE line. -/
theorem tearingEnableIsNeverRead : Obligations.TearingEnableIsNeverRead := by
  intro s b
  have h := step_setTe b s
  cases hs : step s <;> rw [hs] at h <;> exact h

end Sys2Proof.Machine
end

section
/-! The registers as the host sees them: what an access returns (R25, R64) and where the fields stand in the words
(R27 to R33). -/

namespace Sys2Proof.Machine

/-! ### Register accesses -/

theorem readWord_register {a : Nat} (ha : a < 0x20) (h4 : a % 4 = 0) (s : State) :
    readWord a s = .next (readRegister a s) := by
  simp [readWord, regionOf_register a ha, h4]

theorem writeWord_register {a : Nat} (ha : a < 0x20) (h4 : a % 4 = 0) (v : Word) (s : State) :
    writeWord a v s = .next (writeRegister a v s) := by
  simp [writeWord, regionOf_register a ha, h4]

/-- Settles O37: a read records the register's word and a write outside CTRL and STATUS is dropped. -/
theorem registerAccesses : Obligations.RegisterAccesses := by
  intro s a v rest ha h4
  constructor
  · intro ht
    rw [step_access ht rfl]
    simp only [hostAccess, readWord_register ha h4]
    rfl
  · intro ht h0 hs
    rw [step_access ht (by simp [ctrlWrite, h0])]
    simp only [hostAccess, writeWord_register ha h4, writeRegister, if_neg hs]

/-! ### Fields of the words -/

theorem getLsbD_append_low {m n i : Nat} {x : BitVec m} {y : BitVec n} (h : i < n) :
    (x ++ y).getLsbD i = y.getLsbD i := by
  rw [BitVec.getLsbD_append, if_pos h]

theorem getLsbD_append_high {m n i : Nat} {x : BitVec m} {y : BitVec n} (h : n ≤ i) :
    (x ++ y).getLsbD i = x.getLsbD (i - n) := by
  rw [BitVec.getLsbD_append, if_neg (by omega)]

theorem status_word_fields (f : Status) :
    f.word.getLsbD 0 = f.busy ∧ f.word.getLsbD 1 = f.ready ∧ f.word.getLsbD 2 = f.done
      ∧ f.word.getLsbD 3 = false ∧ f.word.extractLsb' 4 2 = f.op.code
      ∧ f.word.extractLsb' 6 2 = 0 ∧ f.word.getLsbD 8 = f.geomErr ∧ f.word.getLsbD 9 = f.busErr
      ∧ f.word.getLsbD 10 = f.tblErr ∧ f.word.getLsbD 11 = f.cmdErr
      ∧ f.word.extractLsb' 12 20 = 0 := by
  unfold Status.word
  simp (disch := decide) only [getLsbD_append_low, getLsbD_append_high,
    BitVec.extractLsb'_append_eq_of_le, BitVec.extractLsb'_append_eq_of_add_le]
  simp

theorem errInfo_word_fields (e : ErrInfo) :
    e.word.extractLsb' 0 16 = e.loc ∧ e.word.extractLsb' 16 8 = e.opc
      ∧ e.word.extractLsb' 24 4 = 0 ∧ e.word.extractLsb' 28 4 = errCode e.code := by
  unfold ErrInfo.word
  simp (disch := decide) only [BitVec.extractLsb'_append_eq_of_le,
    BitVec.extractLsb'_append_eq_of_add_le]
  simp

theorem window_word_fields (w : Window) :
    w.word.extractLsb' 0 8 = w.cs0 ∧ w.word.extractLsb' 8 8 = w.ce0
      ∧ w.word.extractLsb' 16 8 = w.rs0 ∧ w.word.extractLsb' 24 8 = w.re0 := by
  unfold Window.word
  simp (disch := decide) only [BitVec.extractLsb'_append_eq_of_le,
    BitVec.extractLsb'_append_eq_of_add_le]
  simp

theorem phase_word_fields (p : Phase) :
    p.word.extractLsb' 0 4 = p.code ∧ p.word.extractLsb' 4 28 = 0 := by
  unfold Phase.word
  simp (disch := decide) only [BitVec.extractLsb'_append_eq_of_le,
    BitVec.extractLsb'_append_eq_of_add_le]
  simp

theorem tpWord_fields (tp : Half) :
    (tpWord tp).extractLsb' 0 16 = tp ∧ (tpWord tp).extractLsb' 16 16 = 0 := by
  unfold tpWord
  simp (disch := decide) only [BitVec.extractLsb'_append_eq_of_le,
    BitVec.extractLsb'_append_eq_of_add_le]
  simp

/-- W and H stand in GEOM modulo 2^16 (R32). -/
theorem geomWord_fields (c : Cfg) :
    (geomWord c).extractLsb' 0 16 = BitVec.ofNat 16 c.w
      ∧ (geomWord c).extractLsb' 16 16 = BitVec.ofNat 16 c.h := by
  unfold geomWord
  simp (disch := decide) only [BitVec.extractLsb'_append_eq_of_le,
    BitVec.extractLsb'_append_eq_of_add_le]
  simp

/-- Settles O38: one lemma for each word; the codes are the definitions' own. -/
theorem registerFields : Obligations.RegisterFields := by
  refine ⟨fun f e w p tp c => ?_, ⟨rfl, rfl, rfl, rfl⟩, ⟨rfl, rfl, rfl, rfl, rfl, rfl, rfl⟩,
    ⟨rfl, rfl, rfl, rfl, rfl⟩⟩
  obtain ⟨hw, hh⟩ := geomWord_fields c
  refine ⟨status_word_fields f, errInfo_word_fields e, window_word_fields w, phase_word_fields p,
    tpWord_fields tp, fun h => ?_, fun h => ?_⟩
  · rw [hw, BitVec.toNat_ofNat, Nat.mod_eq_of_lt h]
  · rw [hh, BitVec.toNat_ofNat, Nat.mod_eq_of_lt h]

end Sys2Proof.Machine
end

section
/-! An entry of the table from its fetch to the move of TP past it, with no input scheduled and an OK for each of
its write phases (R161 to R165), and what follows where it ends at address 65536 (log entry 9). -/

namespace Sys2Proof.Machine

/-! ### Steps of a quiet machine -/

theorem turn_of_fetch {s : State} (q : Quiet s) (hc : s.ctl = .fetch) : turn s = .entry := by
  simp [turn, resetDue_quiet s q, hostDue_quiet s q, blockTurn, hc, waiting]

theorem turn_of_present {s : State} (q : Quiet s) (hc : s.ctl = .present) : turn s = .wire := by
  simp [turn, resetDue_quiet s q, hostDue_quiet s q, blockTurn, hc, waiting]

theorem step_fetch_ok {s : State} (q : Quiet s) (hc : s.ctl = .fetch) {i : Instr} {len : Nat}
    (hf : fetchEntry s = .ok (i, len)) : step s = exec i s := by
  simp only [step, turn_of_fetch q hc, hf]

theorem step_fetch_error {s : State} (q : Quiet s) (hc : s.ctl = .fetch) {e : DecodeError}
    (hf : fetchEntry s = .error e) :
    step s = .next (raiseError .tbl s.tp (decodeErrorOpc e) s) := by
  simp only [step, turn_of_fetch q hc, hf, tableError_quiet _ s q]

theorem step_present {s : State} (q : Quiet s) (hc : s.ctl = .present) :
    step s = exec (decodeWire s.framer.op s.framer.pl) s := by
  simp only [step, turn_of_present q hc]

theorem Reaches.refl (s : State) : Reaches s s := ⟨0, core_run_zero s⟩

theorem Reaches.head {s t u : State} (h : step s = .next t) (hr : Reaches t u) : Reaches s u := by
  obtain ⟨k, hk⟩ := hr
  exact ⟨k + 1, (core_run_next k h).trans hk⟩

theorem Reaches.one {s t : State} (h : step s = .next t) : Reaches s t :=
  Reaches.head h (Reaches.refl t)

/-! ### The entries that TP moves past -/

/-- PHASE after an entry has begun (R167). -/
def phaseAfter (p : Phase) : Instr → Phase
  | .cmd op _ => nextPhase p op
  | _ => p

/-- The state in which an entry has done all but move TP: PHASE, its events on the trace and the lines, and its
answers taken; the framer and the delay counter hold what it left there. -/
def State.afterEntry (s : State) (i : Instr) (later : List Draw) (f : Framer) (n m : Nat)
    (c : Control) : State :=
  { s with
    phase := phaseAfter s.phase i
    framer := f
    delayCtr := n
    fresh := m
    lines := levelsAfter s.lines (entryEvents i)
    trace := s.trace ++ entryEvents i
    draws := later
    ctl := c }

theorem step_resetEntry {s : State} (q : Quiet s) (hc : s.ctl = .fetch) {v : Bool} {len : Nat}
    (hf : fetchEntry s = .ok (resetEntry v, len)) :
    step s = .next (advanceTp 1
      (s.afterEntry (resetEntry v) s.draws s.framer s.delayCtr s.fresh (.advance 1))) := by
  rw [step_fetch_ok q hc hf]
  have he : exec (resetEntry v) s = .next (driveReset v s) := by cases v <;> rfl
  rw [he, driveReset_quiet v s q]
  cases v <;> rfl

/-- A tick of the delay counter is a step (log entry 10). -/
theorem step_delay {s : State} (q : Quiet s) (hc : s.ctl = .delay) : step s = .next (delayStep s) := by
  have hq : Quiet (delayStep s) := by
    unfold delayStep
    split_ifs
    · simpa [Quiet] using q
    · exact q
  have hb : atBoundary (delayStep s) = true := by
    unfold delayStep
    split_ifs <;> simp [atBoundary, hc]
  have hm : micro s = delayStep s := by simp [micro, line, hc, tick_quiet _ hq]
  rw [step_block s q (by simp [hc]) (by simp [hc]) (by simp [hc]) (by simp [waiting, hc]), hm]
  exact congrArg Host.Outcome.next (runLines_boundary _ _ hb)

/-- A delay counts down and then moves TP on by three (R163, R257). -/
theorem delay_reaches (n : Nat) : ∀ s : State, Quiet s → s.ctl = .delay → s.delayCtr = n →
    Reaches s (advanceTp 3 { s with delayCtr := 0 }) := by
  induction n with
  | zero =>
    intro s q hc hn
    have e : delayStep s = advanceTp 3 { s with delayCtr := 0 } := by
      rw [delayStep, if_pos hn, ← hn]
    exact Reaches.one (e ▸ step_delay q hc)
  | succ n ih =>
    intro s q hc hn
    have e : delayStep s = { s with delayCtr := n } := by
      rw [delayStep, if_neg (by omega), hn, Nat.add_sub_cancel]
    exact Reaches.head (e ▸ step_delay q hc) (ih { s with delayCtr := n } q hc rfl)

theorem delayEntry_reaches {s : State} (q : Quiet s) (hc : s.ctl = .fetch) {ms : Half} {len : Nat}
    (hf : fetchEntry s = .ok (.delay ms, len)) :
    Reaches s (advanceTp 3
      (s.afterEntry (.delay ms) s.draws s.framer 0 (s.fresh + 1) .delay)) := by
  have hstep : step s = .next (startDelay ms s) := step_fetch_ok q hc hf
  obtain ⟨n, _, e⟩ := startDelay_spec ms s
  rw [e, tick_quiet _ (by exact q)] at hstep
  exact Reaches.head hstep (delay_reaches n _ q rfl rfl)

/-- With an OK for each write phase a transaction emits all its events and succeeds (R191, R192). -/
theorem txnSpec_ok (op : Byte) (pl : List Byte) (later : List Draw) :
    txnSpec op pl (List.replicate (txnPhases pl) .ok ++ later)
      = (okFrame op pl, true, txnPhases pl) := by
  unfold txnPhases txnSpec okFrame
  by_cases h : pl.length = 0
  · simp [h]
  · simp [h]

/-- A CMD entry's transaction with an OK for each write phase, and TP past the entry (R161, R162). -/
theorem sendTxn_entry_ok {s : State} (q : Quiet s) (hcal : s.framer.caller = .entry) (op : Byte)
    (pl : List Byte) {later : List Draw}
    (hd : s.draws = List.replicate (txnPhases pl) .ok ++ later) :
    sendTxn op pl s = advanceTp (2 + pl.length) { s with
      trace := s.trace ++ okFrame op pl
      lines := levelsAfter s.lines (okFrame op pl)
      framer := ⟨op, pl, pl.length, .entry⟩
      draws := later
      ctl := .ret true } := by
  have hspec : txnSpec op pl s.draws = (okFrame op pl, true, txnPhases pl) :=
    hd ▸ txnSpec_ok op pl later
  have hhead : s.draws.head? = some .ok := by
    rw [hd]
    unfold txnPhases
    split_ifs <;> rfl
  have hdrop : s.draws.drop (txnPhases pl) = later := by simp [hd]
  have hlen : (txnSpec op pl s.draws).2.2 ≤ s.draws.length := by
    rw [hspec]
    simp [hd]
  rw [sendTxn_spec op pl s q hlen, hspec]
  simp only [hhead, if_true, hdrop, hcal]
  exact returnStep_entry _ rfl

/-- Where PHASE has moved on before the transaction, SLEEP_OUT's own move changes nothing (R102, R167). -/
theorem sleepOut_nextPhase (p : Phase) (op : Byte) :
    (if op = 0x11 ∧ Caller.entry = .entry then .sleepout else nextPhase p op) = nextPhase p op := by
  split_ifs with h
  · rw [h.1]; rfl
  · rfl

/-- A CMD entry is two steps: it hands its transaction over, and the framer sends it (log entry 20). -/
theorem cmdEntry_reaches {s : State} (q : Quiet s) (hc : s.ctl = .fetch) {op : Byte}
    {pl : List Byte} {len : Nat} {later : List Draw} (hf : fetchEntry s = .ok (.cmd op pl, len))
    (hd : s.draws = List.replicate (txnPhases pl) .ok ++ later) :
    Reaches s (advanceTp (2 + pl.length) (s.afterEntry (.cmd op pl) later
      ⟨op, pl, pl.length, .entry⟩ s.delayCtr s.fresh (.ret true))) := by
  have hhand : step s
      = .next (handOver op pl .entry { s with phase := nextPhase s.phase op }) := by
    rw [step_fetch_ok q hc hf]
    exact congrArg Host.Outcome.next (tick_quiet _ q)
  have hsend : step (handOver op pl .entry { s with phase := nextPhase s.phase op })
      = .next (sendTxn op pl (handOver op pl .entry { s with phase := nextPhase s.phase op })) := by
    rw [step_present (by exact q) rfl, exec_decodeWire]
    exact congrArg (fun p => Host.Outcome.next (sendTxn op pl (handOver op pl .entry { s with phase := p })))
      (sleepOut_nextPhase s.phase op)
  rw [sendTxn_entry_ok (by exact q) rfl op pl (by exact hd)] at hsend
  exact Reaches.head hhand (Reaches.one hsend)

/-- An entry that TP moves past does so, in one step or more (R161 to R165). -/
theorem passedEntry_reaches {s : State} (q : Quiet s) (hc : s.ctl = .fetch) {i : Instr} {len : Nat}
    {later : List Draw} (hf : fetchEntry s = .ok (i, len)) (hp : passedEntry i = true)
    (hd : s.draws = List.replicate (entryPhases i) .ok ++ later) :
    ∃ f n m c, Reaches s (advanceTp len (s.afterEntry i later f n m c)) := by
  obtain rfl : len = entryLen i := fetchEntry_len hf
  rcases fetchEntry_row hf with ⟨op, pl, rfl⟩ | ⟨ms, rfl⟩ | rfl | rfl | rfl | ⟨h, rfl⟩ | ⟨h, rfl⟩
  · exact ⟨_, _, _, _, cmdEntry_reaches q hc hf hd⟩
  · obtain rfl : s.draws = later := hd
    exact ⟨_, _, _, _, delayEntry_reaches q hc hf⟩
  · obtain rfl : s.draws = later := hd
    exact ⟨_, _, _, _, Reaches.one (step_resetEntry (v := false) q hc hf)⟩
  · obtain rfl : s.draws = later := hd
    exact ⟨_, _, _, _, Reaches.one (step_resetEntry (v := true) q hc hf)⟩
  · simp [passedEntry] at hp
  · simp [passedEntry] at hp
  · simp [passedEntry] at hp

/-! ### Past the table's end -/

/-- Past address 65535 the next fetch raises TBL_ERR with OPC 0 and whatever TP reads as LOC (R243). -/
theorem step_ranOff {t : State} (q : Quiet t) (hc : t.ctl = .fetch) (hp : t.tpPast = true)
    (hop : t.status.op = .init) :
    step t = .next { t with
      status := { t.status with tblErr := true, busy := false, op := .none, ready := false }
      errinfo := ⟨some .tbl, 0, t.tp⟩
      phase := .fault
      ctl := .idle } := by
  have hf : fetchEntry t = .error .ranOff := by simp [fetchEntry, hp]
  rw [step_fetch_error q hc hf, raiseError_abort _ _ _ _ (by decide)]
  simp only [hop, if_true]
  rfl

theorem passedEntry_of_ne {s : State} {i : Instr} {len : Nat} (hf : fetchEntry s = .ok (i, len))
    (he : i ≠ .endEntry) (hl : ∀ h, i ≠ .reservedEntryLow h) (hh : ∀ h, i ≠ .reservedEntryHigh h) :
    passedEntry i = true := by
  rcases fetchEntry_row hf with ⟨op, pl, rfl⟩ | ⟨ms, rfl⟩ | rfl | rfl | rfl | ⟨h, rfl⟩ | ⟨h, rfl⟩
  · rfl
  · rfl
  · rfl
  · rfl
  · exact absurd rfl he
  · exact absurd rfl (hl h)
  · exact absurd rfl (hh h)

/-- Settles O36: the entry is passed, TP does not hold its end, and the next fetch finds the table at its end. -/
theorem fullTableWithoutEndRunsOff : Obligations.FullTableWithoutEndRunsOff := by
  intro s i len later q hc hop hf hend he hl hh hd
  obtain ⟨f, n, m, c, hreach⟩ := passedEntry_reaches q hc hf (passedEntry_of_ne hf he hl hh) hd
  rw [advanceTp_past len (s.afterEntry i later f n m c)
    (show ¬ s.tp.toNat + len < 65536 by omega)] at hreach
  exact ⟨_, _, hreach, rfl, step_ranOff q rfl rfl hop, rfl⟩

end Sys2Proof.Machine
end

section
/-! The windows and the reserved addresses as the host sees them (R65 to R67), and which accesses the host port
performs at all (R62). -/

namespace Sys2Proof.Machine

/-! ### Byte and word accesses, region by region -/

theorem readByte_bitmap {i : Nat} (hi : i < 65536) (s : State) :
    readByte (0x10000 + i) s = .next (if i < s.cfg.n then s.bitmapByte i else 0) := by
  simp only [readByte, regionOf_bitmap i hi]

theorem writeByte_bitmap {i : Nat} (hi : i < 65536) (v : Byte) (s : State) :
    writeByte (0x10000 + i) v s
      = .next (if i < s.cfg.n then { s with bitmap := s.bitmap.write i v } else s) := by
  simp only [writeByte, regionOf_bitmap i hi]

theorem readByte_packed {k : Nat} (hk : k < 65536) (s : State) :
    readByte (0x20000 + k) s = .next (if k < s.cfg.n then s.packedByte k else 0) := by
  simp only [readByte, regionOf_packed k hk]

theorem writeByte_packed {k : Nat} (hk : k < 65536) (v : Byte) (s : State) :
    writeByte (0x20000 + k) v s = .next s := by
  simp only [writeByte, regionOf_packed k hk]

/-- `B[i] <- v` and nothing else of B (R65). -/
theorem bitmapByte_write (s : State) (i j : Nat) (v : Byte) :
    ({ s with bitmap := s.bitmap.write i v } : State).bitmapByte j
      = if j = i then v else s.bitmapByte j := by
  simp only [State.bitmapByte, Memory.read_write]
  split_ifs <;> rfl

/-- Settles O40: by the window's read and write, and by what a write of the memory does to each byte. -/
theorem bitmapWindowAccesses : Obligations.BitmapWindowAccesses := by
  intro s i v rest hi
  constructor
  · intro ht
    rw [step_access ht rfl]
    simp only [hostAccess, writeByte_bitmap hi, takeAccess_cfg]
    by_cases hn : i < s.cfg.n
    · simp only [hn, and_true, if_true]
      exact ⟨_, rfl, fun j => bitmapByte_write (takeAccess rest s) i j v, rfl⟩
    · simp only [hn, and_false, if_false]
      exact ⟨_, rfl, fun _ => rfl, rfl⟩
  · intro ht
    rw [step_access ht rfl]
    simp only [hostAccess, readByte_bitmap hi]
    rfl

/-- Settles O41: by the window's read and write. -/
theorem packedWindowAccesses : Obligations.PackedWindowAccesses := by
  intro s k v rest hk
  constructor
  · intro ht
    rw [step_access ht rfl]
    simp only [hostAccess, readByte_packed hk]
    rfl
  · intro ht
    rw [step_access ht rfl]
    exact writeByte_packed hk v _

/-- Settles O42: the four accesses, each in the region of its first byte. -/
theorem reservedAddressesReadZero : Obligations.ReservedAddressesReadZero := by
  intro s a v b rest ha
  have hreg := regionOf_reserved a ha
  have h0 : a ≠ 0 := by omega
  refine ⟨fun ht => ?_, fun ht => ?_, fun ht => ?_, fun ht => ?_⟩
  · rw [step_access ht rfl]
    simp only [hostAccess, readWord, hreg]
    rfl
  · rw [step_access ht rfl]
    simp only [hostAccess, readByte, hreg]
    rfl
  · rw [step_access ht (if_neg h0)]
    simp only [hostAccess, writeWord, hreg]
  · rw [step_access ht rfl]
    simp only [hostAccess, writeByte, hreg]

/-! ### Which accesses are performed -/

/-- The regions of the host space with the accesses R62 admits in each (R61, R67). -/
theorem hostSpace_cases {a : Nat} (ha : a < 0x40000) :
    (regionOf a = some (.register a) ∧ ∀ byte, admittedAccess byte a = (!byte && a % 4 == 0))
      ∨ (((∃ i, regionOf a = some (.bitmap i)) ∨ ∃ k, regionOf a = some (.packed k))
          ∧ ∀ byte, admittedAccess byte a = byte)
      ∨ (regionOf a = some .reserved ∧ ∀ byte, admittedAccess byte a = true) := by
  unfold regionOf admittedAccess
  by_cases h1 : a < 0x20
  · exact .inl (by simp [h1])
  by_cases h2 : a < 0x10000
  · exact .inr (.inr (by simp [h1, h2, show ¬ 0x10000 ≤ a by omega]))
  by_cases h3 : a < 0x30000
  · refine .inr (.inl ⟨?_, by simp [h1, h3, show 0x10000 ≤ a by omega]⟩)
    by_cases h4 : a < 0x20000
    · exact .inl ⟨a - 0x10000, by simp only [h1, h2, h4, if_true, if_false]⟩
    · exact .inr ⟨a - 0x20000, by simp only [h1, h2, h3, h4, if_true, if_false]⟩
  · exact .inr (.inr (by simp [h1, h2, h3, ha, show ¬ a < 0x20000 by omega]))

/-- What comes of an access of the given width at an address of the host space: it is performed if R62 admits it
there, and refused otherwise. -/
def PerformedOrRefused {α : Type} (byte : Bool) (a : Nat) (o : Host.Outcome α Fault Refusal) : Prop :=
  (admittedAccess byte a = true ∧ ∃ r, o = .next r)
    ∨ (admittedAccess byte a = false ∧ o = .refused .hostAccessWidthOrAlignment)

theorem readWord_performedOrRefused {a : Nat} (ha : a < 0x40000) (s : State) :
    PerformedOrRefused false a (readWord a s) := by
  unfold PerformedOrRefused readWord
  rcases hostSpace_cases ha with ⟨hr, hm⟩ | ⟨⟨i, hr⟩ | ⟨k, hr⟩, hm⟩ | ⟨hr, hm⟩ <;> simp only [hr, hm]
  · by_cases h4 : a % 4 = 0 <;> simp [h4]
  · simp
  · simp
  · simp

theorem writeWord_performedOrRefused {a : Nat} (ha : a < 0x40000) (v : Word) (s : State) :
    PerformedOrRefused false a (writeWord a v s) := by
  unfold PerformedOrRefused writeWord
  rcases hostSpace_cases ha with ⟨hr, hm⟩ | ⟨⟨i, hr⟩ | ⟨k, hr⟩, hm⟩ | ⟨hr, hm⟩ <;> simp only [hr, hm]
  · by_cases h4 : a % 4 = 0 <;> simp [h4]
  · simp
  · simp
  · simp

theorem readByte_performedOrRefused {a : Nat} (ha : a < 0x40000) (s : State) :
    PerformedOrRefused true a (readByte a s) := by
  unfold PerformedOrRefused readByte
  rcases hostSpace_cases ha with ⟨hr, hm⟩ | ⟨⟨i, hr⟩ | ⟨k, hr⟩, hm⟩ | ⟨hr, hm⟩ <;> simp [hr, hm]

theorem writeByte_performedOrRefused {a : Nat} (ha : a < 0x40000) (v : Byte) (s : State) :
    PerformedOrRefused true a (writeByte a v s) := by
  unfold PerformedOrRefused writeByte
  rcases hostSpace_cases ha with ⟨hr, hm⟩ | ⟨⟨i, hr⟩ | ⟨k, hr⟩, hm⟩ | ⟨hr, hm⟩ <;> simp [hr, hm]

theorem hostAccess_performedOrRefused {x : HostAccess} (ha : x.addr < 0x40000) (s : State) :
    PerformedOrRefused x.isByte x.addr (hostAccess x s) := by
  cases x with
  | wr a v => exact writeWord_performedOrRefused ha v s
  | wrb a v => exact writeByte_performedOrRefused ha v s
  | rd a =>
    rcases readWord_performedOrRefused (a := a) ha s with ⟨hm, v, hv⟩ | ⟨hm, hv⟩ <;>
      simp only [hostAccess, hv]
    · exact .inl ⟨hm, _, rfl⟩
    · exact .inr ⟨hm, rfl⟩
  | rdb a =>
    rcases readByte_performedOrRefused (a := a) ha s with ⟨hm, v, hv⟩ | ⟨hm, hv⟩ <;>
      simp only [hostAccess, hv]
    · exact .inl ⟨hm, _, rfl⟩
    · exact .inr ⟨hm, rfl⟩
  | poll a bit b =>
    rcases readWord_performedOrRefused (a := a) ha s with ⟨hm, v, hv⟩ | ⟨hm, hv⟩ <;>
      simp only [hostAccess, hv]
    · by_cases hb : v.getLsbD bit = b
      · exact .inl ⟨hm, _, if_pos hb⟩
      · exact .inl ⟨hm, _, if_neg hb⟩
    · exact .inr ⟨hm, rfl⟩

/-- Every instruction has a next state in every state. -/
theorem exec_next (i : Instr) (s : State) : ∃ t, exec i s = .next t := by
  cases i <;> exact ⟨_, rfl⟩

/-- A CTRL write is the word write at address 0 (R26). -/
theorem ctrlWrite_eq_some {x : HostAccess} {v : Word} (h : ctrlWrite x = some v) : x = .wr 0 v := by
  cases x <;> simp [ctrlWrite] at h
  obtain ⟨rfl, rfl⟩ := h
  rfl

/-- On its turn an access to the host space is performed exactly if R62 admits it, a CTRL write always. -/
theorem step_performedOrRefused {s : State} {x : HostAccess} {rest : List HostReq}
    (ht : HostTurn s x rest) (ha : x.addr < 0x40000) :
    PerformedOrRefused x.isByte x.addr (step s) := by
  cases hc : ctrlWrite x with
  | none =>
    rw [step_access ht hc]
    exact hostAccess_performedOrRefused ha _
  | some v =>
    rw [step_command ht hc]
    obtain rfl := ctrlWrite_eq_some hc
    exact .inl ⟨rfl, exec_next _ _⟩

/-- Settles O43: each clause is one side of the alternative. -/
theorem otherWidthsTakeNoStep : Obligations.OtherWidthsTakeNoStep := by
  intro s x rest ht
  constructor
  · intro ha hm
    rcases step_performedOrRefused ht ha with ⟨hm', _⟩ | ⟨_, hs⟩
    · simp [hm] at hm'
    · exact hs
  · intro ha hm
    rcases step_performedOrRefused ht ha with ⟨_, hs⟩ | ⟨hm', _⟩
    · exact hs
    · simp [hm] at hm'

end Sys2Proof.Machine
end

section
/-! What every step of the block keeps: no event is taken back (R75, R252), nothing is answered, and no host access
leaves the queue (R70, R76). -/

namespace Sys2Proof.Machine

/-- The block has gone on from `s` to `t` by itself: the trace is extended at its end at most, nothing is answered,
and the queue of host accesses is the same but for the time of its head. -/
structure GoesOn (s t : State) : Prop where
  trace : s.trace <+: t.trace
  answers : t.answers = s.answers
  accesses : t.hostQ.map HostReq.access = s.hostQ.map HostReq.access
  behind : t.hostQ.tail = s.hostQ.tail

theorem GoesOn.trans {s t u : State} (h : GoesOn s t) (h' : GoesOn t u) : GoesOn s u :=
  ⟨h.trace.trans h'.trace, h'.answers.trans h.answers, h'.accesses.trans h.accesses,
    h'.behind.trans h.behind⟩

/-- An update of neither the queue nor the answers that emits `more`. -/
theorem goesOn_of_emits {s t : State} {more : List Event} (ht : t.trace = s.trace ++ more)
    (ha : t.answers = s.answers) (hq : t.hostQ = s.hostQ) : GoesOn s t :=
  ⟨⟨more, ht.symm⟩, ha, by rw [hq], by rw [hq]⟩

/-- The same without an event. -/
theorem goesOn_of_silent {s t : State} (ht : t.trace = s.trace) (ha : t.answers = s.answers)
    (hq : t.hostQ = s.hostQ) : GoesOn s t :=
  goesOn_of_emits (more := []) (by simp [ht]) ha hq

theorem GoesOn.refl (s : State) : GoesOn s s := goesOn_of_silent rfl rfl rfl

theorem goesOn_tick (s : State) : GoesOn s (tick s) := by
  refine ⟨List.prefix_rfl, rfl, ?_, ?_⟩ <;>
  · rw [tick_hostQ]
    cases s.hostQ <;> rfl

theorem GoesOn.tick {s t : State} (h : GoesOn s t) : GoesOn s (tick t) :=
  h.trans (goesOn_tick t)

/-! ### One line of the engine -/

theorem goesOn_raiseError (k : ErrKind) (loc : Half) (opc : Byte) (s : State) :
    GoesOn s (raiseError k loc opc s) :=
  goesOn_of_silent (by simp) (by simp) (by simp)

theorem goesOn_advanceTp (len : Nat) (s : State) : GoesOn s (advanceTp len s) :=
  goesOn_of_silent (by simp) (by simp) (by simp)

theorem goesOn_handRefresh (k : Fin 3) (s : State) : GoesOn s (handRefresh k s) :=
  goesOn_of_silent rfl rfl rfl

theorem goesOn_finishOp (s : State) : GoesOn s (finishOp s) :=
  goesOn_of_silent rfl rfl rfl

theorem goesOn_returnStep (ok : Bool) (s : State) : GoesOn s (returnStep ok s) := by
  unfold returnStep
  split
  · exact goesOn_advanceTp _ s
  · exact goesOn_handRefresh 1 s
  · exact goesOn_handRefresh 2 s
  · exact goesOn_finishOp s
  · exact goesOn_raiseError _ _ _ s
  · exact goesOn_raiseError _ _ _ s

theorem goesOn_convertDone (s : State) : GoesOn s (convertDone s) := by
  unfold convertDone
  split_ifs
  · exact goesOn_handRefresh 0 s
  · exact goesOn_of_silent rfl rfl rfl

theorem goesOn_convertStep (s : State) : GoesOn s (convertStep s) := by
  have hbyte : GoesOn s (convertByte s) := goesOn_of_silent rfl rfl rfl
  unfold convertStep
  split_ifs
  · exact hbyte
  · exact hbyte.trans (goesOn_convertDone _)
  · exact goesOn_convertDone s

theorem goesOn_drawBus (next : TxnStage) (s : State) : GoesOn s (drawBus next s) := by
  rcases drawBus_cases next s with ⟨_, e⟩ | ⟨ds, _, e⟩ | ⟨ds, _, e⟩ <;> rw [e]
  · exact GoesOn.refl s
  · exact goesOn_of_silent rfl rfl rfl
  · exact goesOn_of_emits (more := [.fail]) rfl rfl rfl

theorem goesOn_sendByte (s : State) : GoesOn s (sendByte s) := by
  unfold sendByte
  split
  · exact goesOn_of_silent rfl rfl rfl
  · next b _ => exact goesOn_of_emits (more := [.tx b]) rfl rfl rfl

theorem goesOn_txnStep (st : TxnStage) (s : State) : GoesOn s (txnStep st s) := by
  cases st with
  | command => exact goesOn_of_emits (more := [.dc false]) rfl rfl rfl
  | opcode => exact goesOn_of_emits (more := [.tx s.framer.op]) rfl rfl rfl
  | opDraw => exact goesOn_drawBus _ s
  | opDeselect => exact goesOn_of_emits (more := [.cs true]) rfl rfl rfl
  | dataMode => exact goesOn_of_emits (more := [.dc true]) rfl rfl rfl
  | dataSelect => exact goesOn_of_emits (more := [.cs false]) rfl rfl rfl
  | payload => exact goesOn_sendByte s
  | plDraw => exact goesOn_drawBus _ s
  | plDeselect => exact goesOn_of_emits (more := [.cs true]) rfl rfl rfl
  | failDeselect => exact goesOn_of_emits (more := [.cs true]) rfl rfl rfl

theorem goesOn_delayStep (s : State) : GoesOn s (delayStep s) := by
  unfold delayStep
  split_ifs
  · exact goesOn_advanceTp 3 s
  · exact goesOn_of_silent rfl rfl rfl

theorem goesOn_line (s : State) : GoesOn s (line s) := by
  unfold line
  cases s.ctl with
  | delay => exact goesOn_delayStep s
  | advance len => exact goesOn_advanceTp len s
  | txn st => exact goesOn_txnStep st s
  | ret ok => exact goesOn_returnStep ok s
  | convert => exact goesOn_convertStep s
  | finish => exact goesOn_finishOp s
  | _ => exact GoesOn.refl s

theorem goesOn_micro (s : State) : GoesOn s (micro s) :=
  (goesOn_line s).tick

/-- What comes before a run of micro-steps joins it. -/
theorem GoesOn.run {s t : State} (h : GoesOn s t) : GoesOn s (runOn t) :=
  runOn_keeps (GoesOn s) (fun u h _ => h.trans (goesOn_micro u)) t h

/-! ### Instructions -/

/-- A command, once its access is taken, emits and answers nothing but in the run it starts (R220). -/
theorem goesOn_command {s t : State} {v : Word} (he : exec (decodeCtrl v) s = .next t) :
    GoesOn s t := by
  rcases exec_decodeCtrl_cases he with rfl | ⟨w, rfl⟩ | ⟨_, rfl | ⟨_, _, rfl⟩ | ⟨_, rfl⟩⟩
  · exact GoesOn.refl _
  · exact goesOn_raiseError _ _ _ s
  · unfold startInit
    split_ifs
    · exact goesOn_of_silent rfl rfl rfl
    · exact goesOn_of_silent (by simp) (by simp) (by simp)
  · exact GoesOn.run (goesOn_of_silent rfl rfl rfl)
  · unfold startConvertOp
    split_ifs
    · exact GoesOn.run (goesOn_of_silent rfl rfl rfl)
    · exact goesOn_of_silent (by simp) (by simp) (by simp)

theorem goesOn_tableError (opc : Byte) (s : State) : GoesOn s (tableError opc s) :=
  (goesOn_raiseError .tbl s.tp opc s).tick

theorem goesOn_entry {s t : State} {i : Instr} {len : Nat} (hf : fetchEntry s = .ok (i, len))
    (he : exec i s = .next t) : GoesOn s t := by
  rcases exec_entry_cases hf he with
    ⟨op, pl, _, rfl⟩ | ⟨ms, _, rfl⟩ | ⟨v, _, rfl⟩ | ⟨_, rfl⟩ | ⟨h, rfl⟩
  · exact GoesOn.tick (goesOn_of_silent rfl rfl rfl)
  · exact GoesOn.tick (goesOn_of_emits (more := [.wait ms]) rfl rfl rfl)
  · exact GoesOn.run (GoesOn.tick (goesOn_of_emits (more := [.rst v]) rfl rfl rfl))
  · exact GoesOn.tick (goesOn_of_silent rfl rfl rfl)
  · exact goesOn_tableError h s

theorem goesOn_sendTxn (op : Byte) (pl : List Byte) (p : Phase) (s : State) :
    GoesOn s (sendTxn op pl { s with phase := p }) :=
  GoesOn.run (GoesOn.tick (goesOn_of_emits (more := [.cs false]) rfl rfl rfl))

/-- Every step but a block reset and a host access is the block going on, after a CTRL write has been taken from
the queue. -/
theorem step_goesOn {s t : State} (h : step s = .next t) :
    (turn s = .reset ∧ t = blockReset s)
      ∨ (∃ x rest, turn s = .access x rest ∧ hostAccess x (takeAccess rest s) = .next t)
      ∨ (∃ v rest, turn s = .command v rest ∧ GoesOn (takeAccess rest s) t)
      ∨ GoesOn s t := by
  rcases step_cases h with h | ⟨v, rest, ht, he⟩ | h | ⟨_, rfl⟩ | ⟨i, len, _, hf, he⟩ | ⟨e, _, _, rfl⟩
    | ⟨_, he⟩ | ⟨_, rfl⟩
  · exact .inl h
  · exact .inr (.inr (.inl ⟨v, rest, ht, goesOn_command he⟩))
  · exact .inr (.inl h)
  · exact .inr (.inr (.inr (GoesOn.refl _)))
  · exact .inr (.inr (.inr (goesOn_entry hf he)))
  · exact .inr (.inr (.inr (goesOn_tableError _ s)))
  · rw [exec_decodeWire] at he
    injection he with he
    exact .inr (.inr (.inr (he ▸ goesOn_sendTxn _ _ _ s)))
  · exact .inr (.inr (.inr (goesOn_micro s).run))

/-! ### The held access -/

/-- While an op runs an access to a window at the head of the queue is not due (R70). -/
theorem hostDue_of_held {s : State} {r : HostReq} {rest : List HostReq} (hq : s.hostQ = r :: rest)
    (hr : isBufferAccess r.access = true) (hb : s.status.busy = true) : hostDue s = false := by
  simp [hostDue, hq, held, hr, hb]

/-- The head keeps its place and its access while the block goes on. -/
theorem GoesOn.head {s t : State} (h : GoesOn s t) {r : HostReq} {rest : List HostReq}
    (hq : s.hostQ = r :: rest) : ∃ n, t.hostQ = ⟨n, r.access⟩ :: rest := by
  have hacc := h.accesses
  have htail := h.behind
  rw [hq] at hacc htail
  cases ht : t.hostQ with
  | nil => simp [ht] at hacc
  | cons r' rest' =>
    rw [ht] at hacc htail
    obtain rfl : rest' = rest := htail
    exact ⟨r'.after, by rw [← (List.cons.inj hacc).1]⟩

/-- Settles O45: with its head held the host has no turn, and the block leaves B, the answers and the queue. -/
theorem bufferAccessIsHeld : Obligations.BufferAccessIsHeld := by
  intro s t r rest hq hr hb hreset h
  have hdue : hostDue s = false := hostDue_of_held hq hr hb
  have noAccess : ∀ x rest', turn s ≠ .access x rest' := fun x rest' ht => by
    obtain ⟨⟨_, hd, _⟩, _⟩ := turn_access ht
    simp [hdue] at hd
  have noCommand : ∀ v rest', turn s ≠ .command v rest' := fun v rest' ht => by
    obtain ⟨_, hd, _⟩ := turn_command ht
    simp [hdue] at hd
  have hon : GoesOn s t := by
    rcases step_goesOn h with ⟨ht, _⟩ | ⟨x, rest', ht, _⟩ | ⟨v, rest', ht, _⟩ | hon
    · exact absurd ht hreset
    · exact absurd ht (noAccess x rest')
    · exact absurd ht (noCommand v rest')
    · exact hon
  have hsame : SameSource s t := by
    rcases step_sameSource h with ⟨ht, _⟩ | ⟨x, rest', ht, _⟩ | hsame
    · exact absurd ht hreset
    · exact absurd ht (noAccess x rest')
    · exact hsame
  exact ⟨hsame.bitmap, hon.answers, hon.head hq⟩

end Sys2Proof.Machine
end

section
/-! What each op adds to the trace, from step to step and whatever host accesses come in between: CONVERT nothing
(R217), REFRESH its whole frame (R214, R224), INIT the events of the table's entries in order (R161, R170, R251). -/

namespace Sys2Proof.Machine

/-! ### A step while an op runs -/

/-- `t` stands where `s` does: the same op at the same place, with the same trace, transaction, table and TP. -/
structure SamePlace (s t : State) : Prop where
  op : t.status.op = s.status.op
  ctl : t.ctl = s.ctl
  trace : t.trace = s.trace
  framer : t.framer = s.framer
  rom : t.rom = s.rom
  tp : t.tp = s.tp
  tpPast : t.tpPast = s.tpPast

theorem samePlace_hostAccess {s t : State} {x : HostAccess} {rest : List HostReq}
    (ha : hostAccess x (takeAccess rest s) = .next t) : SamePlace s t := by
  rcases hostAccess_cases ha with ⟨_, _, rfl⟩ | ⟨_, rfl⟩ | ⟨_, _, _, _, _, rfl⟩ <;>
    exact ⟨rfl, rfl, rfl, rfl, rfl, rfl, rfl⟩

/-- While an op runs a command is dropped or refused (R220). -/
theorem samePlace_command {s t : State} {v : Word} {rest : List HostReq}
    (hb : s.status.busy = true) (he : exec (decodeCtrl v) (takeAccess rest s) = .next t) :
    SamePlace s t := by
  rcases exec_decodeCtrl_cases he with rfl | ⟨w, rfl⟩ | ⟨hb', _⟩
  · exact ⟨rfl, rfl, rfl, rfl, rfl, rfl, rfl⟩
  · exact ⟨rfl, rfl, rfl, rfl, rfl, rfl, rfl⟩
  · simp [hb] at hb'

/-- Everything a step can be while an op runs, but for a block reset: the host's accesses leave the op where it is,
or the block goes on with an entry, a transaction or a line. -/
theorem step_running {s t : State} (h : Inv s) (hb : s.status.busy = true)
    (hreset : turn s ≠ .reset) (hstep : step s = .next t) :
    SamePlace s t
      ∨ (∃ i len, s.ctl = .fetch ∧ fetchEntry s = .ok (i, len) ∧ exec i s = .next t)
      ∨ (∃ opc, s.ctl = .fetch ∧ t = tableError opc s)
      ∨ (∃ p, s.ctl = .present ∧ Inv { s with phase := p }
          ∧ t = runOn (beginTxn s.framer.op s.framer.pl { s with phase := p }))
      ∨ t = runOn (micro s) := by
  rcases step_cases hstep with ⟨ht, _⟩ | ⟨v, rest, _, he⟩ | ⟨x, rest, _, ha⟩ | ⟨_, rfl⟩
    | ⟨i, len, ht, hf, he⟩ | ⟨e, ht, _, rfl⟩ | ⟨ht, he⟩ | ⟨_, rfl⟩
  · exact absurd ht hreset
  · exact .inl (samePlace_command hb he)
  · exact .inl (samePlace_hostAccess ha)
  · exact .inl ⟨rfl, rfl, rfl, rfl, rfl, rfl, rfl⟩
  · exact .inr (.inl ⟨i, len, (turn_entry ht).1, hf, he⟩)
  · exact .inr (.inr (.inl ⟨_, (turn_entry ht).1, rfl⟩))
  · have hc := (turn_wire ht).1
    rw [exec_decodeWire] at he
    injection he with he
    exact .inr (.inr (.inr (.inl ⟨_, hc, inv_wirePhase h hc s.framer.op, he.symm⟩)))
  · exact .inr (.inr (.inr (.inr rfl)))

/-! ### A run of lines inside an op -/

/-- The op `k` runs and `During` holds, or it has ended and `Ended` holds. -/
def OpRun (k : OpKind) (During Ended : State → Prop) (s : State) : Prop :=
  (s.status.op = k ∧ During s) ∨ (s.status.op = .none ∧ Ended s)

/-- Each line of the op `k` keeps `During` or ends the op with `Ended`, and neither reads the inputs. -/
structure LineKeeps (k : OpKind) (During Ended : State → Prop) : Prop where
  duringTick : ∀ s, During s → During (tick s)
  endedTick : ∀ s, Ended s → Ended (tick s)
  line : ∀ s, Inv s → s.status.op = k → During s → OpRun k During Ended (line s)

theorem opRun_micro {k : OpKind} {During Ended : State → Prop} (hk : LineKeeps k During Ended)
    {s : State} (h : Inv s) (hs : OpRun k During Ended s) : OpRun k During Ended (micro s) := by
  have hline : OpRun k During Ended (line s) := by
    rcases hs with ⟨hop, hd⟩ | ⟨hop, he⟩
    · exact hk.line s h hop hd
    · have hidle := (idle_of_not_busy h.toBlockInv (not_busy_of_none h hop)).2
      have e : line s = s := by simp [line, hidle]
      exact e.symm ▸ .inr ⟨hop, he⟩
  exact hline.imp (And.imp_right (hk.duringTick _)) (And.imp_right (hk.endedTick _))

theorem opRun_runOn {k : OpKind} {During Ended : State → Prop} (hk : LineKeeps k During Ended)
    {s : State} (h : Inv s) (hs : OpRun k During Ended s) : OpRun k During Ended (runOn s) :=
  (runOn_keeps (fun u => Inv u ∧ OpRun k During Ended u)
    (fun _ hu _ => ⟨inv_micro hu.1, opRun_micro hk hu.1 hu.2⟩) s ⟨h, hs⟩).2

/-- The block's own turn inside the op. -/
theorem opRun_block {k : OpKind} {During Ended : State → Prop} (hk : LineKeeps k During Ended)
    {s : State} (h : Inv s) (hs : OpRun k During Ended s) :
    OpRun k During Ended (runOn (micro s)) :=
  opRun_runOn hk (inv_micro h) (opRun_micro hk h hs)

theorem busy_of_op {s : State} (h : Inv s) {k : OpKind} (hop : s.status.op = k) (hk : k ≠ .none) :
    s.status.busy = true :=
  h.busyOp.2 (hop ▸ hk)

/-! ### CONVERT adds nothing -/

theorem convert_place {s : State} (h : Inv s) (hop : s.status.op = .convert) :
    s.ctl = .convert ∨ s.ctl = .finish := by
  have hp := h.place
  rw [hop] at hp
  cases hc : s.ctl with
  | convert => exact .inl rfl
  | finish => exact .inr rfl
  | present | txn _ | ret _ =>
    cases hcal : s.framer.caller <;> simp [hc, hcal, Control.runs] at hp
  | _ => simp [hc, Control.runs] at hp

theorem convertDone_trace (s : State) : (convertDone s).trace = s.trace := by
  unfold convertDone
  split_ifs <;> rfl

theorem convertStep_trace (s : State) : (convertStep s).trace = s.trace := by
  unfold convertStep
  split_ifs
  · rfl
  · exact convertDone_trace (convertByte s)
  · exact convertDone_trace s

theorem lineKeeps_convert (tr : List Event) :
    LineKeeps .convert (·.trace = tr) (·.trace = tr) where
  duringTick _ h := h
  endedTick _ h := h
  line s h hop htr := by
    rcases convert_place h hop with hc | hc
    · have e : line s = convertStep s := by simp [line, hc]
      rw [e]
      exact .inl ⟨(congrArg Status.op (convertStep_status s)).trans hop, (convertStep_trace s).trans htr⟩
    · have e : line s = finishOp s := by simp [line, hc]
      rw [e]
      exact .inr ⟨rfl, htr⟩

/-- In the run, or after it, the trace is what it was. -/
theorem OpRun.trace_eq {k : OpKind} {tr : List Event} {s : State}
    (h : OpRun k (·.trace = tr) (·.trace = tr) s) : s.trace = tr := by
  rcases h with ⟨_, e⟩ | ⟨_, e⟩ <;> exact e

theorem startConvertOp_trace {s : State} (h : Inv s) (hb : s.status.busy = false) :
    (startConvertOp s).trace = s.trace := by
  unfold startConvertOp
  split_ifs with hg
  · exact (opRun_runOn (lineKeeps_convert s.trace) (inv_startConvert h hb (.inr rfl) hg)
      (.inl ⟨rfl, rfl⟩)).trace_eq
  · simp

theorem step_convert_trace {s t : State} (h : Inv s) (hop : s.status.op = .convert)
    (hreset : turn s ≠ .reset) (hstep : step s = .next t) : t.trace = s.trace := by
  have hplace := convert_place h hop
  rcases step_running h (busy_of_op h hop (by decide)) hreset hstep with
    hsame | ⟨_, _, hc, _⟩ | ⟨_, hc, _⟩ | ⟨_, hc, _⟩ | rfl
  · exact hsame.trace
  · simp [hc] at hplace
  · simp [hc] at hplace
  · simp [hc] at hplace
  · exact (opRun_block (lineKeeps_convert s.trace) h (.inl ⟨hop, rfl⟩)).trace_eq

/-- CONVERT emits nothing, neither with its CTRL write nor later (R217). -/
theorem convert_emits_nothing {s t : State} (h : Inv s) (hreset : turn s ≠ .reset)
    (hstep : step s = .next t)
    (hc : s.status.op = .convert
      ∨ ∃ v rest, turn s = .command v rest ∧ s.status.busy = false ∧ v.extractLsb' 0 3 = 3) :
    t.trace = s.trace := by
  rcases hc with hop | ⟨v, rest, ht, hb, hv⟩
  · exact step_convert_trace h hop hreset hstep
  · rw [step_command (turn_command ht) rfl] at hstep
    obtain rfl := exec_convert (s := takeAccess rest s) hb hv hstep
    exact startConvertOp_trace (inv_takeAccess h rest) hb

/-! ### REFRESH sends the whole frame -/

/-- The trace ends with the column window, the row window and all of conv(B) (R214, R224). -/
def State.frameSent (s : State) : Prop :=
  ∃ before, s.trace = before
    ++ okFrame 0x2A [s.win.cs0, s.win.ce0]
    ++ okFrame 0x2B [s.win.rs0, s.win.re0]
    ++ okFrame 0x2C ((List.range s.cfg.n).map (convByte s.cfg s.bitmapByte))

theorem refresh_place {s : State} (h : Inv s) (hop : s.status.op = .refresh) :
    s.ctl = .convert ∨ (s.ctl.inTxn = true ∧ ∃ k, s.framer.caller = .refresh k) := by
  have hp := h.place
  rw [hop] at hp
  cases hc : s.ctl with
  | convert => exact .inl rfl
  | present | txn _ | ret _ =>
    cases hcal : s.framer.caller <;> simp [hc, hcal, Control.runs, Control.inTxn] at hp ⊢
  | _ => simp [hc, Control.runs] at hp

/-- Where the third transaction has returned, the whole frame is sent. -/
theorem frameSent_of_ret {s : State} (h : Inv s) (hop : s.status.op = .refresh)
    (hc : s.ctl = .ret true) (hcal : s.framer.caller = .refresh 2) : s.frameSent := by
  have hin : s.ctl.inTxn = true := by rw [hc]; rfl
  obtain ⟨before, htr⟩ := h.refreshTrace 2 hin hcal
  obtain ⟨hfo, hfp⟩ := h.refreshTxn 2 hin hcal
  have hpacked : s.packedBytes = (List.range s.cfg.n).map (convByte s.cfg s.bitmapByte) :=
    List.map_congr_left fun k hk =>
      h.converted (.inl hop) (by simp [hc]) k (List.mem_range.1 hk)
  have hopen : s.openEvents
      = okFrame 0x2C ((List.range s.cfg.n).map (convByte s.cfg s.bitmapByte)) := by
    rw [← hpacked]
    simp only [State.openEvents, hc, hfo, hfp]
    rfl
  refine ⟨before, ?_⟩
  rw [htr, hopen, State.framesBefore, ← List.append_assoc before]
  rfl

theorem lineKeeps_refresh :
    LineKeeps .refresh (fun _ => True) (fun s => s.status.done = true → s.frameSent) where
  duringTick _ h := h
  endedTick _ h := h
  line s h hop _ := by
    have hplace := refresh_place h hop
    have hdone : s.status.done = false := h.doneLate (busy_of_op h hop (by decide))
    by_cases hr : ∃ ok, s.ctl = .ret ok
    · obtain ⟨ok, hc⟩ := hr
      have e : line s = returnStep ok s := by simp [line, hc]
      rw [e]
      cases ok with
      | false =>
        rw [returnStep_fail, raiseError_abort _ _ _ _ (by decide)]
        exact .inr ⟨rfl, fun hd => by simp [hdone] at hd⟩
      | true =>
        obtain ⟨k, hcal⟩ : ∃ k, s.framer.caller = .refresh k :=
          (hplace.resolve_left (by simp [hc])).2
        rw [returnStep_refresh s k hcal]
        split_ifs with h0 h1
        · exact .inl ⟨hop, trivial⟩
        · exact .inl ⟨hop, trivial⟩
        · obtain rfl : k = 2 := by omega
          exact .inr ⟨rfl, fun _ => show s.frameSent from frameSent_of_ret h hop hc hcal⟩
    · have hf : s.ctl ≠ .finish := fun hc => by simp [hc, Control.inTxn] at hplace
      have e := line_status (fun ok hc => hr ⟨ok, hc⟩) hf
      exact .inl ⟨(congrArg Status.op e).trans hop, trivial⟩

/-- The step in which a REFRESH ends with DONE leaves the trace ending with the whole frame. -/
theorem step_frameSent {s t : State} (h : Inv s) (hreset : turn s ≠ .reset)
    (hstep : step s = .next t) (hop : s.status.op = .refresh) (hd : t.status.done = true) :
    t.frameSent := by
  have hfetch := not_fetch_of_converts h (.inl hop)
  have hrun : OpRun .refresh (fun _ => True) (fun u => u.status.done = true → u.frameSent) t := by
    rcases step_running h (busy_of_op h hop (by decide)) hreset hstep with
      hsame | ⟨_, _, hc, _⟩ | ⟨_, hc, _⟩ | ⟨p, hc, hp, rfl⟩ | rfl
    · exact .inl ⟨hsame.op.trans hop, trivial⟩
    · exact absurd hc hfetch
    · exact absurd hc hfetch
    · exact opRun_runOn lineKeeps_refresh (inv_beginTxn hp hc) (.inl ⟨hop, trivial⟩)
    · exact opRun_block lineKeeps_refresh h (.inl ⟨hop, trivial⟩)
  rcases hrun with ⟨hop', _⟩ | ⟨_, hsent⟩
  · have ht := stepKeepsInvariant s t h hstep
    simp [ht.doneLate (busy_of_op ht hop' (by decide))] at hd
  · exact hsent hd

/-! ### INIT emits the entries' events in order -/

/-- The trace of an INIT grows with what the entry under way has emitted more. -/
theorem initFrom_grow {s u : State} {before more : List Event} (h : s.initFrom before)
    (ht : u.trace = s.trace ++ more) (hopen : u.openEvents = s.openEvents ++ more)
    (h1 : u.rom = s.rom) (h2 : u.tp = s.tp) (h3 : u.tpPast = s.tpPast) : u.initFrom before := by
  obtain ⟨es, e, hr⟩ := h
  refine ⟨es, by rw [ht, hopen, e, List.append_assoc], ?_⟩
  unfold State.ranEntries
  rw [h1, h2, h3]
  exact hr

theorem SamePlace.initFrom {s t : State} (h : SamePlace s t) {before : List Event}
    (hs : s.initFrom before) : t.initFrom before := by
  have hopen : t.openEvents = s.openEvents := by
    simp only [State.openEvents, State.entryHere, fetchEntry, h.ctl, h.framer, h.rom, h.tp, h.tpPast]
  exact initFrom_grow (more := []) hs (by simp [h.trace]) (by simp [hopen]) h.rom h.tp h.tpPast

/-- An INIT whose entries' events follow `before` in the trace has ended: with READY at END, with BUS_ERR and the
failed transaction, or at an entry that raised TBL_ERR (R166, R242, R243, R251). -/
def State.initEnded (s : State) (before : List Event) : Prop :=
  ∃ es last, s.trace = before ++ es.flatMap entryEvents ++ last ∧ s.ranEntries es
    ∧ if s.status.ready = true then last = [] ∧ fetchEntry s = .ok (.endEntry, 1)
      else if s.errinfo.code = some .bus then
        last = s.framer.failed ++ [.cs true]
          ∧ fetchEntry s = .ok (.cmd s.framer.op s.framer.pl, 2 + s.framer.pl.length)
      else last = []

/-- A write phase of the CMD entry at TP has failed (R242, R251). -/
theorem initEnded_busError {s : State} (h : Inv s) (hop : s.status.op = .init)
    (hc : s.ctl = .ret false) {before : List Event} (hs : s.initFrom before)
    (hcal : s.framer.caller = .entry) (loc : Half) (opc : Byte) :
    (raiseError .bus loc opc s).initEnded before := by
  obtain ⟨es, e, hr⟩ := hs
  have hopen : s.openEvents = s.framer.failed ++ [.cs true] := by simp [State.openEvents, hc]
  have hf := h.entryTxn (by rw [hc]; rfl) hcal
  rw [raiseError_abort _ _ _ _ (by decide)]
  refine ⟨es, s.openEvents, e, hr, ?_⟩
  simp only [hop, if_true, Bool.false_eq_true, if_false]
  exact ⟨hopen, hf⟩

/-- The entry at TP is not one of the table (R161, R243, R251). -/
theorem initEnded_tableError {s : State} (hop : s.status.op = .init) (hc : s.ctl = .fetch)
    {before : List Event} (hs : s.initFrom before) (opc : Byte) :
    (tableError opc s).initEnded before := by
  obtain ⟨es, e, hr⟩ := hs
  have hopen : s.openEvents = [] := by simp [State.openEvents, hc]
  rw [hopen] at e
  unfold tableError
  rw [raiseError_abort _ _ _ _ (by decide)]
  refine ⟨es, [], e, hr, ?_⟩
  simp [hop]

/-- The entry at TP is END (R166). -/
theorem initEnded_end {s : State} (hc : s.ctl = .fetch) {before : List Event}
    (hs : s.initFrom before) {len : Nat} (hf : fetchEntry s = .ok (.endEntry, len)) :
    (tick { finishOp s with
      phase := .active, status := { s.status.completed with ready := true } }).initEnded before := by
  obtain ⟨es, e, hr⟩ := hs
  have hopen : s.openEvents = [] := by simp [State.openEvents, hc]
  rw [hopen] at e
  obtain rfl : len = 1 := fetchEntry_len hf
  exact ⟨es, [], e, hr, rfl, hf⟩

theorem lineKeeps_init (before : List Event) :
    LineKeeps .init (·.initFrom before) (·.initEnded before) where
  duringTick _ h := h
  endedTick _ h := h
  line s h hop hs := by
    have hp := h.place
    rw [hop] at hp
    unfold line
    cases hc : s.ctl with
    | idle => exact .inl ⟨hop, hs⟩
    | fetch => exact .inl ⟨hop, hs⟩
    | present => exact .inl ⟨hop, hs⟩
    | convert => simp [hc, Control.runs] at hp
    | finish => simp [hc, Control.runs] at hp
    | delay =>
      obtain ⟨ms, hf, _⟩ := h.delaying hc
      simp only [delayStep]
      split_ifs
      · refine .inl ⟨by simpa using hop, initFrom_advance hs hf rfl ?_⟩
        simp [State.openEvents, hc, State.entryHere, hf]
      · exact .inl ⟨hop, SamePlace.initFrom ⟨rfl, rfl, rfl, rfl, rfl, rfl, rfl⟩ hs⟩
    | advance len =>
      refine .inl ⟨by simpa using hop, ?_⟩
      rcases h.advancing len hc with hf | hf <;>
        exact initFrom_advance hs hf rfl (by simp [State.openEvents, hc, State.entryHere, hf])
    | txn st =>
      obtain ⟨more, n, c, ds, e, _, _, hopen⟩ := txnStep_spec hc h.counts
      refine .inl ⟨(congrArg Status.op (txnStep_status st s)).trans hop, ?_⟩
      rw [e] at hopen
      simp only [e]
      exact initFrom_grow hs rfl hopen rfl rfl rfl
    | ret ok =>
      have hcal : s.framer.caller = .entry := by
        by_contra hne
        simp [hc, hne, Control.runs] at hp
      cases ok with
      | false =>
        simp only [returnStep_fail]
        exact .inr ⟨by rw [raiseError_abort _ _ _ _ (by decide)],
          initEnded_busError h hop hc hs hcal _ _⟩
      | true =>
        simp only [returnStep_entry s hcal]
        exact .inl ⟨by simpa using hop, initFrom_advance hs (h.entryTxn (by rw [hc]; rfl) hcal) rfl
          (by simp [State.openEvents, hc, entryEvents])⟩

/-- A run that is about to move TP moves it, or is cut before. -/
theorem runOn_advance_cases {s : State} {len : Nat} (hc : s.ctl = .advance len) :
    runOn s = s ∨ runOn s = tick (advanceTp len s) := by
  have hm : micro s = tick (advanceTp len s) := by simp [micro, line, hc]
  unfold runOn lineBound
  rw [runLines]
  split_ifs
  · rw [hm]
    exact .inr (runLines_boundary _ _ (by simp [atBoundary]))
  · exact .inl rfl

/-- An entry begins, and runs to its end where it can (R162 to R166, R243). -/
theorem opRun_entry {s t : State} (hop : s.status.op = .init) (hc : s.ctl = .fetch)
    {before : List Event} (hs : s.initFrom before) {i : Instr} {len : Nat}
    (hf : fetchEntry s = .ok (i, len)) (he : exec i s = .next t) :
    OpRun .init (·.initFrom before) (·.initEnded before) t := by
  have hopen : s.openEvents = [] := by simp [State.openEvents, hc]
  have hhere : s.entryHere = entryEvents i := by simp [State.entryHere, hf]
  rcases exec_entry_cases hf he with
    ⟨op, pl, rfl, rfl⟩ | ⟨ms, rfl, rfl⟩ | ⟨v, rfl, rfl⟩ | ⟨rfl, rfl⟩ | ⟨opc, rfl⟩
  · exact .inl ⟨hop, initFrom_grow (more := []) hs (by simp) (by rw [hopen]; rfl) rfl rfl rfl⟩
  · exact .inl ⟨hop, initFrom_grow (more := [.wait ms]) hs rfl (by rw [hopen]; exact hhere)
      rfl rfl rfl⟩
  · obtain rfl : len = 1 := (fetchEntry_len hf).trans (by cases v <;> rfl)
    have hev : entryEvents (resetEntry v) = [.rst v] := by cases v <;> rfl
    have hpass : passedEntry (resetEntry v) = true := by cases v <;> rfl
    have hdriven : (tick { emit (.rst v) s with ctl := .advance 1 }).initFrom before :=
      initFrom_grow (more := [.rst v]) hs rfl (by rw [hopen]; exact hhere.trans hev) rfl rfl rfl
    unfold driveReset
    rcases runOn_advance_cases (s := tick { emit (.rst v) s with ctl := .advance 1 }) rfl with e | e
      <;> rw [e]
    · exact .inl ⟨hop, hdriven⟩
    · exact .inl ⟨by simpa using hop, initFrom_advance hdriven hf hpass hhere⟩
  · exact .inr ⟨rfl, initEnded_end hc hs hf⟩
  · exact .inr ⟨by simp [tableError, raiseError_abort], initEnded_tableError hop hc hs opc⟩

/-- A step of a running INIT keeps its events in order, or ends it. -/
theorem step_opRun_init {s t : State} (h : Inv s) (hreset : turn s ≠ .reset)
    (hstep : step s = .next t) (hop : s.status.op = .init) {before : List Event}
    (hs : s.initFrom before) : OpRun .init (·.initFrom before) (·.initEnded before) t := by
  rcases step_running h (busy_of_op h hop (by decide)) hreset hstep with
    hsame | ⟨i, len, hc, hf, he⟩ | ⟨opc, hc, rfl⟩ | ⟨p, hc, hp, rfl⟩ | rfl
  · exact .inl ⟨hsame.op.trans hop, hsame.initFrom hs⟩
  · exact opRun_entry hop hc hs hf he
  · exact .inr ⟨by simp [tableError, raiseError_abort], initEnded_tableError hop hc hs opc⟩
  · have hopen : s.openEvents = [] := by simp [State.openEvents, hc]
    refine opRun_runOn (lineKeeps_init before) (inv_beginTxn hp hc) (.inl ⟨hop, ?_⟩)
    exact initFrom_grow (more := [.cs false]) hs rfl (by rw [hopen]; rfl) rfl rfl rfl
  · exact opRun_block (lineKeeps_init before) h (.inl ⟨hop, hs⟩)

/-- INIT is accepted at address 0 with nothing emitted (R211). -/
theorem startInit_initFrom {s : State} (hg : s.cfg.geomOk = true) :
    (startInit s).initFrom s.trace := by
  simp only [startInit, hg, if_true]
  exact ⟨[], by simp [State.openEvents], 0, rfl, rfl⟩

/-- The one command that leaves INIT running is an INIT with a good geometry (R211, R220). -/
theorem command_init {s t : State} {v : Word} (h : Inv s) (hb : s.status.busy = false)
    (he : exec (decodeCtrl v) s = .next t) (hop : t.status.op = .init) :
    s.cfg.geomOk = true ∧ t = startInit s := by
  have hnone : s.status.op = .none := (idle_of_not_busy h.toBlockInv hb).1
  have noConvert : ∀ u : State, Inv u → u.converts → (runOn u).status.op ≠ .init := by
    intro u hu hc hi
    rcases convOrDone_runOn hu (.inl hc) with (e | e) | ⟨e, _⟩ <;> simp [hi] at e
  rcases exec_decodeCtrl_cases he with rfl | ⟨w, rfl⟩ | ⟨_, rfl | ⟨_, hr, rfl⟩ | ⟨_, rfl⟩⟩
  · simp [hnone] at hop
  · simp [cmdError_eq, hnone] at hop
  · by_cases hg : s.cfg.geomOk = true
    · exact ⟨hg, rfl⟩
    · simp [startInit, hg, raiseError_abort] at hop
  · exact absurd hop (noConvert _ (inv_startConvert h hb (.inl ⟨rfl, hr⟩) (h.readyGeom hr))
      (.inl rfl))
  · by_cases hg : s.cfg.geomOk = true
    · simp only [startConvertOp, hg, if_true] at hop
      exact absurd hop (noConvert _ (inv_startConvert h hb (.inr rfl) hg) (.inr rfl))
    · simp [startConvertOp, hg, raiseError_abort] at hop

/-- The step that starts an INIT is its acceptance. -/
theorem step_startsInit {s t : State} (h : Inv s) (hreset : turn s ≠ .reset)
    (hstep : step s = .next t) (hb : s.status.busy = false) (hop : t.status.op = .init) :
    t.initFrom s.trace := by
  obtain ⟨hnone, hidle⟩ := idle_of_not_busy h.toBlockInv hb
  rcases step_cases hstep with ⟨ht, _⟩ | ⟨v, rest, _, he⟩ | ⟨x, rest, _, ha⟩ | ⟨_, rfl⟩
    | ⟨i, len, ht, _, _⟩ | ⟨e, ht, _, _⟩ | ⟨ht, _⟩ | ⟨ht, _⟩
  · exact absurd ht hreset
  · obtain ⟨hg, rfl⟩ := command_init (inv_takeAccess h rest) hb he hop
    exact startInit_initFrom (s := takeAccess rest s) hg
  · simp [(samePlace_hostAccess ha).op, hnone] at hop
  · simp [hnone] at hop
  · simp [(turn_entry ht).1] at hidle
  · simp [(turn_entry ht).1] at hidle
  · simp [(turn_wire ht).1] at hidle
  · exact absurd hidle (turn_block ht).1

/-! ### The trace only grows -/

theorem step_trace_grows {s t : State} (hreset : turn s ≠ .reset) (hstep : step s = .next t) :
    ∃ more, t.trace = s.trace ++ more := by
  rcases step_goesOn hstep with ⟨ht, _⟩ | ⟨x, rest, _, ha⟩ | ⟨v, rest, _, hon⟩ | hon
  · exact absurd ht hreset
  · exact ⟨[], by simp [(samePlace_hostAccess ha).trace]⟩
  · obtain ⟨more, e⟩ := hon.trace
    exact ⟨more, e.symm⟩
  · obtain ⟨more, e⟩ := hon.trace
    exact ⟨more, e.symm⟩

/-- Settles O57: one theorem for each op, and one for all steps. -/
theorem traceOnlyGrows : Obligations.TraceOnlyGrows := by
  intro s t hreset hstep
  refine ⟨step_trace_grows hreset hstep, fun h hc => convert_emits_nothing h hreset hstep hc,
    fun h hop hd => step_frameSent h hreset hstep hop hd,
    fun h hb hop => step_startsInit h hreset hstep hb hop, fun h hop before hs => ?_⟩
  rcases step_opRun_init h hreset hstep hop hs with ⟨hop', hd⟩ | ⟨hop', he⟩
  · exact ⟨fun _ => hd, fun hne => absurd hop' hne⟩
  · exact ⟨fun hi => by simp [hop'] at hi, fun _ => he⟩

end Sys2Proof.Machine
end

section
/-! The table's decoder and its encoding (R91, R92): one equation for each kind of header byte, the round trip in both
directions, and where the decoder gives up. -/

namespace Sys2Proof

open Sys2Proof.Machine

/-! ### What the decoder makes of each header byte -/

/-- The header bytes of R91 and R97. -/
theorem header_cases (h : Byte) :
    h.toNat < 64 ∨ h = 0x40 ∨ h = 0x80 ∨ h = 0x81 ∨ h = 0xFF
      ∨ wellFormed (.reservedEntryLow h) = true ∨ wellFormed (.reservedEntryHigh h) = true := by
  simp only [wellFormed, Bool.and_eq_true, decide_eq_true_eq]
  bv_omega

theorem decodeEntry_cmd_noOpcode {h : Byte} (hh : h.toNat < 64) :
    decodeEntry [h] = .error (.truncated h) := by
  simp [decodeEntry, Nat.div_eq_of_lt hh]

theorem decodeEntry_cmd {h : Byte} (hh : h.toNat < 64) (op : Byte) (tail : List Byte) :
    decodeEntry (h :: op :: tail) =
      if tail.length < h.toNat then .error (.truncated h)
      else .ok (.cmd op (tail.take h.toNat), 2 + h.toNat) := by
  simp [decodeEntry, Nat.div_eq_of_lt hh, Nat.mod_eq_of_lt hh]

theorem decodeEntry_delay (hi lo : Byte) (rest : List Byte) :
    decodeEntry (0x40 :: hi :: lo :: rest) = .ok (.delay (hi ++ lo), 3) := rfl

theorem decodeEntry_delay_cutOff {rest : List Byte} (hr : rest.length < 2) :
    decodeEntry (0x40 :: rest) = .error (.truncated 0x40) := by
  match rest, hr with
  | [], _ => rfl
  | [_], _ => rfl

theorem decodeEntry_rstLow (rest : List Byte) : decodeEntry (0x80 :: rest) = .ok (.rstLow, 1) := rfl

theorem decodeEntry_rstHigh (rest : List Byte) : decodeEntry (0x81 :: rest) = .ok (.rstHigh, 1) := rfl

theorem decodeEntry_end (rest : List Byte) : decodeEntry (0xFF :: rest) = .ok (.endEntry, 1) := rfl

theorem decodeEntry_reservedLow {h : Byte} (hw : wellFormed (.reservedEntryLow h) = true)
    (rest : List Byte) : decodeEntry (h :: rest) = .ok (.reservedEntryLow h, 1) := by
  simp only [wellFormed, Bool.and_eq_true, decide_eq_true_eq] at hw
  simp only [decodeEntry]
  rw [if_neg (by omega), if_neg (by bv_omega), if_neg (by bv_omega), if_neg (by bv_omega),
    if_neg (by bv_omega), if_pos (by omega)]

theorem decodeEntry_reservedHigh {h : Byte} (hw : wellFormed (.reservedEntryHigh h) = true)
    (rest : List Byte) : decodeEntry (h :: rest) = .ok (.reservedEntryHigh h, 1) := by
  simp only [wellFormed, Bool.and_eq_true, decide_eq_true_eq] at hw
  simp only [decodeEntry]
  rw [if_neg (by omega), if_neg (by bv_omega), if_neg (by bv_omega), if_neg (by bv_omega),
    if_neg (by bv_omega), if_neg (by omega)]

/-! ### Entries and their bytes -/

theorem entryBytes_length (i : Instr) : (entryBytes i).length = entryLen i := by
  cases i with
  | cmd op pl => exact (Laws.EntryLength.cmd op pl).1
  | _ => rfl

/-- DELAY's milliseconds stand high byte first (R94). -/
theorem entryBytes_delay (hi lo : Byte) : entryBytes (.delay (hi ++ lo)) = [0x40, hi, lo] := by
  have hhi : (hi ++ lo).extractLsb' 8 8 = hi := BitVec.extractLsb'_append_eq_left
  have hlo : (hi ++ lo).extractLsb' 0 8 = lo := BitVec.extractLsb'_append_eq_right
  simp only [entryBytes, encode]
  rw [hhi, hlo]

/-- An entry at the head of the table's bytes decodes to itself, whatever follows it; the rows of the other two
formats have no bytes in the table. -/
theorem decodeEntry_entryBytes_append {i : Instr} (hw : wellFormed i = true) (he : 0 < entryLen i)
    (rest : List Byte) : decodeEntry (entryBytes i ++ rest) = .ok (i, entryLen i) := by
  cases i with
  | cmd op pl =>
    have hl : pl.length < 64 := Nat.lt_succ_of_le (by simpa [wellFormed] using hw)
    have hn : (BitVec.ofNat 8 pl.length).toNat = pl.length := by
      rw [BitVec.toNat_ofNat, Nat.mod_eq_of_lt (by omega)]
    simp [entryBytes, encode, decodeEntry_cmd (hn.trans_lt hl), hn, entryLen]
  | delay ms =>
    have hms : ms.extractLsb' 8 8 ++ ms.extractLsb' 0 8 = ms :=
      BitVec.extractLsb'_append_extractLsb' (w := 8) (len := 8)
    simpa [entryBytes, encode, entryLen, hms] using
      decodeEntry_delay (ms.extractLsb' 8 8) (ms.extractLsb' 0 8) rest
  | rstLow => exact decodeEntry_rstLow rest
  | rstHigh => exact decodeEntry_rstHigh rest
  | endEntry => exact decodeEntry_end rest
  | reservedEntryLow h => exact decodeEntry_reservedLow hw rest
  | reservedEntryHigh h => exact decodeEntry_reservedHigh hw rest
  | _ => simp [entryLen] at he

theorem decodeEntry_entryBytes {i : Instr} (hw : wellFormed i = true) (he : 0 < entryLen i) :
    decodeEntry (entryBytes i) = .ok (i, entryLen i) := by
  simpa using decodeEntry_entryBytes_append hw he []

/-- The entry with header `h` and the bytes `rest` after it extends past the table's end (R92, R243 cause b). -/
def CutOff (h : Byte) (rest : List Byte) : Prop :=
  (h.toNat < 64 ∧ rest.length + 1 < 2 + h.toNat) ∨ (h = 0x40 ∧ rest.length + 1 < 3)

theorem decodeEntry_of_cutOff {h : Byte} {rest : List Byte} (hc : CutOff h rest) :
    decodeEntry (h :: rest) = .error (.truncated h) := by
  obtain ⟨hh, hl⟩ | ⟨rfl, hl⟩ := hc
  · cases rest with
    | nil => exact decodeEntry_cmd_noOpcode hh
    | cons op tail =>
      rw [decodeEntry_cmd hh, if_pos (by simp only [List.length_cons] at hl; omega)]
  · exact decodeEntry_delay_cutOff (Nat.lt_of_succ_lt_succ hl)

/-- Bytes that are not cut off begin with the bytes of a well-formed entry (R91, R97). -/
theorem entryBytes_of_not_cutOff {h : Byte} {rest : List Byte} (hc : ¬ CutOff h rest) :
    ∃ i tail, wellFormed i = true ∧ 0 < entryLen i ∧ h :: rest = entryBytes i ++ tail := by
  simp only [CutOff, not_or, not_and, Nat.not_lt] at hc
  obtain ⟨hcmd, hdelay⟩ := hc
  rcases header_cases h with hh | rfl | rfl | rfl | rfl | hw | hw
  · obtain ⟨op, tail, rfl⟩ := List.exists_cons_of_length_pos (by have := hcmd hh; omega : 0 < rest.length)
    have hl : h.toNat ≤ tail.length := by
      have := hcmd hh
      simp only [List.length_cons] at this
      omega
    refine ⟨.cmd op (tail.take h.toNat), tail.drop h.toNat, ?_, by simp [entryLen], ?_⟩
    · simp [wellFormed]; omega
    · simp [entryBytes, encode, hl]
  · match rest, hdelay rfl with
    | hi :: lo :: tail, _ =>
      exact ⟨.delay (hi ++ lo), tail, rfl, by simp [entryLen], by rw [entryBytes_delay]; rfl⟩
  · exact ⟨.rstLow, rest, rfl, by simp [entryLen], rfl⟩
  · exact ⟨.rstHigh, rest, rfl, by simp [entryLen], rfl⟩
  · exact ⟨.endEntry, rest, rfl, by simp [entryLen], rfl⟩
  · exact ⟨.reservedEntryLow h, rest, hw, by simp [entryLen], rfl⟩
  · exact ⟨.reservedEntryHigh h, rest, hw, by simp [entryLen], rfl⟩

/-- Bytes that decode are those of a well-formed entry, followed by the rest of the table. -/
theorem bytes_of_decodeEntry {bs : List Byte} {i : Instr} {len : Nat}
    (hd : decodeEntry bs = .ok (i, len)) :
    wellFormed i = true ∧ len = entryLen i ∧ ∃ tail, bs = entryBytes i ++ tail := by
  cases bs with
  | nil => simp [decodeEntry] at hd
  | cons h rest =>
    by_cases hc : CutOff h rest
    · simp [decodeEntry_of_cutOff hc] at hd
    · obtain ⟨j, tail, hw, hpos, hbytes⟩ := entryBytes_of_not_cutOff hc
      rw [hbytes, decodeEntry_entryBytes_append hw hpos] at hd
      simp only [Except.ok.injEq, Prod.mk.injEq] at hd
      obtain ⟨rfl, rfl⟩ := hd
      exact ⟨hw, rfl, tail, hbytes⟩

/-- Settles O3: the bytes of the entry that was decoded stand at the head of those given. -/
theorem decodedEntryIsItsBytes : Obligations.DecodedEntryIsItsBytes := by
  intro bs i len hd
  obtain ⟨hw, rfl, tail, rfl⟩ := bytes_of_decodeEntry hd
  refine ⟨hw, rfl, ?_, List.take_left' (entryBytes_length i)⟩
  rw [List.length_append, entryBytes_length]
  exact Nat.le_add_right _ _

theorem decodeEntry_cons_eq_error_iff {h : Byte} {rest : List Byte} {e : DecodeError} :
    decodeEntry (h :: rest) = .error e ↔ e = .truncated h ∧ CutOff h rest := by
  by_cases hc : CutOff h rest
  · simp [decodeEntry_of_cutOff hc, hc, eq_comm]
  · obtain ⟨i, tail, hw, hpos, hbytes⟩ := entryBytes_of_not_cutOff hc
    simp [hbytes, decodeEntry_entryBytes_append hw hpos, hc]

/-- Settles O4: no bytes at all run out, and a header's entry is cut off or decodes. -/
theorem undecodableExactlyWhenCutOff : Obligations.UndecodableExactlyWhenCutOff := by
  intro bs
  cases bs with
  | nil => simp [decodeEntry]
  | cons h rest =>
    refine ⟨by simp [decodeEntry_cons_eq_error_iff], fun h' => ?_⟩
    rw [decodeEntry_cons_eq_error_iff, DecodeError.truncated.injEq, List.head?_cons, Option.some.injEq,
      eq_comm]
    refine and_congr_right fun he => ?_
    subst he
    rfl

/-! ### The CTRL word and the wire opcode -/

/-- The command's code is the low three bits of the CTRL word (R99). -/
theorem decodeCtrl_append (ign : BitVec 29) (c : BitVec 3) :
    decodeCtrl (ign ++ c) =
      if c = 0 then .nop ign else if c = 1 then .init ign else if c = 2 then .refresh ign
      else if c = 3 then .convert ign else .reservedCtrl ign (c.extractLsb' 0 2) := by
  have hcode : (ign ++ c).extractLsb' 0 3 = c := BitVec.extractLsb'_append_eq_right
  have hign : (ign ++ c).extractLsb' 3 29 = ign := BitVec.extractLsb'_append_eq_left
  have hlow : (ign ++ c).extractLsb' 0 2 = c.extractLsb' 0 2 :=
    BitVec.extractLsb'_append_eq_of_add_le (by decide)
  simp only [decodeCtrl]
  rw [hcode, hign, hlow]

theorem decodeCtrl_reserved (ign : BitVec 29) (low : BitVec 2) :
    decodeCtrl (ign ++ (1#1 ++ low)) = .reservedCtrl ign low := by
  have hcode : ∀ l : BitVec 2, (1#1 ++ l : BitVec 3) ≠ 0 ∧ (1#1 ++ l : BitVec 3) ≠ 1
      ∧ (1#1 ++ l : BitVec 3) ≠ 2 ∧ (1#1 ++ l : BitVec 3) ≠ 3 := by
    decide
  obtain ⟨h0, h1, h2, h3⟩ := hcode low
  rw [decodeCtrl_append, if_neg h0, if_neg h1, if_neg h2, if_neg h3, BitVec.extractLsb'_append_eq_right]

/-- An opcode that R100 does not name is OPAQUE. -/
theorem decodeWire_opaque {op : Byte} (hw : op ∉ namedOpcodes) (pl : List Byte) :
    decodeWire op pl = .opaqueOp op pl := by
  simp only [namedOpcodes, List.mem_cons, List.not_mem_nil, or_false, not_or] at hw
  simp only [decodeWire, hw, if_false]

/-! ### The three formats together -/

theorem decode_entry {bs : List Byte} {i : Instr} {len : Nat} (hd : decodeEntry bs = .ok (i, len)) :
    decode (.entry bs) = .ok i := by
  simp only [decode, hd]

theorem encode_eq_entry {i : Instr} (he : 0 < entryLen i) : encode i = .entry (entryBytes i) := by
  cases i <;> simp [entryLen] at he <;> rfl

/-- Settles O1: the rows of the table by their bytes, the commands by the fields of CTRL and the wire rows by their
opcode. -/
theorem decodeInvertsEncode : Obligations.DecodeInvertsEncode := by
  intro i hw
  have table (he : 0 < entryLen i) : decode (encode i) = .ok i := by
    rw [encode_eq_entry he]
    exact decode_entry (decodeEntry_entryBytes hw he)
  cases i with
  | cmd | delay | rstLow | rstHigh | endEntry | reservedEntryLow | reservedEntryHigh => 
    exact table (by simp [entryLen])
  | nop ign | init ign | refresh ign | convert ign =>
    exact congrArg Except.ok (decodeCtrl_append ign _)
  | reservedCtrl ign low => exact congrArg Except.ok (decodeCtrl_reserved ign low)
  | sleepOut | displayOn | colAddrSet | rowAddrSet | memWrite | memAccessCtrl | pixelFormat => rfl
  | opaqueOp op pl =>
    exact congrArg Except.ok (decodeWire_opaque (by simpa [wellFormed] using hw) pl)

/-- Settles O2: the entries by the round trip of the table's bytes, the other words by their fields. -/
theorem writtenWordsDecode : Obligations.WrittenWordsDecode :=
  ⟨decodeEntry_entryBytes (i := .cmd 0x36 [0x48]) rfl (by decide), decodeEntry_delay 0x00 0x78 [],
    decodeEntry_rstLow [], decodeEntry_rstHigh [], decodeEntry_end [], decodeEntry_reservedLow rfl [],
    decodeEntry_reservedHigh rfl [], decodeCtrl_append 1 1, rfl, decodeWire_opaque (by decide) _⟩

end Sys2Proof
end

section
/-! TBL_ERR at an entry that the table's decoder rejects or reads as a reserved header (R97, R243, R250, R251). -/

namespace Sys2Proof.Machine

/-- TBL_ERR while INIT runs: its record with LOC = TP, and the abort of INIT. -/
def State.initTblErr (opc : Byte) (s : State) : State :=
  { s with
    status := { s.status with tblErr := true, busy := false, op := .none, ready := false }
    errinfo := ⟨some .tbl, opc, s.tp⟩
    phase := .fault
    ctl := .idle }

theorem raiseError_tbl_init {s : State} (hop : s.status.op = .init) (opc : Byte) :
    raiseError .tbl s.tp opc s = s.initTblErr opc := by
  rw [raiseError_abort _ _ _ _ (by decide), if_pos hop, if_pos hop]
  rfl

theorem exec_reservedEntryLow (h : Byte) (s : State) :
    exec (.reservedEntryLow h) s = .next (tableError h s) := rfl

theorem exec_reservedEntryHigh (h : Byte) (s : State) :
    exec (.reservedEntryHigh h) s = .next (tableError h s) := rfl

/-- Settles O33: both rows raise the same error. -/
theorem reservedHeaderRaisesTblErr : Obligations.ReservedHeaderRaisesTblErr := by
  intro h s q hop
  rw [exec_reservedEntryLow, exec_reservedEntryHigh, tableError_quiet h s q, raiseError_tbl_init hop]
  exact ⟨rfl, rfl⟩

/-- Settles O34: the step raises TBL_ERR with the header that the decoder's error names. -/
theorem undecodableEntryRaisesTblErr : Obligations.UndecodableEntryRaisesTblErr := by
  intro e s q hc hop hf
  rw [step_fetch_error q hc hf, raiseError_tbl_init hop]
  cases e <;> rfl

end Sys2Proof.Machine
end

section
/-! Polls of a register (R105). -/

namespace Sys2Proof.Machine

theorem readRegister_takeAccess (a : Nat) (rest : List HostReq) (s : State) :
    readRegister a (takeAccess rest s) = readRegister a s := rfl

theorem hostAccess_poll_register {a : Nat} (ha : a < 0x20) (h4 : a % 4 = 0) (bit : Nat) (b : Bool)
    (s : State) :
    hostAccess (.poll a bit b) s = .next { s with
      hostQ := if (readRegister a s).getLsbD bit = b then s.hostQ else ⟨1, .poll a bit b⟩ :: s.hostQ
      answers := s.answers ++ [.word (readRegister a s)] } := by
  simp only [hostAccess, readWord_register ha h4]
  split_ifs <;> rfl

/-- Settles O44: the poll's turn is an access that reads the register. -/
theorem pollRepeatsUntilItsBit : Obligations.PollRepeatsUntilItsBit := by
  intro s a bit b rest ha h4 ht
  rw [step_access ht rfl, hostAccess_poll_register ha h4, readRegister_takeAccess]
  rfl

end Sys2Proof.Machine
end

section
/-! The converter bit by bit (R131 to R138). A byte of P is named by its column pair, band and half (R135), a bit of
it by its lane and element (R133); in these names the pixel that a bit carries is read off, and no two bits carry
the same one. -/

namespace Sys2Proof.Machine

theorem toNat_decide_odd (m : Nat) : (decide (m % 2 = 1)).toNat = m % 2 := by
  rcases Nat.mod_two_eq_zero_or_one m with h | h <;> simp [h]

theorem bool_toNat_injective : Function.Injective Bool.toNat :=
  Function.LeftInverse.injective Bool.ofNat_toNat

/-! ### The bits of the interleave -/

/-- Settles O8, element by element of the nibbles. -/
theorem interleavePlacesEveryBit : Obligations.InterleavePlacesEveryBit := by
  intro a c n hn
  match n, hn with
  | 0, _ | 1, _ | 2, _ | 3, _ =>
    simp only [il, BitVec.getLsbD_append]
    simp

/-- Settles O9, by computing both bytes. -/
theorem interleaveWorkedExamples : Obligations.InterleaveWorkedExamples := by
  unfold Obligations.InterleaveWorkedExamples
  decide

/-- The bit of an output byte that holds element `n` of the left or the right lane (R133). -/
def laneBit (right : Bool) (n : Nat) : Nat := 7 - 2 * n - right.toNat

theorem laneBit_lt (right : Bool) (n : Nat) : laneBit right n < 8 := by
  unfold laneBit
  omega

theorem exists_laneBit_eq {j : Nat} (hj : j < 8) : ∃ (right : Bool) (n : Nat), n < 4 ∧ laneBit right n = j := by
  refine ⟨decide ((7 - j) % 2 = 1), (7 - j) / 2, by omega, ?_⟩
  rw [laneBit, toNat_decide_odd]
  omega

theorem il_laneBit (a c : BitVec 4) (right : Bool) {n : Nat} (hn : n < 4) :
    (il a c).getLsbD (laneBit right n) = (if right then c else a).getLsbD n := by
  obtain ⟨left_bit, right_bit⟩ := interleavePlacesEveryBit a c n hn
  cases right with
  | false => exact left_bit
  | true => simpa [laneBit, Nat.sub_right_comm 7] using right_bit

/-- The half picks the nibble of both source bytes, the lane the byte (R132, R133). -/
theorem bandByte_laneBit (h : Bool) (b1 b2 : Byte) (right : Bool) {n : Nat} (hn : n < 4) :
    (bandByte h b1 b2).getLsbD (laneBit right n)
      = (if right then b2 else b1).getLsbD (4 * h.toNat + n) := by
  cases h <;> cases right <;> simp [bandByte, il_laneBit _ _ _ hn, hn]

/-! ### The bytes of P -/

theorem exists_dstIndex_eq {c : Cfg} (hg : c.geomOk = true) {k : Nat} (hk : k < c.n) :
    ∃ (t r : Nat) (h : Bool), t < c.ncp ∧ r < c.nb ∧ dstIndex c t r h = k := by
  obtain ⟨_, hnb, _, _, h4, hn, _⟩ := geomOk_numbers c hg
  have ht : k / (2 * c.nb) < c.ncp := by
    rw [Nat.div_lt_iff_lt_mul (by omega), ← hn]
    exact hk
  have hm : k % (2 * c.nb) < 2 * c.nb := Nat.mod_lt _ (by omega)
  refine ⟨k / (2 * c.nb), k % (2 * c.nb) / 2, decide (k % (2 * c.nb) % 2 = 1), ht, by omega, ?_⟩
  rw [dstIndex, h4, toNat_decide_odd, Nat.add_assoc, Nat.div_add_mod, Nat.div_add_mod']

/-! ### The pixel of a bit -/

theorem pixelOf_dstIndex {c : Cfg} (hg : c.geomOk = true) (t : Nat) {r n : Nat} (h right : Bool)
    (hr : r < c.nb) (hn : n < 4) :
    pixelOf c (dstIndex c t r h) (laneBit right n)
      = (2 * t + right.toNat, 8 * r + 4 * h.toNat + n) := by
  obtain ⟨hdiv, hmod⟩ := dstIndex_parts c hg t r h hr
  have hh := Bool.toNat_lt h
  have hright := Bool.toNat_lt right
  unfold pixelOf laneBit
  rw [hdiv, hmod, Prod.mk.injEq]
  omega

theorem convByte_laneBit {c : Cfg} (hg : c.geomOk = true) (b : Nat → Byte) (t : Nat) {r n : Nat}
    (h right : Bool) (hr : r < c.nb) (hn : n < 4) :
    (convByte c b (dstIndex c t r h)).getLsbD (laneBit right n)
      = pix c b (2 * t + right.toNat) (8 * r + 4 * h.toNat + n) := by
  have hh := Bool.toNat_lt h
  have hband : (8 * r + 4 * h.toNat + n) / 8 = r := by omega
  have hrow : (8 * r + 4 * h.toNat + n) % 8 = 4 * h.toNat + n := by omega
  rw [convByte_dstIndex c hg b t r h hr, bandByte_laneBit h _ _ right hn, pix, hband, hrow]
  cases right <;> rfl

/-- No two bits of P carry the same pixel (R138). -/
theorem pixelOf_injective {c : Cfg} (hg : c.geomOk = true) {k k' j j' : Nat} (hk : k < c.n) (hk' : k' < c.n)
    (hj : j < 8) (hj' : j' < 8) (heq : pixelOf c k j = pixelOf c k' j') : k = k' ∧ j = j' := by
  obtain ⟨t, r, h, _, hr, rfl⟩ := exists_dstIndex_eq hg hk
  obtain ⟨t', r', h', _, hr', rfl⟩ := exists_dstIndex_eq hg hk'
  obtain ⟨right, n, hn, rfl⟩ := exists_laneBit_eq hj
  obtain ⟨right', n', hn', rfl⟩ := exists_laneBit_eq hj'
  rw [pixelOf_dstIndex hg t h right hr hn, pixelOf_dstIndex hg t' h' right' hr' hn', Prod.mk.injEq] at heq
  obtain ⟨hx, hy⟩ := heq
  have hh := Bool.toNat_lt h
  have hh' := Bool.toNat_lt h'
  have hright := Bool.toNat_lt right
  have hright' := Bool.toNat_lt right'
  obtain rfl : t = t' := by omega
  obtain rfl : r = r' := by omega
  obtain rfl : n = n' := by omega
  obtain rfl : h = h' := bool_toNat_injective (by omega)
  obtain rfl : right = right' := bool_toNat_injective (by omega)
  exact ⟨rfl, rfl⟩

/-- Every pixel of the bitmap stands in a bit of P (R138). -/
theorem exists_pixelOf_eq {c : Cfg} (hg : c.geomOk = true) {x y : Nat} (hx : x < c.w) (hy : y < c.h) :
    ∃ k j : Nat, k < c.n ∧ j < 8 ∧ pixelOf c k j = (x, y) := by
  obtain ⟨_, _, hw, hh, _⟩ := geomOk_numbers c hg
  have hr : y / 8 < c.nb := by omega
  refine ⟨dstIndex c (x / 2) (y / 8) (decide (y / 4 % 2 = 1)), laneBit (decide (x % 2 = 1)) (y % 4),
    dstIndex_lt c hg _ _ _ (by omega) hr, laneBit_lt _ _, ?_⟩
  rw [pixelOf_dstIndex hg _ _ _ hr (by omega), toNat_decide_odd, toNat_decide_odd, Prod.mk.injEq]
  omega

/-- Settles O12: the closed form in the names of the bits, with one bit for each pixel. -/
theorem pixelMapIsABijection : Obligations.PixelMapIsABijection := by
  intro c hg
  constructor
  · intro b k j hk hj
    obtain ⟨_, _, hw, hh, _⟩ := geomOk_numbers c hg
    obtain ⟨t, r, h, ht, hr, rfl⟩ := exists_dstIndex_eq hg hk
    obtain ⟨right, n, hn, rfl⟩ := exists_laneBit_eq hj
    have hhalf := Bool.toNat_lt h
    have hright := Bool.toNat_lt right
    rw [pixelOf_dstIndex hg t h right hr hn]
    exact ⟨by omega, by omega, convByte_laneBit hg b t h right hr hn⟩
  · intro x y hx hy
    obtain ⟨k, j, hk, hj, hpix⟩ := exists_pixelOf_eq hg hx hy
    exact ⟨k, j, ⟨hk, hj, hpix⟩, fun k' j' hk' hj' hpix' =>
      pixelOf_injective hg hk' hk hj' hj (hpix'.trans hpix.symm)⟩

end Sys2Proof.Machine
end

section
/-! The frame-rate substitution in INIT_TABLE(cfg) (R172). -/

namespace Sys2Proof

theorem Cfg.frPair_of_frSel_eq_none {c : Cfg} (hsel : c.frSel = none) : c.frPair = none := by
  simp only [Cfg.frPair, hsel]

theorem Cfg.frPair_of_frSel_eq_some {c : Cfg} {k : Nat} (hsel : c.frSel = some k) :
    c.frPair = c.frOptions[k]? := by
  simp only [Cfg.frPair, hsel]

theorem Cfg.pmOpcode'_of_frPair_eq_none {c : Cfg} (hp : c.frPair = none) :
    c.pmOpcode' = c.pmOpcode := by
  simp only [Cfg.pmOpcode', hp]

theorem Cfg.pmOpcode'_of_frPair_eq_some {c : Cfg} {lp : Nat} {hp : List Nat}
    (h : c.frPair = some (lp, hp)) : c.pmOpcode' = lp := by
  simp only [Cfg.pmOpcode', h]

theorem Cfg.configEntries'_of_frPair_eq_none {c : Cfg} (hp : c.frPair = none) :
    c.configEntries' = c.configEntries := by
  simp only [Cfg.configEntries', hp]

theorem Cfg.configEntries'_of_frPair_eq_some {c : Cfg} {lp j : Nat} {hp : List Nat}
    (h : c.frPair = some (lp, hp)) (hj : c.frIndex = some j) :
    c.configEntries' = c.configEntries.modify j (CfgEntry.withPayload hp) := by
  simp only [Cfg.configEntries', h, hj]

/-- The payload of the CMD entry after `before` is replaced, and nothing else. -/
theorem modify_withPayload_append_cmd (hp pl : List Nat) (op : Nat) (before after : List CfgEntry) :
    (before ++ .cmd op pl :: after).modify before.length (CfgEntry.withPayload hp)
      = before ++ .cmd op hp :: after := by
  induction before with
  | nil => rfl
  | cons e before ih => simpa using ih

/-- The table depends on the selection through PM_OPCODE' and CONFIG_ENTRIES' alone (R160, R172). -/
theorem initTable_of_substituted (c : Cfg) {entries : List CfgEntry} {lp : Nat}
    (he : c.configEntries' = entries) (ho : c.pmOpcode' = lp) :
    initTable c = initTable { c with
      configEntries := entries, pmOpcode := lp, frOptions := [], frSel := none, frIndex := none } := by
  simp only [initTable, he, ho]
  rfl

/-- Settles O7: with no selection there is no pair, and the selected pair gives PM_OPCODE' and the payload. -/
theorem frameRateSubstitution : Obligations.FrameRateSubstitution := by
  intro c
  refine ⟨fun hsel => ?_, fun k lp op hp pl before after hsel hk hentries hj => ?_⟩
  · have hpair := Cfg.frPair_of_frSel_eq_none hsel
    exact ⟨Cfg.pmOpcode'_of_frPair_eq_none hpair, Cfg.configEntries'_of_frPair_eq_none hpair⟩
  · have hpair : c.frPair = some (lp, hp) := (Cfg.frPair_of_frSel_eq_some hsel).trans hk
    refine initTable_of_substituted c ?_ (Cfg.pmOpcode'_of_frPair_eq_some hpair)
    rw [Cfg.configEntries'_of_frPair_eq_some hpair hj, hentries, modify_withPayload_append_cmd]

end Sys2Proof
end

section
/-! What one entry of the table does in a state with no input scheduled (R162 to R166). -/

namespace Sys2Proof.Machine

/-- Whose turn it is when no input is due, and whose instruction it is (R161, R191). -/
theorem step_entry_turn {s : State} (hr : resetDue s = false) (hh : hostDue s = false)
    (hc : s.ctl = .fetch) {i : Instr} {len : Nat} (hf : fetchEntry s = .ok (i, len)) :
    step s = exec i s := by
  have ht : turn s = .entry := by simp [turn, hr, hh, blockTurn, hc, waiting]
  simp only [step, ht, hf]

theorem step_wire_turn {s : State} (hr : resetDue s = false) (hh : hostDue s = false)
    (hc : s.ctl = .present) : step s = exec (decodeWire s.framer.op s.framer.pl) s := by
  have ht : turn s = .wire := by simp [turn, hr, hh, blockTurn, hc, waiting]
  simp only [step, ht]

/-- Settles O48: one lemma for each of the three formats. -/
theorem stepRunsTheDecodedInstruction : Obligations.StepRunsTheDecodedInstruction :=
  ⟨fun _ _ _ hr hh hc hf => step_entry_turn hr hh hc hf, fun _ hr hh hc => step_wire_turn hr hh hc,
    fun _ _ _ ht => step_command ht rfl⟩

/-! ### RST_LOW, RST_HIGH and END -/

theorem exec_resetEntry (v : Bool) (s : State) : exec (resetEntry v) s = .next (driveReset v s) := by
  cases v <;> rfl

/-- A reset entry drives the line, and TP moves on by one byte (R164, R165). -/
theorem exec_resetEntry_quiet (v : Bool) {s : State} (q : Quiet s) (ht : s.tp.toNat + 1 < 65536) :
    exec (resetEntry v) s = .next { s with
      trace := s.trace ++ [.rst v]
      lines := { s.lines with rst := v }
      tp := BitVec.ofNat 16 (s.tp.toNat + 1)
      ctl := .fetch } := by
  rw [exec_resetEntry, driveReset_quiet v s q, advanceTp_fits 1 _ (by exact ht)]
  rfl

/-- Settles O27: both rows are reset entries. -/
theorem resetLineEntries : Obligations.ResetLineEntries :=
  ⟨⟨rfl, rfl⟩, fun _ q ht => ⟨exec_resetEntry_quiet false q ht, exec_resetEntry_quiet true q ht⟩⟩

theorem exec_endEntry_quiet {s : State} (q : Quiet s) :
    exec .endEntry s = .next { s with
      phase := .active
      status := { s.status with ready := true, done := true, op := .none, busy := false }
      ctl := .idle } :=
  congrArg Host.Outcome.next (tick_quiet _ (by exact q))

/-- Settles O32. -/
theorem endFinishesInitialisation : Obligations.EndFinishesInitialisation :=
  ⟨rfl, fun _ q => exec_endEntry_quiet q⟩

/-! ### DELAY -/

theorem exec_delay_quiet (ms : Half) {s : State} (q : Quiet s) :
    ∃ n, s.cfg.ticksPerMs * ms.toNat ≤ n
      ∧ exec (.delay ms) s = .next { s with
        trace := s.trace ++ [.wait ms]
        delayCtr := n
        fresh := s.fresh + 1
        ctl := .delay } := by
  obtain ⟨n, hn, e⟩ := startDelay_spec ms s
  rw [tick_quiet _ (by exact q)] at e
  exact ⟨n, hn, congrArg Host.Outcome.next e⟩

/-- Settles O28. -/
theorem delayEmitsItsWait : Obligations.DelayEmitsItsWait := fun ms _ q => exec_delay_quiet ms q

/-- Inside a delay each of the ticks left is a step that counts it (R163, R257). -/
theorem run_delay_ticks (k m : Nat) : ∀ s : State, Quiet s → s.ctl = .delay → k ≤ s.delayCtr →
    Sys2Proof.core.run (m + k) s
      = Sys2Proof.core.run m { s with delayCtr := s.delayCtr - k } := by
  induction k with
  | zero => intro s _ _ _; rfl
  | succ k ih =>
    intro s q hc hk
    have e : delayStep s = { s with delayCtr := s.delayCtr - 1 } := by
      rw [delayStep, if_neg (by omega)]
    rw [← Nat.add_assoc, core_run_next _ (e ▸ step_delay q hc),
      ih { s with delayCtr := s.delayCtr - 1 } q hc (Nat.le_sub_one_of_lt hk), Nat.sub_sub, Nat.add_comm 1 k]

/-- The step after the last tick moves TP on by three bytes (R163). -/
theorem step_delay_over {s : State} (q : Quiet s) (hc : s.ctl = .delay) (h0 : s.delayCtr = 0)
    (ht : s.tp.toNat + 3 < 65536) :
    step s = .next { s with tp := BitVec.ofNat 16 (s.tp.toNat + 3), ctl := .fetch } := by
  rw [step_delay q hc, delayStep, if_pos h0, advanceTp_fits 3 s ht]

/-- A delay from any place inside it: its ticks one by one, and then TP past the entry. -/
theorem run_delay {s : State} (q : Quiet s) (hc : s.ctl = .delay) (ht : s.tp.toNat + 3 < 65536) :
    (∀ k, k ≤ s.delayCtr → Sys2Proof.core.run k s = .next { s with delayCtr := s.delayCtr - k })
      ∧ Sys2Proof.core.run (s.delayCtr + 1) s = .next { s with
          delayCtr := 0
          tp := BitVec.ofNat 16 (s.tp.toNat + 3)
          ctl := .fetch } := by
  refine ⟨fun k hk => ?_, ?_⟩
  · have h := run_delay_ticks k 0 s q hc hk
    rwa [Nat.zero_add] at h
  · rw [Nat.add_comm, run_delay_ticks _ 1 s q hc le_rfl, Nat.sub_self]
    exact core_run_next 0 (step_delay_over (s := { s with delayCtr := 0 }) q hc rfl ht)

/-- Settles O29: the DELAY entry leads into a delay with its ticks. -/
theorem delayHoldsItsTicks : Obligations.DelayHoldsItsTicks := by
  refine ⟨fun ms s q ht => ?_, fun s k q hc ht => ?_⟩
  · obtain ⟨n, hn, he⟩ := exec_delay_quiet ms q
    obtain ⟨hold, move⟩ := run_delay (s := { s with
      trace := s.trace ++ [.wait ms], delayCtr := n, fresh := s.fresh + 1, ctl := .delay }) q rfl ht
    exact ⟨n, _, hn, he, hold, move⟩
  · obtain ⟨hold, move⟩ := run_delay q hc ht
    exact ⟨hold k, move⟩

/-! ### CMD -/

theorem exec_cmd_quiet (op : Byte) (pl : List Byte) {s : State} (q : Quiet s) :
    exec (.cmd op pl) s
      = .next (handOver op pl .entry { s with phase := nextPhase s.phase op }) :=
  congrArg Host.Outcome.next (tick_quiet _ (by exact q))

/-- Settles O30: the state handed over, with next_phase written out. -/
theorem cmdHandsOverItsTransaction : Obligations.CmdHandsOverItsTransaction :=
  fun op pl _ q => exec_cmd_quiet op pl q

/-- The transaction that a CMD entry has handed over is the next step; SLEEP_OUT's own PHASE is the one the entry
has set (R102, R191, log entry 13). -/
theorem step_handedOver {s : State} (q : Quiet s) (p : Phase) (op : Byte) (pl : List Byte) :
    step (handOver op pl .entry { s with phase := nextPhase p op })
      = .next (sendTxn op pl (handOver op pl .entry { s with phase := nextPhase p op })) := by
  rw [step_present (by exact q) rfl, exec_decodeWire]
  exact congrArg (fun p => Host.Outcome.next (sendTxn op pl (handOver op pl .entry { s with phase := p })))
    (sleepOut_nextPhase p op)

/-- A transaction that succeeds leaves the device deselected, in data mode (R195). -/
theorem levelsAfter_okFrame (l : Lines) (op : Byte) (pl : List Byte) :
    levelsAfter l (okFrame op pl) = { l with cs := true, dc := true } := by
  unfold okFrame
  split_ifs
  · rfl
  · simp only [levelsAfter_append, levelsAfter_tx]
    rfl

/-- Settles O31: the entry hands its transaction over, and the transaction succeeds and moves TP on. -/
theorem cmdEntryRuns : Obligations.CmdEntryRuns := by
  intro op pl len s later q hc hf hd ht
  have hhand := (step_fetch_ok q hc hf).trans (exec_cmd_quiet op pl q)
  have hsend := step_handedOver q s.phase op pl
  rw [sendTxn_entry_ok (by exact q) rfl op pl (by exact hd), advanceTp_fits _ _ (by exact ht)] at hsend
  simp only [handOver_lines, levelsAfter_okFrame] at hsend
  rw [core_run_next 1 hhand, core_run_next 0 hsend]
  rfl

end Sys2Proof.Machine
end

section
/-! Which steps set READY (R166, R168), and which way TP goes while an op runs (R22, R169). -/

namespace Sys2Proof.Machine

/-- From `s` to `t` READY is not set, TP does not come back from past the table, and where it has not gone there it
does not go down. -/
structure MovesOn (s t : State) : Prop where
  ready : t.status.ready = true → s.status.ready = true
  past : s.tpPast = true → t.tpPast = true
  tp : t.tpPast = false → s.tp.toNat ≤ t.tp.toNat

theorem MovesOn.trans {s t u : State} (h : MovesOn s t) (h' : MovesOn t u) : MovesOn s u where
  ready hu := h.ready (h'.ready hu)
  past hs := h'.past (h.past hs)
  tp hu := by
    have ht : t.tpPast = false := by
      by_contra hne
      simp [h'.past (by simpa using hne)] at hu
    exact (h.tp ht).trans (h'.tp hu)

/-- An update of neither READY nor TP. -/
theorem movesOn_of_same {s t : State} (hr : t.status.ready = s.status.ready) (htp : t.tp = s.tp)
    (hp : t.tpPast = s.tpPast) : MovesOn s t :=
  ⟨by simp [hr], by simp [hp], by simp [htp]⟩

theorem MovesOn.refl (s : State) : MovesOn s s := movesOn_of_same rfl rfl rfl

/-! ### One line of the engine -/

theorem movesOn_raiseError (k : ErrKind) (loc : Half) (opc : Byte) (s : State) :
    MovesOn s (raiseError k loc opc s) := by
  refine ⟨fun h => ?_, by simp, by simp⟩
  by_cases hk : k = .cmd
  · subst hk; exact h
  · rw [raiseError_abort _ _ _ _ hk] at h
    by_contra hne
    simp [hne] at h

theorem movesOn_advanceTp (len : Nat) (s : State) : MovesOn s (advanceTp len s) := by
  by_cases h : s.tp.toNat + len < 65536
  · rw [advanceTp_fits len s h]
    refine ⟨id, id, fun _ => ?_⟩
    simp only [BitVec.toNat_ofNat]
    omega
  · rw [advanceTp_past len s h]
    exact ⟨id, fun _ => rfl, nofun⟩

theorem movesOn_returnStep (ok : Bool) (s : State) : MovesOn s (returnStep ok s) := by
  unfold returnStep
  split
  · exact movesOn_advanceTp _ s
  · exact movesOn_of_same rfl rfl rfl
  · exact movesOn_of_same rfl rfl rfl
  · exact movesOn_of_same rfl rfl rfl
  · exact movesOn_raiseError _ _ _ s
  · exact movesOn_raiseError _ _ _ s

theorem movesOn_convertDone (s : State) : MovesOn s (convertDone s) := by
  unfold convertDone
  split_ifs <;> exact movesOn_of_same rfl rfl rfl

theorem movesOn_convertStep (s : State) : MovesOn s (convertStep s) := by
  have hbyte : MovesOn s (convertByte s) := movesOn_of_same rfl rfl rfl
  unfold convertStep
  split_ifs
  · exact hbyte
  · exact hbyte.trans (movesOn_convertDone _)
  · exact movesOn_convertDone s

theorem movesOn_drawBus (next : TxnStage) (s : State) : MovesOn s (drawBus next s) := by
  unfold drawBus
  split <;> exact movesOn_of_same rfl rfl rfl

theorem movesOn_sendByte (s : State) : MovesOn s (sendByte s) := by
  unfold sendByte
  split <;> exact movesOn_of_same rfl rfl rfl

theorem movesOn_txnStep (st : TxnStage) (s : State) : MovesOn s (txnStep st s) := by
  cases st with
  | opDraw => exact movesOn_drawBus _ s
  | plDraw => exact movesOn_drawBus _ s
  | payload => exact movesOn_sendByte s
  | _ => exact movesOn_of_same rfl rfl rfl

theorem movesOn_delayStep (s : State) : MovesOn s (delayStep s) := by
  unfold delayStep
  split_ifs
  · exact movesOn_advanceTp 3 s
  · exact movesOn_of_same rfl rfl rfl

theorem movesOn_line (s : State) : MovesOn s (line s) := by
  unfold line
  cases s.ctl with
  | delay => exact movesOn_delayStep s
  | advance len => exact movesOn_advanceTp len s
  | txn st => exact movesOn_txnStep st s
  | ret ok => exact movesOn_returnStep ok s
  | convert => exact movesOn_convertStep s
  | finish => exact movesOn_of_same rfl rfl rfl
  | _ => exact MovesOn.refl s

theorem movesOn_micro (s : State) : MovesOn s (micro s) :=
  (movesOn_line s).trans (movesOn_of_same rfl rfl rfl)

/-- What comes before a run of micro-steps joins it. -/
theorem MovesOn.run {s t : State} (h : MovesOn s t) : MovesOn s (runOn t) :=
  runOn_keeps (MovesOn s) (fun u h _ => h.trans (movesOn_micro u)) t h

/-! ### Instructions and host accesses -/

theorem startInit_ready (s : State) : (startInit s).status.ready = false := by
  unfold startInit
  split_ifs
  · rfl
  · simp [raiseError_abort]

/-- Of all commands only an INIT sets TP back, and it clears READY (R211, R220). -/
theorem movesOn_command {s t : State} {v : Word} (he : exec (decodeCtrl v) s = .next t) :
    MovesOn s t ∨ (s.status.busy = false ∧ t.status.ready = false) := by
  rcases exec_decodeCtrl_cases he with rfl | ⟨w, rfl⟩ | ⟨hb, rfl | ⟨_, _, rfl⟩ | ⟨_, rfl⟩⟩
  · exact .inl (MovesOn.refl _)
  · exact .inl (movesOn_raiseError ..)
  · exact .inr ⟨hb, startInit_ready s⟩
  · exact .inl (MovesOn.run (movesOn_of_same rfl rfl rfl))
  · unfold startConvertOp
    split_ifs
    · exact .inl (MovesOn.run (movesOn_of_same rfl rfl rfl))
    · have cleared : MovesOn s { s with status := { s.status with done := false } } :=
        movesOn_of_same rfl rfl rfl
      exact .inl (cleared.trans (movesOn_raiseError ..))

theorem movesOn_hostAccess {s t : State} {x : HostAccess} (h : hostAccess x s = .next t) :
    MovesOn s t := by
  rcases hostAccess_cases h with ⟨_, _, rfl⟩ | ⟨_, rfl⟩ | ⟨_, _, _, _, _, rfl⟩ <;>
    exact movesOn_of_same rfl rfl rfl

theorem movesOn_tableError (opc : Byte) (s : State) : MovesOn s (tableError opc s) :=
  (movesOn_raiseError .tbl s.tp opc s).trans (movesOn_of_same rfl rfl rfl)

/-- Of all entries only END sets READY, and it ends INIT (R166). -/
theorem movesOn_entry {s t : State} {i : Instr} {len : Nat} (hf : fetchEntry s = .ok (i, len))
    (he : exec i s = .next t) : MovesOn s t ∨ (i = .endEntry ∧ t.status.busy = false) := by
  rcases exec_entry_cases hf he with
    ⟨op, pl, _, rfl⟩ | ⟨ms, _, rfl⟩ | ⟨v, _, rfl⟩ | ⟨hi, rfl⟩ | ⟨h, rfl⟩
  · exact .inl (movesOn_of_same rfl rfl rfl)
  · exact .inl (movesOn_of_same rfl rfl rfl)
  · exact .inl (MovesOn.run (movesOn_of_same rfl rfl rfl))
  · exact .inr ⟨hi, rfl⟩
  · exact .inl (movesOn_tableError h s)

/-! ### The step -/

/-- Every step moves on but three: a block reset, the acceptance of an INIT, and END at TP. -/
theorem step_movesOn {s t : State} (h : step s = .next t) :
    MovesOn s t ∨ t = blockReset s ∨ (s.status.busy = false ∧ t.status.ready = false)
      ∨ (s.ctl = .fetch ∧ (∃ len, fetchEntry s = .ok (.endEntry, len)) ∧ t.status.busy = false) := by
  have taken (rest : List HostReq) : MovesOn s (takeAccess rest s) := movesOn_of_same rfl rfl rfl
  rcases step_cases h with ⟨_, e⟩ | ⟨v, rest, _, he⟩ | ⟨x, rest, _, ha⟩ | ⟨_, rfl⟩
    | ⟨i, len, ht, hf, he⟩ | ⟨e, _, _, rfl⟩ | ⟨_, he⟩ | ⟨_, rfl⟩
  · exact .inr (.inl e)
  · rcases movesOn_command he with hm | hinit
    · exact .inl ((taken rest).trans hm)
    · exact .inr (.inr (.inl hinit))
  · exact .inl ((taken rest).trans (movesOn_hostAccess ha))
  · exact .inl (MovesOn.refl _)
  · rcases movesOn_entry hf he with hm | ⟨rfl, hb⟩
    · exact .inl hm
    · exact .inr (.inr (.inr ⟨(turn_entry ht).1, ⟨len, hf⟩, hb⟩))
  · exact .inl (movesOn_tableError _ s)
  · rw [exec_decodeWire] at he
    injection he with he
    subst he
    exact .inl (MovesOn.run (movesOn_of_same rfl rfl rfl))
  · exact .inl (movesOn_micro s).run

/-- Settles O53: the three steps that do not move on begin or end with BUSY = 0. -/
theorem tablePointerOnlyGrows : Obligations.TablePointerOnlyGrows := by
  intro s t hb hstep hb' hp
  rcases step_movesOn hstep with hm | rfl | ⟨hb0, _⟩ | ⟨_, _, hb0⟩
  · exact hm.tp hp
  · simp [Status.reset] at hb'
  · simp [hb] at hb0
  · simp [hb'] at hb0

/-- Settles O54: a block reset and an INIT leave READY = 0, and END is the entry the statement names. -/
theorem onlyEndSetsReady : Obligations.OnlyEndSetsReady := by
  intro s t hstep hr ht
  rcases step_movesOn hstep with hm | rfl | ⟨_, hr0⟩ | ⟨hc, hend, _⟩
  · simp [hm.ready ht] at hr
  · simp [Status.reset] at ht
  · simp [ht] at hr0
  · exact ⟨hc, hend⟩

end Sys2Proof.Machine
end

section
/-! The entries of INIT_TABLE(cfg) in an admitted configuration (R10, R160). -/

namespace Sys2Proof

theorem Cfg.passes_of_admitted {c : Cfg} (h : c.admitted = true) (k : CfgCheck) : c.passes k = true :=
  List.all_eq_true.1 h k (mem_cfgChecks k)

theorem CfgEntry.withPayload_isCmdOrDelay (pl : List Nat) (e : CfgEntry) :
    (e.withPayload pl).isCmdOrDelay = e.isCmdOrDelay := by
  cases e <;> rfl

/-- The substitution leaves each entry's kind as it is (R172). -/
theorem Cfg.isCmdOrDelay_of_mem_configEntries' {c : Cfg} (h : c.passes .config = true) :
    ∀ e ∈ c.configEntries', e.isCmdOrDelay = true := by
  have hall : ∀ e ∈ c.configEntries, e.isCmdOrDelay = true := List.all_eq_true.1 h
  unfold Cfg.configEntries'
  split
  · intro e he
    obtain ⟨k, hk⟩ := List.mem_iff_getElem?.1 he
    rw [List.getElem?_modify, Option.map_eq_map, Option.map_eq_some_iff] at hk
    obtain ⟨e', hk, rfl⟩ := hk
    have he' := hall e' (List.mem_of_getElem? hk)
    split_ifs
    · rwa [CfgEntry.withPayload_isCmdOrDelay]
    · exact he'
  · exact hall

/-- The entries from CONFIG_ENTRIES to `display_on`'s command (R160). -/
def Cfg.middleEntries (c : Cfg) : List Instr :=
  c.configEntries'.map CfgEntry.instr
    ++ sleepOutThen c.tSleepout
    ++ [.cmd 0x36 (bytesOf c.madctlPl), .cmd 0x3A (bytesOf c.colmodPl)]
    ++ windowEntries (byteOf c.winCs0) (byteOf c.winCe0) (byteOf c.winRs0) (byteOf c.winRe0)
    ++ [.cmd (byteOf c.pmOpcode') (bytesOf c.pmPl), .cmd 0x29 []]

/-- The entries before `display_on`'s DELAY. -/
def Cfg.frontEntries (c : Cfg) : List Instr :=
  resetPulse c.tRstLow c.tRstSettle ++ c.middleEntries

/-- The milliseconds of `display_on`'s DELAY, the last entry before END. -/
def Cfg.lastDelay (c : Cfg) : Half := BitVec.ofNat 16 c.tDispon

theorem initTable_eq_append (c : Cfg) :
    initTable c = c.frontEntries ++ [.delay c.lastDelay] ++ [.endEntry] := by
  simp [initTable, Cfg.frontEntries, Cfg.middleEntries, Cfg.lastDelay, displayOnThen]

theorem Cfg.cmd_or_delay_of_mem_middleEntries {c : Cfg} (h : c.admitted = true) :
    ∀ i ∈ c.middleEntries, (∃ op pl, i = .cmd op pl) ∨ ∃ ms, i = .delay ms := by
  intro i hi
  simp only [Cfg.middleEntries, sleepOutThen, windowEntries, List.mem_append, List.mem_map,
    List.mem_cons, List.not_mem_nil, or_false] at hi
  rcases hi with (((⟨e, he, rfl⟩ | rfl | rfl) | rfl | rfl) | rfl | rfl) | rfl | rfl
  · have hkind := Cfg.isCmdOrDelay_of_mem_configEntries' (Cfg.passes_of_admitted h .config) e he
    rcases (CfgEntry.isCmdOrDelay_iff e).1 hkind with ⟨op, pl, rfl⟩ | ⟨ms, rfl⟩
    · exact .inl ⟨_, _, rfl⟩
    · exact .inr ⟨_, rfl⟩
  all_goals simp

end Sys2Proof
end

section
/-! INIT of an admitted configuration runs its whole table (R160, R161, R170): one entry after the other by
`passedEntry_reaches`, the last DELAY for what it leaves on the counter, and END. -/

namespace Sys2Proof.Machine

theorem core_run_succ_eq_next {k : Nat} {s u : State} (h : Sys2Proof.core.run (k + 1) s = .next u) :
    ∃ t, step s = .next t ∧ Sys2Proof.core.run k t = .next u := by
  cases hs : step s with
  | next t => exact ⟨t, rfl, (core_run_next k hs).symm.trans h⟩
  | fault _ | refused _ =>
    have hs' : Sys2Proof.core.step s = _ := hs
    have e := Host.Core.run.eq_2 Sys2Proof.core s k
    rw [hs'] at e
    exact nomatch e.symm.trans h

theorem Reaches.trans {s t u : State} (h : Reaches s t) (h' : Reaches t u) : Reaches s u := by
  obtain ⟨k, hk⟩ := h
  induction k generalizing s with
  | zero =>
    injection hk with hk
    exact hk ▸ h'
  | succ k ih =>
    obtain ⟨r, hr, hk⟩ := core_run_succ_eq_next hk
    exact Reaches.head hr (ih hk)

/-! ### A list of entries -/

theorem encodeTable_singleton (i : Instr) : encodeTable [i] = entryBytes i := by
  simp [encodeTable]

/-- The sequencer is about to decode at TP, with no input scheduled; there stand the entries `es` and then the bytes
`rest`, and TP holds the address after the entries. -/
structure AtEntries (s : State) (es : List Instr) (rest : List Byte) : Prop where
  quiet : Quiet s
  fetch : s.ctl = .fetch
  here : s.tpPast = false
  bytes : s.rom.drop s.tp.toNat = encodeTable es ++ rest
  fits : s.tp.toNat + (encodeTable es).length < 65536

theorem AtEntries.append_left {s : State} {es fs : List Instr} {rest : List Byte}
    (h : AtEntries s (es ++ fs) rest) : AtEntries s es (encodeTable fs ++ rest) := by
  obtain ⟨hq, hc, hp, hbytes, hfits⟩ := h
  rw [encodeTable_append] at hbytes hfits
  rw [List.length_append] at hfits
  exact ⟨hq, hc, hp, hbytes.trans (List.append_assoc ..), by omega⟩

theorem fetchEntry_of_bytes {s : State} (hp : s.tpPast = false) {i : Instr} {rest : List Byte}
    (hb : s.rom.drop s.tp.toNat = entryBytes i ++ rest) (hw : wellFormed i = true)
    (hl : 0 < entryLen i) : fetchEntry s = .ok (i, entryLen i) := by
  rw [fetchEntry, hp, hb, decodeEntry_entryBytes_append hw hl]
  rfl

theorem AtEntries.fetchEntry_head {s : State} {i : Instr} {es : List Instr} {rest : List Byte}
    (h : AtEntries s (i :: es) rest) (hw : wellFormed i = true) (hl : 0 < entryLen i) :
    fetchEntry s = .ok (i, entryLen i) :=
  fetchEntry_of_bytes h.here (h.bytes.trans (List.append_assoc ..)) hw hl

/-- The state in which the entries `es` have run and TP stands after them; PHASE, the framer, the delay counter and
the count of free values are what they left there. -/
def State.afterEntries (s : State) (es : List Instr) (later : List Draw) (p : Phase) (f : Framer)
    (n m : Nat) : State :=
  { s with
    phase := p
    tp := BitVec.ofNat 16 (s.tp.toNat + (encodeTable es).length)
    framer := f
    delayCtr := n
    fresh := m
    lines := levelsAfter s.lines (es.flatMap entryEvents)
    trace := s.trace ++ es.flatMap entryEvents
    draws := later
    ctl := .fetch }

theorem afterEntries_nil {s : State} (hc : s.ctl = .fetch) :
    s.afterEntries [] s.draws s.phase s.framer s.delayCtr s.fresh = s := by
  cases s
  obtain rfl := hc
  simp [State.afterEntries, encodeTable, levelsAfter]

theorem afterEntries_tp {s : State} {es : List Instr}
    (hfits : s.tp.toNat + (encodeTable es).length < 65536) (later : List Draw) (p : Phase)
    (f : Framer) (n m : Nat) :
    (s.afterEntries es later p f n m).tp.toNat = s.tp.toNat + (encodeTable es).length := by
  simp only [State.afterEntries, BitVec.toNat_ofNat]
  omega

/-- One list of entries after another. -/
theorem afterEntries_append {s : State} {es : List Instr}
    (hfits : s.tp.toNat + (encodeTable es).length < 65536) (fs : List Instr)
    (d later : List Draw) (p p' : Phase) (f f' : Framer) (n n' m m' : Nat) :
    (s.afterEntries es d p f n m).afterEntries fs later p' f' n' m'
      = s.afterEntries (es ++ fs) later p' f' n' m' := by
  have htp := afterEntries_tp hfits d p f n m
  rw [State.afterEntries, htp]
  simp [State.afterEntries, encodeTable_append, levelsAfter_append, Nat.add_assoc]

/-- After the first entries the others stand at TP. -/
theorem AtEntries.afterEntries {s : State} {es fs : List Instr} {rest : List Byte}
    (h : AtEntries s (es ++ fs) rest) (later : List Draw) (p : Phase) (f : Framer) (n m : Nat) :
    AtEntries (s.afterEntries es later p f n m) fs rest := by
  have htp := afterEntries_tp h.append_left.fits later p f n m
  obtain ⟨hq, _, hp, hbytes, hfits⟩ := h
  rw [encodeTable_append, List.length_append] at hfits
  refine ⟨hq, rfl, hp, ?_, by omega⟩
  rw [htp, ← List.drop_drop]
  exact (congrArg (List.drop _) hbytes).trans (by simp [encodeTable_append])

/-- TP moves past an entry that has done all else. -/
theorem advanceTp_afterEntry {s : State} {i : Instr}
    (hfits : s.tp.toNat + (encodeTable [i]).length < 65536) (later : List Draw) (f : Framer)
    (n m : Nat) (c : Control) :
    advanceTp (entryLen i) (s.afterEntry i later f n m c)
      = s.afterEntries [i] later (phaseAfter s.phase i) f n m := by
  rw [encodeTable_singleton, entryBytes_length] at hfits
  rw [advanceTp_fits _ _ (by exact hfits)]
  simp [State.afterEntry, State.afterEntries, encodeTable_singleton, entryBytes_length]

theorem entryLen_pos_of_passedEntry {i : Instr} (h : passedEntry i = true) : 0 < entryLen i := by
  cases i <;> simp_all [passedEntry, entryLen]

/-- Entries that TP moves past run one after the other, each with its events (R161). -/
theorem entries_reach {es : List Instr} (hw : ∀ i ∈ es, wellFormed i = true)
    (hpass : ∀ i ∈ es, passedEntry i = true) {later : List Draw} {rest : List Byte} :
    ∀ {s : State}, AtEntries s es rest →
      s.draws = List.replicate (es.map entryPhases).sum .ok ++ later →
      ∃ p f n m, Reaches s (s.afterEntries es later p f n m) := by
  induction es with
  | nil =>
    intro s h hd
    obtain rfl : s.draws = later := hd
    refine ⟨s.phase, s.framer, s.delayCtr, s.fresh, ?_⟩
    rw [afterEntries_nil h.fetch]
    exact Reaches.refl s
  | cons i es ih =>
    intro s h hd
    obtain ⟨hwi, hwes⟩ := List.forall_mem_cons.1 hw
    obtain ⟨hi, hes⟩ := List.forall_mem_cons.1 hpass
    rw [List.map_cons, List.sum_cons, List.replicate_add, List.append_assoc] at hd
    have hhead : AtEntries s ([i] ++ es) rest := h
    have hfits := hhead.append_left.fits
    obtain ⟨f, n, m, c, hfirst⟩ := passedEntry_reaches h.quiet h.fetch
      (h.fetchEntry_head hwi (entryLen_pos_of_passedEntry hi)) hi hd
    rw [advanceTp_afterEntry hfits] at hfirst
    obtain ⟨p, f', n', m', hothers⟩ := ih hwes hes (hhead.afterEntries ..) rfl
    rw [afterEntries_append hfits] at hothers
    exact ⟨p, f', n', m', hfirst.trans hothers⟩

/-- A DELAY leaves no tick on the counter (R163). -/
theorem delayEntry_reaches_afterEntries {s : State} {ms : Half} {rest : List Byte}
    (h : AtEntries s [.delay ms] rest) :
    Reaches s (s.afterEntries [.delay ms] s.draws s.phase s.framer 0 (s.fresh + 1)) := by
  have hf : fetchEntry s = .ok (.delay ms, 3) := h.fetchEntry_head rfl (Nat.succ_pos 2)
  exact advanceTp_afterEntry (i := .delay ms) h.fits s.draws s.framer 0 (s.fresh + 1) .delay
    ▸ delayEntry_reaches h.quiet h.fetch hf

/-- At END the block becomes ACTIVE and READY (R166). -/
theorem step_at_end {s : State} {rest : List Byte} (h : AtEntries s [] (entryBytes .endEntry ++ rest)) :
    step s = .next { s with
      phase := .active
      status := { s.status with ready := true, done := true, op := .none, busy := false }
      ctl := .idle } :=
  (step_fetch_ok h.quiet h.fetch (fetchEntry_of_bytes h.here h.bytes rfl (Nat.succ_pos 0))).trans
    (exec_endEntry_quiet h.quiet)

/-- Entries that TP moves past, a DELAY and END: INIT ends with READY, and TP stands at END (R161, R166). -/
theorem entries_delay_end_reach {s : State} {es : List Instr} {ms : Half} {rest : List Byte}
    (h : AtEntries s (es ++ [.delay ms]) (entryBytes .endEntry ++ rest))
    (hw : ∀ i ∈ es, wellFormed i = true) (hpass : ∀ i ∈ es, passedEntry i = true)
    {later : List Draw} (hd : s.draws = List.replicate (es.map entryPhases).sum .ok ++ later) :
    ∃ f m, Reaches s { s.afterEntries (es ++ [.delay ms]) later .active f 0 m with
      status := { s.status with ready := true, done := true, op := .none, busy := false }
      ctl := .idle } := by
  obtain ⟨p, f, n, m, hfront⟩ := entries_reach hw hpass h.append_left hd
  have hdelay := delayEntry_reaches_afterEntries (h.afterEntries later p f n m)
  rw [afterEntries_append h.append_left.fits] at hdelay
  have hall : AtEntries s (es ++ [.delay ms] ++ []) (entryBytes .endEntry ++ rest) := by
    rwa [List.append_nil]
  have hend := step_at_end (hall.afterEntries later p f 0 (m + 1))
  exact ⟨f, m + 1, hfront.trans (hdelay.trans (Reaches.one hend))⟩

/-! ### The table of an admitted configuration -/

/-- All entries before the last DELAY are ones that TP moves past. -/
theorem passedEntry_of_mem_frontEntries {c : Cfg} (h : c.admitted = true) :
    ∀ i ∈ c.frontEntries, passedEntry i = true := by
  intro i hi
  rcases List.mem_append.1 hi with hi | hi
  · simp only [resetPulse, List.mem_cons, List.not_mem_nil, or_false] at hi
    rcases hi with rfl | rfl | rfl | rfl <;> rfl
  · rcases Cfg.cmd_or_delay_of_mem_middleEntries h i hi with ⟨op, pl, rfl⟩ | ⟨ms, rfl⟩ <;> rfl

/-- Of the entries that TP moves past only a CMD can be ill-formed, and CFG-PLLEN looks at every CMD. -/
theorem wellFormed_of_mem_initTable {c : Cfg} (h : c.admitted = true) {i : Instr}
    (hi : i ∈ initTable c) (hp : passedEntry i = true) : wellFormed i = true := by
  cases i with
  | cmd op pl =>
    exact decide_eq_true (c.passes_plLen_iff.1 (Cfg.passes_of_admitted h .plLen) op pl hi)
  | delay | rstLow | rstHigh => rfl
  | _ => simp [passedEntry] at hp

/-! ### The lines after the table -/

/-- The levels of CS and DC after a transaction that succeeds (R195). -/
def Lines.deselected (l : Lines) : Lines := { l with cs := true, dc := true }

/-- Entries that do not drive the panel reset leave CS and DC as they are, or at 1 (R195). -/
theorem levelsAfter_entries {es : List Instr}
    (h : ∀ i ∈ es, (∃ op pl, i = .cmd op pl) ∨ ∃ ms, i = .delay ms) (l : Lines) :
    levelsAfter l (es.flatMap entryEvents) = l
      ∨ levelsAfter l (es.flatMap entryEvents) = l.deselected := by
  induction es generalizing l with
  | nil => exact .inl rfl
  | cons i es ih =>
    obtain ⟨hi, hes⟩ := List.forall_mem_cons.1 h
    rw [List.flatMap_cons, levelsAfter_append]
    rcases hi with ⟨op, pl, rfl⟩ | ⟨ms, rfl⟩
    · rw [entryEvents, levelsAfter_okFrame]
      exact .inr ((ih hes l.deselected).elim id id)
    · exact ih hes l

/-- With a CMD among them they are at 1. -/
theorem levelsAfter_entries_of_cmd {es : List Instr}
    (h : ∀ i ∈ es, (∃ op pl, i = .cmd op pl) ∨ ∃ ms, i = .delay ms) {op : Byte} {pl : List Byte}
    (hc : .cmd op pl ∈ es) (l : Lines) :
    levelsAfter l (es.flatMap entryEvents) = l.deselected := by
  obtain ⟨as, bs, rfl⟩ := List.append_of_mem hc
  obtain ⟨has, hbs⟩ := List.forall_mem_append.1 h
  rw [List.flatMap_append, List.flatMap_cons, levelsAfter_append, levelsAfter_append, entryEvents,
    levelsAfter_okFrame]
  rcases levelsAfter_entries has l with e | e <;> rw [e] <;>
    exact (levelsAfter_entries (List.forall_mem_cons.1 hbs).2 l.deselected).elim id id

theorem levelsAfter_initTable {c : Cfg} (h : c.admitted = true) (l : Lines) :
    levelsAfter l ((initTable c).flatMap entryEvents) = { l with cs := true, dc := true, rst := true } := by
  have hpulse : levelsAfter l ((resetPulse c.tRstLow c.tRstSettle).flatMap entryEvents)
      = { l with rst := true } := rfl
  have hcmd : .cmd 0x29 [] ∈ c.middleEntries := by simp [Cfg.middleEntries]
  simp only [initTable_eq_append, Cfg.frontEntries, List.flatMap_append, levelsAfter_append, hpulse,
    levelsAfter_entries_of_cmd (Cfg.cmd_or_delay_of_mem_middleEntries h) hcmd]
  rfl

/-! ### INIT -/

/-- The state in which INIT has been accepted and the sequencer is about to decode at address 0 (R211). -/
def State.initAccepted (s : State) : State :=
  { s with
    status := { s.status.accepted .init with ready := false }
    win := cfgWindow s.cfg
    tp := 0
    tpPast := false
    phase := .reset
    ctl := .fetch }

theorem exec_init_accepted {s : State} (hb : s.status.busy = false) (hg : s.cfg.geomOk = true)
    (ign : BitVec 29) : exec (.init ign) s = .next s.initAccepted := by
  simp [exec, execInit, acceptCommand, hb, startInit, hg, State.initAccepted]

theorem tableRom_eq (c : Cfg) :
    tableRom c = encodeTable (c.frontEntries ++ [.delay c.lastDelay]) ++ entryBytes .endEntry := by
  rw [tableRom, initTable_eq_append, encodeTable_append, encodeTable_singleton]

/-- END is the table's last byte. -/
theorem tableRom_length (c : Cfg) :
    (tableRom c).length = (encodeTable (c.frontEntries ++ [.delay c.lastDelay])).length + 1 := by
  rw [tableRom_eq, List.length_append, entryBytes_length, entryLen]

/-- The whole table stands at address 0, and CFG-TBL leaves END's address in 16 bits. -/
theorem atEntries_initAccepted {s : State} (h : s.cfg.admitted = true)
    (hrom : s.rom = tableRom s.cfg) (q : Quiet s) :
    AtEntries s.initAccepted (s.cfg.frontEntries ++ [.delay s.cfg.lastDelay])
      (entryBytes .endEntry ++ []) := by
  have hlen : (tableRom s.cfg).length ≤ 65536 :=
    s.cfg.passes_tbl_iff.1 (Cfg.passes_of_admitted h .tbl)
  rw [tableRom_length] at hlen
  refine ⟨q, rfl, rfl, hrom.trans ?_, ?_⟩
  · rw [tableRom_eq, List.append_nil]
  · simpa [State.initAccepted] using hlen

/-- `display_on`'s DELAY and END take no draw (R193). -/
theorem initTable_phases (c : Cfg) :
    ((initTable c).map entryPhases).sum = (c.frontEntries.map entryPhases).sum := by
  simp [initTable_eq_append, entryPhases]

/-- END has no event (R166). -/
theorem initTable_events (c : Cfg) :
    (initTable c).flatMap entryEvents
      = (c.frontEntries ++ [Instr.delay c.lastDelay]).flatMap entryEvents := by
  simp [initTable_eq_append, entryEvents]

/-- Settles O35: INIT is accepted, all entries before the last DELAY run, then that DELAY and END. -/
theorem initRunsTheWholeTable : Obligations.InitRunsTheWholeTable := by
  intro ign s later hadm hg hrom q hb hd
  have hpass := passedEntry_of_mem_frontEntries hadm
  have hw : ∀ i ∈ s.cfg.frontEntries, wellFormed i = true := fun i hi =>
    wellFormed_of_mem_initTable hadm (by simp [initTable_eq_append, hi]) (hpass i hi)
  obtain ⟨f, m, hreach⟩ := entries_delay_end_reach (atEntries_initAccepted hadm hrom q) hw hpass
    (by rwa [← initTable_phases])
  refine ⟨_, _, exec_init_accepted hb hg ign, hreach, ?_⟩
  simp only [State.afterEntries, ← initTable_events, State.initAccepted, levelsAfter_initTable hadm,
    tableRom_length]
  simp [Status.accepted]

end Sys2Proof.Machine
end

section
/-! One wire transaction as a whole (R191 to R196): which row sends it, what is on the trace and on the lines when its
caller goes on, and how much of it a wire observer sees. -/

namespace Sys2Proof.Machine

/-! ### What a wire row comes to -/

/-- A wire row sends its transaction, and PHASE alone may differ before that: SLEEP_OUT's, at a CMD entry (R102). -/
theorem exec_wireSends_phase {i : Instr} {op : Byte} {pl : List Byte} (hw : wireSends i = some (op, pl))
    (s : State) : exec i s = .next (sendTxn op pl { s with
      phase := if i = .sleepOut pl ∧ s.framer.caller = .entry then .sleepout else s.phase }) := by
  rw [exec_wireSends i op pl s hw]
  by_cases hi : i = .sleepOut pl
  · simp [hi]
  · simp [hi]

/-- The caller that a transaction returns to touches neither the trace nor the lines nor the answers still to come. -/
theorem returnStep_panel (ok : Bool) (s : State) : (returnStep ok s).trace = s.trace
    ∧ (returnStep ok s).lines = s.lines ∧ (returnStep ok s).draws = s.draws := by
  cases ok with
  | false => simp [returnStep_fail]
  | true =>
    cases hc : s.framer.caller with
    | entry => simp [returnStep_entry s hc]
    | refresh k =>
      rw [returnStep_refresh s k hc]
      split_ifs <;> simp

/-- What a wire row leaves on the panel's side, whoever its caller is: the events of R191, the levels they drive, and
the answers that it has not taken. -/
theorem exec_wireRow_panel {i : Instr} {op : Byte} {pl : List Byte} (hw : wireSends i = some (op, pl))
    {s : State} (q : Quiet s) (hd : (txnSpec op pl s.draws).2.2 ≤ s.draws.length) :
    ∃ t : State, exec i s = .next t
      ∧ t.trace = s.trace ++ (txnSpec op pl s.draws).1
      ∧ t.lines = levelsAfter s.lines (txnSpec op pl s.draws).1
      ∧ t.draws = s.draws.drop (txnSpec op pl s.draws).2.2 := by
  refine ⟨_, exec_wireSends_phase hw s, ?_⟩
  rw [sendTxn_spec op pl _ (by exact q) (by exact hd)]
  exact returnStep_panel _ _

/-! ### A transaction that succeeds -/

/-- Settles O21: the transaction of a CMD entry, which succeeds and moves TP on. -/
theorem wireRowSendsItsTransaction : Obligations.WireRowSendsItsTransaction := by
  intro i op pl s later hw q hcal hd ht
  rw [exec_wireSends_phase hw, sendTxn_entry_ok (by exact q) (by exact hcal) op pl (by exact hd),
    advanceTp_fits _ _ (by exact ht), levelsAfter_okFrame]
  simp only [hcal, and_true]

/-- Settles O24: with an empty payload and an OK the events of R191 are these five. -/
theorem commandOnlyTransaction : Obligations.CommandOnlyTransaction := by
  intro i op s later hw q hd
  have hspec : txnSpec op [] s.draws = (okFrame op [], true, 1) := hd ▸ txnSpec_ok op [] later
  obtain ⟨t, he, htrace, -, hdraws⟩ := exec_wireRow_panel hw q (by rw [hspec, hd]; exact Nat.le_add_left 1 _)
  rw [hspec] at htrace hdraws
  exact ⟨t, he, htrace, by rw [hdraws, hd]; rfl⟩

/-! ### The levels it leaves -/

/-- However a transaction ends, the device is deselected, in command mode where the opcode phase had no OK (R195). -/
theorem levelsAfter_txnSpec (l : Lines) (op : Byte) (pl : List Byte) (ds : List Draw) :
    levelsAfter l (txnSpec op pl ds).1 = { l with cs := true, dc := ds.head? == some .ok } := by
  match ds with
  | [] => rfl
  | .fail :: _ => rfl
  | .ok :: rest =>
    by_cases h0 : pl.length = 0
    · simp only [txnSpec, if_pos h0]
      rfl
    · match rest with
      | [] | .fail :: _ | .ok :: _ =>
        simp only [txnSpec, if_neg h0, levelsAfter_append, levelsAfter_tx]
        rfl

/-- Settles O25: DC is 0 where the first answer is no OK, and there is a first answer. -/
theorem lineLevelsAfterATransaction : Obligations.LineLevelsAfterATransaction := by
  intro i op pl s hw q hd
  obtain ⟨t, he, -, hlines, -⟩ := exec_wireRow_panel hw q hd
  rw [levelsAfter_txnSpec] at hlines
  refine ⟨t, he, by rw [hlines], ?_, by rw [hlines]⟩
  rw [hlines]
  match hds : s.draws with
  | [] => simp [hds, txnSpec] at hd
  | .ok :: _ => simp
  | .fail :: _ => simp

/-! ### The wire view -/

theorem drive_of_noChange {l : Lines} {e : Event} (h : noChange l e = true) : l.drive e = l := by
  cases e with
  | cs v | dc v | rst v =>
    obtain rfl := eq_of_beq h
    rfl
  | tx _ | wait _ | fail => rfl

/-- A drive that changes nothing is dropped, and every other event stays (R196). -/
theorem wireFrom_cons (l : Lines) (e : Event) (tr : List Event) :
    wireFrom l (e :: tr)
      = if noChange l e = true then wireFrom l tr else e :: wireFrom (l.drive e) tr := by
  rw [wireFrom]
  split_ifs with h
  · rw [drive_of_noChange h]
  · rfl

/-- The view goes on from the levels that the events before leave. -/
theorem wireFrom_append (l : Lines) (a b : List Event) :
    wireFrom l (a ++ b) = wireFrom l a ++ wireFrom (levelsAfter l a) b := by
  induction a generalizing l with
  | nil => rfl
  | cons e a ih =>
    have hlev : levelsAfter l (e :: a) = levelsAfter (l.drive e) a := rfl
    rw [List.cons_append, wireFrom, wireFrom, ih, hlev]
    split_ifs <;> rfl

theorem wireFrom_tx (l : Lines) (bs : List Byte) : wireFrom l (bs.map .tx) = bs.map .tx := by
  induction bs with
  | nil => rfl
  | cons b bs ih => simpa [wireFrom_cons, noChange] using ih

/-- What a transaction that succeeds has after its opcode phase: no more events, or a payload phase (R191, R192). -/
def payloadEvents (pl : List Byte) : List Event :=
  if pl.length = 0 then [] else [Event.cs false] ++ pl.map Event.tx ++ [Event.cs true]

theorem okFrame_eq (op : Byte) (pl : List Byte) :
    okFrame op pl = [Event.cs false, .dc false, .tx op, .cs true, .dc true] ++ payloadEvents pl := rfl

/-- It stays whole where CS is 1 before it. -/
theorem wireFrom_payloadEvents {l : Lines} (hcs : l.cs = true) (pl : List Byte) :
    wireFrom l (payloadEvents pl) = payloadEvents pl := by
  unfold payloadEvents
  split_ifs
  · rfl
  · simp only [wireFrom_append, wireFrom_tx, levelsAfter_append, levelsAfter_tx]
    simp [wireFrom, noChange, levelsAfter, Lines.drive, hcs]

/-- From CS = 1 and DC = 1 a transaction that succeeds stays whole. -/
theorem wireFrom_okFrame_dataMode {l : Lines} (hcs : l.cs = true) (hdc : l.dc = true) (op : Byte)
    (pl : List Byte) : wireFrom l (okFrame op pl) = okFrame op pl := by
  rw [okFrame_eq, wireFrom_append, wireFrom_payloadEvents (by rfl)]
  congr 1
  simp [wireFrom, noChange, Lines.drive, hcs, hdc]

/-- From CS = 1 and DC = 0 it loses its DC(0). -/
theorem wireFrom_okFrame_commandMode {l : Lines} (hcs : l.cs = true) (hdc : l.dc = false) (op : Byte)
    (pl : List Byte) :
    wireFrom l (okFrame op pl) = [Event.cs false, .tx op, .cs true, .dc true] ++ payloadEvents pl := by
  rw [okFrame_eq, wireFrom_append, wireFrom_payloadEvents (by rfl)]
  congr 1
  simp [wireFrom, noChange, Lines.drive, hcs, hdc]

/-- An opcode phase that fails is seen whole from CS = 1 and DC = 1, and leaves DC at 0 (R195). -/
theorem wireFrom_failedOpcode {l : Lines} (hcs : l.cs = true) (hdc : l.dc = true) (op : Byte)
    (tr : List Event) :
    wireFrom l ([Event.cs false, .dc false, .tx op, .fail, .cs true] ++ tr)
      = [Event.cs false, .dc false, .tx op, .fail, .cs true]
        ++ wireFrom { l with cs := true, dc := false } tr := by
  rw [wireFrom_append]
  congr 1
  simp [wireFrom, noChange, Lines.drive, hcs, hdc]

/-- Settles O26: the rule event by event, and the transaction from either level of DC. -/
theorem wireViewKeepsAWholeTransaction : Obligations.WireViewKeepsAWholeTransaction := by
  refine ⟨fun l tr => ⟨rfl, fun v => ?cs, fun v => ?dc, fun v => ?rst, fun _ => rfl, fun _ => rfl, rfl⟩,
    fun l op op' pl hcs => ⟨fun hdc => wireFrom_okFrame_dataMode hcs hdc op pl,
      fun hdc => wireFrom_okFrame_commandMode hcs hdc op pl, fun hdc => ?afterFailure⟩⟩
  case cs | dc | rst => simp [wireFrom_cons, noChange, Lines.drive]
  case afterFailure =>
    rw [wireFrom_failedOpcode hcs hdc, wireFrom_okFrame_commandMode (by rfl) (by rfl), ← List.append_assoc]
    rfl

end Sys2Proof.Machine
end

section
/-! The host commands (R210 to R220): what a value written to CTRL comes to, and what INIT and CONVERT leave where
the geometry fails; and the write of STATUS (R222). -/

namespace Sys2Proof.Machine

/-! ### The acceptance procedure -/

/-- R220 for a command that is no NOP. -/
theorem acceptCommand_eq (v : Word) (allowed : Bool) (start : State → State) (s : State) :
    acceptCommand v allowed start s
      = if s.status.busy = true ∨ allowed = false then cmdError v s else start s := by
  simp [acceptCommand]

/-- The same for a row whose meaning it is. -/
theorem exec_of_acceptCommand {i : Instr} {v : Word} {allowed : Bool} {start : State → State}
    {s : State} (h : exec i s = .next (acceptCommand v allowed start s)) :
    exec i s = if s.status.busy = true ∨ allowed = false then .next { s with
        status := { s.status with cmdErr := true }
        errinfo := ⟨some .cmd, v.extractLsb' 0 8, 0⟩ }
      else .next (start s) := by
  rw [h, acceptCommand_eq, cmdError_eq, apply_ite Host.Outcome.next]

/-- A CTRL word is its ignored bits and its code (R99). -/
theorem exists_ctrl_word_eq (v : Word) : ∃ (ign : BitVec 29) (c : BitVec 3), v = ign ++ c := by
  have hv : v.extractLsb' 3 29 ++ v.extractLsb' 0 3 = v :=
    (BitVec.extractLsb'_append_extractLsb'_eq_extractLsb' rfl).trans BitVec.extractLsb'_eq_self
  exact ⟨_, _, hv.symm⟩

/-- A code above 3 is a 1 and two low bits, the reserved ones (R99). -/
theorem ctrl_code_cases (c : BitVec 3) :
    c = 0#3 ∨ c = 1#3 ∨ c = 2#3 ∨ c = 3#3 ∨ ∃ low : BitVec 2, c = 1#1 ++ low := by
  revert c
  decide

theorem ctrl_word_code (ign : BitVec 29) (c : BitVec 3) : (ign ++ c).extractLsb' 0 3 = c :=
  BitVec.extractLsb'_append_eq_right

theorem reserved_code_ge (low : BitVec 2) : 4 ≤ (1#1 ++ low : BitVec 3).toNat := by
  revert low
  decide

theorem ne_zero_of_reserved_code {c : BitVec 3} (h : 4 ≤ c.toNat) : c ≠ 0 := by
  rintro rfl
  exact absurd h (by decide)

/-- A reserved command is refused in every state (R219). -/
theorem exec_reservedCtrl (ign : BitVec 29) (low : BitVec 2) (s : State) :
    exec (.reservedCtrl ign low) s = .next { s with
      status := { s.status with cmdErr := true }
      errinfo := ⟨some .cmd, (ctrlWord (.reservedCtrl ign low)).extractLsb' 0 8, 0⟩ } :=
  (exec_of_acceptCommand rfl).trans (if_pos (.inr rfl))

/-- Settles O15, code by code. -/
theorem acceptanceProcedure : Obligations.AcceptanceProcedure := by
  intro v s
  obtain ⟨ign, c, rfl⟩ := exists_ctrl_word_eq v
  rw [ctrl_word_code]
  obtain rfl | rfl | rfl | rfl | ⟨low, rfl⟩ := ctrl_code_cases c
  · rw [show decodeCtrl (ign ++ 0#3) = .nop ign from decodeCtrl_append ign 0]
    rfl
  · rw [show decodeCtrl (ign ++ 1#3) = .init ign from decodeCtrl_append ign 1]
    exact (exec_of_acceptCommand (v := ign ++ 1#3) rfl).trans (by simp)
  · rw [show decodeCtrl (ign ++ 2#3) = .refresh ign from decodeCtrl_append ign 2]
    exact (exec_of_acceptCommand (v := ign ++ 2#3) rfl).trans (by simp)
  · rw [show decodeCtrl (ign ++ 3#3) = .convert ign from decodeCtrl_append ign 3]
    exact (exec_of_acceptCommand (v := ign ++ 3#3) rfl).trans (by simp)
  · have hcode := reserved_code_ge low
    rw [decodeCtrl_reserved, if_neg (ne_zero_of_reserved_code hcode), if_pos (.inr (.inl hcode))]
    exact exec_reservedCtrl ign low s

/-- Settles O14: the first branch of R220. -/
theorem nopChangesNothing : Obligations.NopChangesNothing :=
  fun s => ⟨fun _ => rfl, fun v h => (acceptanceProcedure v s).trans (if_pos h)⟩

/-- Settles O16: the second branch of R220. -/
theorem reservedCommandIsRefused : Obligations.ReservedCommandIsRefused :=
  fun s => ⟨fun ign low => exec_reservedCtrl ign low s, fun v h =>
    (acceptanceProcedure v s).trans
      ((if_neg (ne_zero_of_reserved_code h)).trans (if_pos (.inr (.inl h))))⟩

/-! ### A command that no running op refuses -/

theorem exec_init_started {s : State} (hb : s.status.busy = false) (ign : BitVec 29) :
    exec (.init ign) s = .next (startInit s) :=
  (exec_of_acceptCommand rfl).trans (if_neg (by simp [hb]))

theorem exec_convert_started {s : State} (hb : s.status.busy = false) (ign : BitVec 29) :
    exec (.convert ign) s = .next (startConvertOp s) :=
  (exec_of_acceptCommand rfl).trans (if_neg (by simp [hb]))

theorem exec_refresh_started {s : State} (hb : s.status.busy = false) (hr : s.status.ready = true)
    (ign : BitVec 29) : exec (.refresh ign) s = .next (startRefresh s) :=
  (exec_of_acceptCommand rfl).trans (if_neg (by simp [hb, hr]))

/-- Settles O17, by INIT's acceptance as the run of the whole table has it. -/
theorem initIsAccepted : Obligations.InitIsAccepted :=
  fun ign _ hb hg => exec_init_accepted hb hg ign

/-- GEOM_ERR while no op runs: the record alone, with BUSY and OP at 0 as they were (R241, R250). -/
theorem raiseGeometryError_idle {s : State} (hb : s.status.busy = false) (hop : s.status.op = .none) :
    raiseError .geom 0 0 s = { s with
      status := { s.status with geomErr := true }
      errinfo := ⟨some .geom, 0, 0⟩
      ctl := .idle } := by
  rw [raiseError_abort _ _ _ _ (by decide)]
  simp [hop, hb, Status.setErr]

/-- Settles O13: the error of CONVERT's own check. -/
theorem convertGeometryErrorChangesNothingElse : Obligations.ConvertGeometryErrorChangesNothingElse := by
  intro ign s hb hop hg
  rw [exec_convert_started hb, startConvertOp, if_neg (by simp [hg]),
    raiseGeometryError_idle (by exact hb) (by exact hop)]

/-- Settles O18: the error of INIT's own check. -/
theorem initGeometryErrorEmitsNothing : Obligations.InitGeometryErrorEmitsNothing := by
  intro ign s hb hop hg
  rw [exec_init_started hb, startInit, if_neg (by simp [hg]),
    raiseGeometryError_idle (by exact hb) (by exact hop)]

/-! ### The write of STATUS -/

/-- Settles O39: the register write of R222, on the host's turn. -/
theorem statusWriteClearsItsBits : Obligations.StatusWriteClearsItsBits := by
  intro s v rest ht
  rw [step_access ht rfl]
  exact writeWord_register (a := 4) (by decide) (by decide) v (takeAccess rest s)

end Sys2Proof.Machine
end

section
/-! CONVERT in a state with no input scheduled (R217): what it leaves in P, byte by byte and bit by bit. REFRESH begins
with the same conversion (R214). -/

namespace Sys2Proof.Machine

/-! ### The conversion as a whole -/

/-- The memory `p` holds all of conv(B), and above it what P holds (R130, R135). -/
structure State.ConvertsTo (s : State) (p : Memory) : Prop where
  below : ∀ k, k < s.cfg.n → p.read k = some (convByte s.cfg s.bitmapByte k)
  above : ∀ k, s.cfg.n ≤ k → p.read k = s.packed.read k

theorem State.ConvertsTo.convDone {s : State} {p : Memory} (h : s.ConvertsTo p) :
    ({ s with packed := p } : State).convDone := by
  intro k hk
  rw [State.packedByte, h.below k hk]
  rfl

/-- The converter runs on to its end, and there is fuel left for the line after it. -/
theorem runOn_startConvert {s : State} (q : Quiet s) (hg : s.cfg.geomOk = true) :
    ∃ (p : Memory) (v : Conv) (fuel : Nat), s.ConvertsTo p
      ∧ runOn (startConvert s)
        = runLines (fuel + 1) (convertDone { s with packed := p, conv := v, ctl := .convert }) := by
  obtain ⟨p, v, hrun, -, hread⟩ := runLines_startConvert (s.framer.pl.length + 15 + 1) s q hg
  refine ⟨p, v, s.framer.pl.length + 15, ⟨fun k hk => ?_, fun k hk => ?_⟩, ?_⟩
  · rw [hread, if_pos hk]
  · rw [hread, if_neg (Nat.not_lt.2 hk)]
  · rw [← hrun, runOn]
    congr 1
    simp [lineBound]
    omega

/-- CONVERT converts and finishes (R217). -/
theorem startConvertOp_quiet {s : State} (q : Quiet s) (hg : s.cfg.geomOk = true) :
    ∃ (p : Memory) (v : Conv), s.ConvertsTo p ∧ startConvertOp s = { s with
      packed := p
      conv := v
      status := { s.status with done := true, busy := false, op := .none }
      ctl := .idle } := by
  obtain ⟨p, v, fuel, ⟨hbelow, habove⟩, hrun⟩ :=
    runOn_startConvert (s := { s with status := s.status.accepted .convert }) q hg
  refine ⟨p, v, ⟨hbelow, habove⟩, ?_⟩
  rw [startConvertOp, if_pos hg, hrun]
  refine (runLines_to fuel _ _ (by exact q) rfl rfl rfl (by exact q)).trans ?_
  exact runLines_boundary _ _ rfl

/-- REFRESH converts and hands over its first transaction (R214). -/
theorem startRefresh_quiet {s : State} (q : Quiet s) (hg : s.cfg.geomOk = true) :
    ∃ (p : Memory) (v : Conv), s.ConvertsTo p ∧ startRefresh s = handRefresh 0 { s with
      packed := p
      conv := v
      status := s.status.accepted .refresh } := by
  obtain ⟨p, v, fuel, ⟨hbelow, habove⟩, hrun⟩ :=
    runOn_startConvert (s := { s with status := s.status.accepted .refresh }) q hg
  refine ⟨p, v, ⟨hbelow, habove⟩, ?_⟩
  rw [startRefresh, hrun]
  exact runLines_boundary _ _ rfl

/-- Settles O10: the conversion runs to its end and CONVERT finishes. -/
theorem convertFillsThePackedBuffer : Obligations.ConvertFillsThePackedBuffer := by
  intro ign s q hb hg
  obtain ⟨p, v, hp, hrun⟩ := startConvertOp_quiet q hg
  refine ⟨_, exec_convert_started hb ign, ?_⟩
  rw [hrun]
  exact ⟨hp.convDone, hp.above, rfl⟩

/-! ### Bit by bit -/

/-- Settles O11: P = conv(B), and the closed form of conv for both bits of a pair of lanes. -/
theorem conversionIsPixelExact : Obligations.ConversionIsPixelExact := by
  intro ign s q hb hg
  obtain ⟨t, he, hP, -, -⟩ := convertFillsThePackedBuffer ign s q hb hg
  refine ⟨t, he, fun k n hk hn => ?_⟩
  have hpixel (j : Nat) (hj : j < 8) := ((pixelMapIsABijection s.cfg hg).1 s.bitmapByte k j hk hj).2.2
  have hleft : 1 - (7 - 2 * n) % 2 = 0 ∧ (7 - (7 - 2 * n)) / 2 = n := by omega
  have hright : 1 - (6 - 2 * n) % 2 = 1 ∧ (7 - (6 - 2 * n)) / 2 = n := by omega
  rw [hP k hk, hpixel _ (by omega), hpixel _ (by omega)]
  simp only [pixelOf, hleft, hright, Nat.add_zero, and_self]

end Sys2Proof.Machine
end

section
/-! REFRESH in a state with no input scheduled (R214): after the conversion it sends its three transactions, each by
the row of its opcode (R191). -/

namespace Sys2Proof.Machine

/-! ### One transaction of REFRESH -/

/-- A transaction with an OK for each write phase returns to its caller with all its events sent (R191). -/
theorem sendTxn_ok {s : State} (q : Quiet s) (op : Byte) (pl : List Byte) {later : List Draw}
    (hd : s.draws = List.replicate (txnPhases pl) .ok ++ later) :
    sendTxn op pl s = returnStep true { s with
      trace := s.trace ++ okFrame op pl
      lines := s.lines.deselected
      framer := ⟨op, pl, pl.length, s.framer.caller⟩
      draws := later
      ctl := .ret true } := by
  have hspec : txnSpec op pl s.draws = (okFrame op pl, true, txnPhases pl) :=
    hd ▸ txnSpec_ok op pl later
  have hhead : s.draws.head? = some .ok := by
    rw [hd]
    unfold txnPhases
    split_ifs <;> rfl
  have hdrop : s.draws.drop (txnPhases pl) = later := by simp [hd]
  rw [sendTxn_spec op pl s q (by rw [hspec, hd]; simp), hspec]
  simp only [hhead, if_true, hdrop, levelsAfter_okFrame]
  rfl

/-- REFRESH's transaction `k` has succeeded and returns; the framer still holds it. -/
def State.refreshSent (s : State) (k : Fin 3) (op : Byte) (pl : List Byte) (later : List Draw) : State :=
  { s with
    trace := s.trace ++ okFrame op pl
    lines := s.lines.deselected
    framer := ⟨op, pl, pl.length, .refresh k⟩
    draws := later
    ctl := .ret true }

theorem returnStep_refreshSent (s : State) (k : Fin 3) (op : Byte) (pl : List Byte)
    (later : List Draw) : returnStep true (s.refreshSent k op pl later)
      = if k = 0 then handRefresh 1 (s.refreshSent k op pl later)
        else if k = 1 then handRefresh 2 (s.refreshSent k op pl later)
        else finishOp (s.refreshSent k op pl later) :=
  returnStep_refresh _ k rfl

/-- For REFRESH a wire row is its transaction alone: SLEEP_OUT moves PHASE only at a CMD entry (R102). -/
theorem exec_wireRow_refresh {i : Instr} {op : Byte} {pl : List Byte} {s : State} {later : List Draw}
    {k : Fin 3} (hw : wireSends i = some (op, pl)) (q : Quiet s) (hcal : s.framer.caller = .refresh k)
    (hd : s.draws = List.replicate (txnPhases pl) .ok ++ later) :
    exec i s = .next (returnStep true (s.refreshSent k op pl later)) := by
  have hphase : ¬ (i = .sleepOut pl ∧ s.framer.caller = .entry) := by simp [hcal]
  rw [exec_wireSends_phase hw, if_neg hphase, sendTxn_ok (by exact q) op pl (by exact hd)]
  simp only [hcal]
  rfl

/-- Settles O22, transaction by transaction. -/
theorem wireRowServesRefresh : Obligations.WireRowServesRefresh := by
  intro i op pl s later k hw q hcal hd
  refine ⟨_, exec_wireRow_refresh hw q hcal hd, ?_⟩
  rw [returnStep_refreshSent]
  match k with
  | 0 => exact ⟨rfl, fun _ => rfl, by simp⟩
  | 1 => exact ⟨rfl, by simp, fun _ => rfl⟩
  | 2 => exact ⟨rfl, by simp, by simp⟩

/-! ### All of REFRESH -/

/-- Settles O19: after the conversion the column window is handed over. -/
theorem refreshConvertsFirst : Obligations.RefreshConvertsFirst := by
  intro ign s q hb hr hg
  obtain ⟨p, v, hp, hrun⟩ := startRefresh_quiet q hg
  refine ⟨_, exec_refresh_started hb hr ign, ?_⟩
  rw [hrun]
  exact ⟨hp.convDone, hp.above, rfl⟩

theorem wireSends_decodeWire (op : Byte) (pl : List Byte) :
    wireSends (decodeWire op pl) = some (op, pl) := by
  unfold decodeWire
  split_ifs <;> simp_all [wireSends]

/-- Each payload of REFRESH has a byte: with a good geometry P has one (R218). -/
theorem refreshPayload_ne_nil {s : State} (hg : s.cfg.geomOk = true) (k : Fin 3) :
    s.refreshPayload k ≠ [] := by
  match k with
  | 0 | 1 => exact List.cons_ne_nil _ _
  | 2 =>
    obtain ⟨h1, h2, _, _, _, hn, _⟩ := geomOk_numbers s.cfg hg
    have hn0 : s.cfg.n ≠ 0 := by rw [hn]; exact (Nat.mul_pos h1 (by omega)).ne'
    simpa [State.refreshPayload, State.packedBytes] using hn0

/-- The step in which REFRESH's transaction `k` is sent, both its write phases OK (R193). -/
theorem step_handRefresh {s : State} (q : Quiet s) (hg : s.cfg.geomOk = true) (k : Fin 3)
    {later : List Draw} (hd : s.draws = .ok :: .ok :: later) :
    step (handRefresh k s) = .next (returnStep true
      (s.refreshSent k (refreshOp k) (s.refreshPayload k) later)) := by
  have hphases : txnPhases (s.refreshPayload k) = 2 := by
    simp [txnPhases, refreshPayload_ne_nil hg k]
  rw [step_present (by exact q) rfl]
  refine exec_wireRow_refresh (wireSends_decodeWire _ _) (by exact q) rfl ?_
  rw [hphases]
  exact hd

theorem packedBytes_of_convDone {s : State} (h : s.convDone) :
    s.packedBytes = (List.range s.cfg.n).map (convByte s.cfg s.bitmapByte) :=
  List.map_congr_left fun k hk => h k (List.mem_range.1 hk)

/-- With P = conv(B) the three transactions go out one after the other, and the op ends (R214). -/
theorem handRefresh_reaches {s : State} (q : Quiet s) (hg : s.cfg.geomOk = true) (hP : s.convDone)
    {later : List Draw} (hd : s.draws = [.ok, .ok, .ok, .ok, .ok, .ok] ++ later) :
    ∃ f, Reaches (handRefresh 0 s) (finishOp { s with
      trace := s.trace
        ++ okFrame 0x2A [s.win.cs0, s.win.ce0]
        ++ okFrame 0x2B [s.win.rs0, s.win.re0]
        ++ okFrame 0x2C ((List.range s.cfg.n).map (convByte s.cfg s.bitmapByte))
      lines := s.lines.deselected
      framer := f
      draws := later
      ctl := .ret true }) := by
  have columns := step_handRefresh q hg 0 hd
  rw [returnStep_refreshSent, if_pos rfl] at columns
  have rows := step_handRefresh
    (s := s.refreshSent 0 0x2A (s.refreshPayload 0) ([.ok, .ok, .ok, .ok] ++ later)) q hg 1 rfl
  rw [returnStep_refreshSent, if_neg (by decide), if_pos rfl] at rows
  have pixels := step_handRefresh
    (s := (s.refreshSent 0 0x2A (s.refreshPayload 0) ([.ok, .ok, .ok, .ok] ++ later)).refreshSent 1 0x2B
      (s.refreshPayload 1) ([.ok, .ok] ++ later)) q hg 2 rfl
  rw [returnStep_refreshSent, if_neg (by decide), if_neg (by decide)] at pixels
  rw [← packedBytes_of_convDone hP]
  exact ⟨_, Reaches.head columns (Reaches.head rows (Reaches.one pixels))⟩

/-- Settles O20: the conversion, and then the transactions. -/
theorem refreshSendsTheWholeFrame : Obligations.RefreshSendsTheWholeFrame := by
  intro ign s later q hb hr hg hd
  obtain ⟨p, v, hp, hrun⟩ := startRefresh_quiet q hg
  obtain ⟨f, hreach⟩ := handRefresh_reaches (s := { s with
    packed := p, conv := v, status := s.status.accepted .refresh }) q hg hp.convDone hd
  have he := exec_refresh_started hb hr ign
  rw [hrun] at he
  refine ⟨_, _, he, hreach, rfl, ?_, rfl⟩
  exact hp.convDone

end Sys2Proof.Machine
end

section
/-! The table of an admitted configuration as the sequencer reads it (R92, R160): at the address after each of its
entries stands the next one. -/

namespace Sys2Proof.Machine

/-- In the encoding of a list of entries each one decodes at the address after those before it (R90). -/
theorem decodeEntry_drop_encodeTable {e : Instr} (hw : wellFormed e = true) (hl : 0 < entryLen e)
    (before after : List Instr) :
    decodeEntry ((encodeTable (before ++ e :: after)).drop (encodeTable before).length)
      = .ok (e, entryLen e) := by
  rw [encodeTable_append, List.drop_left]
  exact decodeEntry_entryBytes_append hw hl _

/-- TP moves past every entry of INIT_TABLE(cfg) but END (R160, R161). -/
theorem passedEntry_or_end_of_mem_initTable {c : Cfg} (h : c.admitted = true) {i : Instr}
    (hi : i ∈ initTable c) : passedEntry i = true ∨ i = .endEntry := by
  simp only [initTable_eq_append, List.mem_append, List.mem_singleton] at hi
  rcases hi with (hfront | rfl) | rfl
  · exact .inl (passedEntry_of_mem_frontEntries h i hfront)
  · exact .inl rfl
  · exact .inr rfl

/-- Settles O5: each entry is well formed and has bytes in the table. -/
theorem admittedTableDecodesEntryByEntry : Obligations.AdmittedTableDecodesEntryByEntry := by
  intro c before after e hadm htable
  have hmem : e ∈ initTable c := htable ▸ List.mem_append_right before List.mem_cons_self
  obtain ⟨hw, hl⟩ : wellFormed e = true ∧ 0 < entryLen e := by
    rcases passedEntry_or_end_of_mem_initTable hadm hmem with hp | rfl
    · exact ⟨wellFormed_of_mem_initTable hadm hmem hp, entryLen_pos_of_passedEntry hp⟩
    · exact ⟨rfl, Nat.one_pos⟩
  rw [tableRom, htable]
  exact decodeEntry_drop_encodeTable hw hl before after

end Sys2Proof.Machine
end

section
/-! A write phase that fails (R191, R242): the transaction returns to its caller, which raises BUS_ERR. -/

namespace Sys2Proof.Machine

theorem returnStep_fail_entry {s : State} (hcal : s.framer.caller = .entry) :
    returnStep false s = raiseError .bus s.tp s.framer.op s := by
  simp only [returnStep, hcal]

theorem returnStep_fail_refresh {s : State} {k : Fin 3} (hcal : s.framer.caller = .refresh k) :
    returnStep false s = raiseError .bus (BitVec.ofNat 16 k.val) s.framer.op s := by
  simp only [returnStep, hcal]

/-- The transaction of `op` has failed with the answers that `s` holds and returns to its caller (R191); the framer
still holds it. -/
def State.txnFailed (s : State) (op : Byte) (pl : List Byte) : State :=
  { s with
    trace := s.trace ++ (txnSpec op pl s.draws).1
    lines := { s.lines with cs := true, dc := s.draws.head? == some .ok }
    framer := ⟨op, pl, if s.draws.head? = some .ok then pl.length else 0, s.framer.caller⟩
    draws := s.draws.drop (txnSpec op pl s.draws).2.2
    ctl := .ret false }

theorem sendTxn_fail {s : State} (q : Quiet s) {op : Byte} {pl : List Byte}
    (hd : (txnSpec op pl s.draws).2.2 ≤ s.draws.length) (hfail : (txnSpec op pl s.draws).2.1 = false) :
    sendTxn op pl s = returnStep false (s.txnFailed op pl) := by
  rw [sendTxn_spec op pl s q hd, hfail, levelsAfter_txnSpec]
  rfl

/-- Settles O23: a CMD entry raises with TP and aborts INIT, REFRESH raises with the transaction's number. -/
theorem writeFailureRaisesBusErr : Obligations.WriteFailureRaisesBusErr := by
  intro i op pl s hw q hd hfail hop
  refine ⟨_, exec_wireSends_phase hw s, ?_⟩
  rw [sendTxn_fail (by exact q) (by exact hd) (by exact hfail)]
  cases hcal : s.framer.caller with
  | entry =>
    rw [returnStep_fail_entry (by exact hcal), raiseError_abort _ _ _ _ (by decide)]
    simp [State.txnFailed, Status.setErr, hop.1 hcal]
  | refresh k =>
    have hinit : s.status.op ≠ .init := fun h => by simp [hop.2 h] at hcal
    rw [returnStep_fail_refresh (by exact hcal), raiseError_abort _ _ _ _ (by decide)]
    simp [State.txnFailed, Status.setErr, hinit]

end Sys2Proof.Machine
end

section
/-! What stops the machine, and where it stays as it is: no error of the block has no next state (R240), and with no
input a block that is idle, or that waits for an answer, has nothing to do (R246, R261). -/

namespace Sys2Proof.Machine

/-! ### Host accesses past the host space -/

/-- No access of either width is performed past the host space (R60, log entry 12). -/
theorem hostAccess_noSuchHostAddress {x : HostAccess} (ha : 0x40000 ≤ x.addr) (s : State) :
    hostAccess x s = .fault .noSuchHostAddress := by
  have hreg : regionOf x.addr = none := (regionOf_none _).2 ha
  cases x with
  | rd a | poll a bit b => simp only [hostAccess, readWord, show regionOf a = none from hreg]
  | wr a v => simp only [hostAccess, writeWord, show regionOf a = none from hreg]
  | rdb a => simp only [hostAccess, readByte, show regionOf a = none from hreg]
  | wrb a v => simp only [hostAccess, writeByte, show regionOf a = none from hreg]

theorem step_noSuchHostAddress {s : State} {x : HostAccess} {rest : List HostReq}
    (ht : HostTurn s x rest) (ha : 0x40000 ≤ x.addr) : step s = .fault .noSuchHostAddress := by
  have hctrl : ctrlWrite x = none := Option.eq_none_iff_forall_ne_some.2 fun v hv => by
    simp [ctrlWrite_eq_some hv, HostAccess.addr] at ha
  rw [step_access ht hctrl]
  exact hostAccess_noSuchHostAddress ha _

/-! ### Every other step -/

/-- Every turn but a host access has a next state, for every instruction has one; a CTRL write is a command's turn. -/
theorem step_next_of_turn_ne_access {s : State} (h : ∀ x rest, turn s ≠ .access x rest) :
    ∃ t, step s = .next t := by
  cases ht : turn s with
  | access x rest => exact absurd ht (h x rest)
  | command | wire =>
    simp only [step, ht]
    exact exec_next _ _
  | entry =>
    cases hf : fetchEntry s with
    | ok p =>
      simp only [step, ht, hf]
      exact exec_next _ _
    | error e =>
      simp only [step, ht, hf]
      exact ⟨_, rfl⟩
  | reset | idle | block =>
    simp only [step, ht]
    exact ⟨_, rfl⟩

/-- Settles O60: only a host access can lack a next state, one that R62 refuses or one past the host space. -/
theorem onlyHostAccessesStopTheMachine : Obligations.OnlyHostAccessesStopTheMachine := by
  refine fun s => ⟨?_, fun x rest => step_noSuchHostAddress⟩
  by_cases h : ∃ x rest, turn s = .access x rest
  · obtain ⟨x, rest, ht⟩ := h
    have hturn := (turn_access ht).1
    rcases Nat.lt_or_ge x.addr 0x40000 with ha | ha
    · rcases step_performedOrRefused hturn ha with ⟨_, hnext⟩ | ⟨hm, _⟩
      · exact .inl hnext
      · exact .inr ⟨x, rest, hturn, .inr hm⟩
    · exact .inr ⟨x, rest, hturn, .inl ha⟩
  · exact .inl (step_next_of_turn_ne_access fun x rest ht => h ⟨x, rest, ht⟩)

/-! ### A block with nothing to do -/

/-- With no input a block that is idle or waits for the environment takes no turn (R246, R261). -/
theorem step_stays {s : State} (q : Quiet s) (h : s.ctl = .idle ∨ waiting s = true) :
    step s = .next s := by
  have hblock : blockTurn s = .idle := by
    rw [blockTurn, if_pos (by simpa using h), q.2]
  simp only [step, turn, resetDue_quiet s q, hostDue_quiet s q, Bool.false_eq_true, if_false, hblock]

theorem waiting_of_no_draws {s : State} (hd : s.draws = [])
    (hc : s.ctl = .txn .opDraw ∨ s.ctl = .txn .plDraw) : waiting s = true := by
  rcases hc with hc | hc <;> simp [waiting, hc, hd]

/-- Settles O58: without an answer the block waits at a draw. -/
theorem blockWaitsForTheEnvironment : Obligations.BlockWaitsForTheEnvironment :=
  fun _ q hd hc => step_stays q (.inr (waiting_of_no_draws hd hc))

/-- Settles O59. -/
theorem idleBlockHoldsItsState : Obligations.IdleBlockHoldsItsState :=
  fun _ q hc => step_stays q (.inl hc)

end Sys2Proof.Machine
end

section
/-! Block reset (R270, R271): the values that a state after it holds, when it comes, and that the state meets `Inv`. -/

namespace Sys2Proof.Machine

/-! ### The reset values -/

/-- The registers, the engine's place, the output lines and the trace hold their values of R270. -/
structure ResetValues (s : State) : Prop where
  status : s.status.word = 0
  phase : s.phase = .uninit
  errinfo : s.errinfo.word = 0
  win : s.win.word = 0
  tp : s.tp = 0
  ctl : s.ctl = .idle
  cs : s.lines.cs = true
  dc : s.lines.dc = true
  rst : s.lines.rst = true
  trace : s.trace = []

@[simp] theorem status_word_reset : Status.reset.word = 0 := by decide

@[simp] theorem errInfo_word_zero : (⟨none, 0, 0⟩ : ErrInfo).word = 0 := by decide

@[simp] theorem window_word_zero : (⟨0, 0, 0, 0⟩ : Window).word = 0 := by decide

theorem resetValues_resetWith (c : Cfg) (rom : List Byte) (epoch : Nat) :
    ResetValues (State.resetWith c rom epoch) :=
  ⟨status_word_reset, rfl, errInfo_word_zero, window_word_zero, rfl, rfl, rfl, rfl, rfl, rfl⟩

/-- Block reset keeps the inputs, the TE level and the host's record (log entry 11), and these values read none. -/
theorem resetValues_blockReset (s : State) : ResetValues (blockReset s) :=
  { resetValues_resetWith s.cfg s.rom (s.epoch + 1) with }

/-- Settles O47: SMALL is one of the configurations that a block can be built from. -/
theorem resetStateValues : Obligations.ResetStateValues := by
  have h : ResetValues State.reset := resetValues_resetWith _ _ 0
  exact ⟨h.status, h.phase, h.errinfo, h.win, h.tp, h.ctl, h.cs, h.dc, h.rst, h.trace, rfl, rfl, rfl⟩

/-! ### The invariant -/

/-- With no op under way nothing is said of the values in the buffers, so a new draw of them keeps `Inv` (R40). -/
theorem inv_redraw {s : State} (h : Inv s) (hb : s.status.busy = false) (epoch : Nat) :
    Inv { s with epoch := epoch } := by
  obtain ⟨hop, hc⟩ := idle_of_not_busy h.toBlockInv hb
  exact ⟨{ h.toBlockInv with }, opInv_idle hc hop fun hr => h.window (.inl hr), { h.toTraceInv with }⟩

/-- Every block is built in the state that a block reset leaves, but for the number of the draw. -/
theorem inv_resetWith (c : Cfg) (rom : List Byte) (epoch : Nat) :
    Inv (State.resetWith c rom epoch) :=
  inv_redraw (inv_blockReset (State.resetWith c rom epoch)) rfl epoch

/-- Settles O50, for SMALL's configuration and table. -/
theorem resetHasInvariant : Obligations.ResetHasInvariant :=
  inv_resetWith _ _ _

/-! ### When block reset comes -/

theorem step_reset {s : State} (h : turn s = .reset) : step s = .next (blockReset s) := by
  simp only [step, h]

/-- Nothing is written since block reset, so each byte is the one drawn then (R40, R271). -/
@[simp] theorem blockReset_bitmapByte (s : State) (i : Nat) :
    (blockReset s).bitmapByte i = Config.drawnBitmap (s.epoch + 1) i := rfl

@[simp] theorem blockReset_packedByte (s : State) (k : Nat) :
    (blockReset s).packedByte k = Config.drawnPacked (s.epoch + 1) k := rfl

/-- Block reset goes before the host and the block (R271, log entry 3). -/
theorem turn_of_resetDue {s : State} (h : resetDue s = true) : turn s = .reset := by
  rw [turn, if_pos h]

/-- A block with no micro-step to take does not let a reset wait, once no host access may come before it (log
entry 3). -/
theorem turn_of_nothing_before_reset {s : State} (hr : s.resets ≠ []) (hd : hostDue s = false)
    (hc : s.ctl = .idle ∨ waiting s = true) : turn s = .reset := by
  by_cases hdue : resetDue s = true
  · exact turn_of_resetDue hdue
  · obtain ⟨n, later, hr⟩ := List.exists_cons_of_ne_nil hr
    rw [turn, if_neg hdue, hd, if_neg Bool.false_ne_true, blockTurn, if_pos (by simpa using hc), hr]

/-- A host access is one moment for the resets still to come, whatever it does (R271). -/
theorem hostAccess_resets {s t : State} {x : HostAccess} {rest : List HostReq}
    (h : hostAccess x (takeAccess rest s) = .next t) : t.resets = tickResets s.resets := by
  rw [hostAccess_keeps h, takeAccess_resets]

/-- Settles O46: `blockReset` writes the values of R270; whose turn it is says when. -/
theorem blockResetAtAnyTime : Obligations.BlockResetAtAnyTime := by
  intro s
  refine ⟨fun ht => ?_, fun n later => ⟨fun hr => ?_, fun hr hd hc => ?_, fun t x rest hr hx hc ht => ?_⟩⟩
  · have h := resetValues_blockReset s
    exact ⟨blockReset s, step_reset ht, h.status, h.phase, h.errinfo, h.win, h.tp, h.ctl, h.cs, h.dc, h.rst,
      h.trace, blockReset_bitmapByte s, blockReset_packedByte s, blockReset_cfg s, blockReset_rom s,
      blockReset_hostQ s, blockReset_resets s⟩
  · exact turn_of_resetDue (by simp [resetDue, hr])
  · exact turn_of_nothing_before_reset (by simp [hr]) hd hc
  · rw [step_access hx hc] at ht
    rw [hostAccess_resets ht, hr]
    rfl

end Sys2Proof.Machine
end
